-- ==== Sys2Proof/Word.lean ====
section
/-! DEFINITION. The word types of the block: one bit, a 16-bit scan word, a 32-bit command word, queue item or response
(spec 00_scope R8, R11). -/

namespace Sys2Proof

/-- A value of 1 bit: a pixel, a 1-bit pin level, an error flag. -/
abbrev Bit := BitVec 1

/-- A scan word, WORDW = 16 bits (R8). -/
abbrev ScanWord := BitVec 16

/-- A 32-bit word: a command (R94), a FIFO item (ITEMW, R8), a response (R44). -/
abbrev Word := BitVec 32

/-- `zext_32` of R12: widening with zeros. -/
def zext32 {n : Nat} (v : BitVec n) : Word := v.setWidth 32

end Sys2Proof
end

