-- ==== Sys2Proof/Config.lean ====
section
/-! DEFINITION. What is fixed for a machine: the constants of R8, the parameters of R10 with their defaults, the three
agents of R17, and the free values: FIFO_DEPTH, which the spec leaves OPEN, and the schedule and an infinite
command list beyond the parts that are written out in State. -/

namespace Sys2Proof

/-- The agents that take steps (R17, R285): command executor, refresh loop, lane serializer. -/
inductive Agent where
  | P | R | S
deriving DecidableEq, Repr, Inhabited

namespace Config

/-! The fixed parameters of R8, under the names the spec gives them. -/

def W : Nat := 64
def H : Nat := 16
def NCH : Nat := 3
def NGROUP : Nat := 4
def NLANE : Nat := 2
def NCOLBYTE : Nat := 8
def NPAIR : Nat := 8
def WORDW : Nat := 16
def ITEMW : Nat := 32
def NWORD : Nat := 48
def NCHIP : Nat := 24
def LEVELW : Nat := 6
def FRAMEW : Nat := 16
/-- Chain length of the panel, NCHIP × FRAMEW (R261). -/
def CHAIN : Nat := 384
/-- The 10-bit brightness preamble `0111000101` (R8, 90_conflicts C1). -/
def PREAMBLE : BitVec 10 := 0b0111000101#10
/-- Rows driven by address value `g` (R8). -/
def ROWMAP (g : Nat) : List Nat := [g, g + 4, g + 8, g + 12]

/-- Bits of the pixel buffer (R9). -/
def pixelBits : Nat := NCH * W * H

/-- Bits of the scan table (R9). -/
def tableBits : Nat := NGROUP * NWORD * WORDW

/-- Clock pulses per lane of one row-group (R9). -/
def groupPulses : Nat := NWORD * NPAIR

/-- The cross-check of the literals (R9): the words of a row-group, as many bits in the scan table as in the pixel buffer,
and as many clock pulses in a row-group as bits in the chain of driver chips. -/
def LiteralsAgree : Prop :=
  NWORD = NCOLBYTE * NCH * 2 ∧ pixelBits = 3072 ∧ tableBits = 3072 ∧ groupPulses = 384 ∧ NCHIP * FRAMEW = 384

/-- Free value behind FIFO_DEPTH (R10: OPEN): nothing constrains it. -/
opaque freeDepth : Nat

/-- FIFO_DEPTH of the machine after reset: some natural of at least 1, no more is known (R10, D22). -/
def FIFO_DEPTH : Nat := freeDepth + 1

/-- The schedule beyond the written-out part (R286: "any enabled agent may be chosen at any step"): a free value for
each choice, numbered from 0. -/
opaque schedule : Nat → Agent

/-- The words of an infinite command list beyond its written-out part (R90: the list is "finite or infinite"), by the
number of the continuation and the index in CMDS: free values. -/
opaque laterCommand : Nat → Nat → Word

end Config

/-- ROWSEL (R10, R144): for word 0 and word 1 of a pair the row offsets of the first and of the second selection. -/
structure RowSel where
  first0 : Nat
  second0 : Nat
  first1 : Nat
  second1 : Nat
deriving DecidableEq, Repr

/-- The parameters the source leaves open (R10). Every rule that reads one names it. -/
structure Params where
  /-- FIFO_DEPTH, at least 1. -/
  fifoDepth : Nat
  /-- ROWSEL, an arrangement of the offsets 0, 4, 8, 12. -/
  rowSel : RowSel
  /-- COL_REVERSE. -/
  colReverse : Bool
  /-- COLBYTE_REVERSE. -/
  colbyteReverse : Bool
  /-- SLOT_SWAP. -/
  slotSwap : Bool
  /-- LAT_ASSERT_BIT, 0..15. -/
  latAssertBit : Nat
  /-- ADDR_RESET, 0..3. -/
  addrReset : BitVec 2
  /-- DRAIN_WAIT. -/
  drainWait : Bool
deriving DecidableEq, Repr

/-- The defaults of R10, for a queue of `depth` items. -/
def Params.default (depth : Nat) : Params :=
  { fifoDepth := depth
    rowSel := { first0 := 0, second0 := 8, first1 := 4, second1 := 12 }
    colReverse := false
    colbyteReverse := false
    slotSwap := false
    latAssertBit := 12
    addrReset := 3#2
    drainWait := false }

end Sys2Proof
end

