-- ==== Sys2Proof/Machine/State.lean ====
section
/-! DEFINITION. The state of the block as plain data (R20 to R46), the reasons a step can stop, and the state after
reset. -/

namespace Sys2Proof.Machine

/-- What agent P is doing (R22). -/
inductive PState where
  | idle | blit | dim
deriving DecidableEq, Repr

/-- Sub-step inside a bit of the brightness sequence (R23, R233). -/
inductive DSub where
  | lat | data | clkhi | clklo | latclr
deriving DecidableEq, Repr

/-- Position of agent R in an iteration (R26, R172). -/
inductive RState where
  | idle | adv | fetch | push | blank | setaddr | lathi | latlo | unblank
deriving DecidableEq, Repr

/-- Position of agent S in the serialization of one item (R27). -/
inductive SState where
  | idle | drive | clkhi | clklo
deriving DecidableEq, Repr

/-- PHASE (R31): `config` is 0, `active` is 1. -/
inductive Phase where
  | config | active
deriving DecidableEq, Repr

/-- A pin event, a pin with the level it is driven to (R43). -/
inductive PinEvent where
  | data (v : BitVec 2)
  | clk (v : Bit)
  | lat (v : Bit)
  | oe (v : Bit)
  | a (v : BitVec 2)
deriving DecidableEq, Repr

/-- The levels of the output pins (R35). -/
structure Pins where
  data : BitVec 2
  clk : Bit
  lat : Bit
  oe : Bit
  a : BitVec 2
deriving DecidableEq, Repr

/-- The sticky error flags (R32). -/
structure Flags where
  errCmd : Bit
  errLevel : Bit
  errPhase : Bit
deriving DecidableEq, Repr

/-- A memory of units of `w` bits: the (key, value) pairs whose value is not the value an unlisted key reads as, by
rising key. PB has units of 1 bit and ST of 16 (R60); none is byte-addressed. -/
abbrev Memory (w : Nat) := List (Nat × BitVec w)

/-- The state of the block (R20). The fields `cfg`, `cmds`, `cmdsRest`, `sched` and `tick` are the model's own: they
hold the parameters, the command list and the schedule, which the spec calls parameters of the step relation and of a
run. -/
structure State where
  /-- The parameters of R10. No step changes them. -/
  cfg : Params
  /-- The written-out part of CMDS, the command list the host presents (R90). No step changes it. -/
  cmds : List Word
  /-- How CMDS goes on after `cmds`: `none`, it ends there; `some k`, it is infinite and its further words are the free
  values of continuation `k` (R90). No step changes it. -/
  cmdsRest : Option Nat
  /-- The written-out part of the schedule (R286): which agent is wanted at the next choices, the next one first. -/
  sched : List Agent
  /-- The number of scheduling choices made. -/
  tick : Nat
  /-- PB (R28): one 1-bit unit per pixel. -/
  pb : Memory 1
  /-- ST (R29): one 16-bit unit per scan word. -/
  st : Memory 16
  /-- FIFO (R30), head first. -/
  fifo : List Word
  /-- CP (R24). -/
  cp : Nat
  /-- PSTATE (R22). -/
  pstate : PState
  /-- ECUR (R22). -/
  ecur : BitVec 8
  /-- EACC (R22). -/
  eacc : BitVec 16
  /-- DLEVEL (R23). -/
  dlevel : BitVec 6
  /-- DREP (R23). -/
  drep : BitVec 5
  /-- DBIT (R23). -/
  dbit : BitVec 5
  /-- DSUB (R23). -/
  dsub : DSub
  /-- PHASE (R31). -/
  phase : Phase
  /-- ERR_CMD, ERR_LEVEL, ERR_PHASE (R32). -/
  flags : Flags
  /-- ADDR (R26). -/
  addr : BitVec 2
  /-- RSTATE (R26). -/
  rstate : RState
  /-- WIDX (R26). -/
  widx : BitVec 6
  /-- MUXHOLD (R26). -/
  muxhold : BitVec 16
  /-- SSTATE (R27). -/
  sstate : SState
  /-- OSR (R27). -/
  osr : BitVec 16
  /-- SCNT (R27). -/
  scnt : BitVec 4
  /-- The pins (R35). -/
  pins : Pins
  /-- TRACE (R43), oldest event first. -/
  trace : List PinEvent
  /-- RSP (R44), oldest response first. -/
  rsp : List Word
deriving DecidableEq, Repr

/-- Why the machine stops with a fault. The block has none (R279); this one marks a state the spec says cannot occur. -/
inductive Fault where
  /-- Raised by agent R's fetch step when WIDX is 48 or more, a scan word that does not exist; R191 and R66 say this
  cannot happen. Safe: the model stops where the spec gives no access. -/
  | scanIndexOutOfRange
deriving DecidableEq, Repr

/-- Why a step has no meaning. -/
inductive Refusal where
  /-- Raised by `exec` for a command that has no meaning yet. No arm uses it. Safe. -/
  | notModelled (mnemonic : String)
  /-- Raised by `step` when the parameters lie outside R10 (R279: "a model should refuse ... a parameter setting
  outside 00_scope.md rule R10"). Safe: the spec describes no such machine. -/
  | badParameters
deriving DecidableEq, Repr

/-- The pin levels after reset (R46). -/
def Pins.reset : Pins := { data := 0#2, clk := 0#1, lat := 0#1, oe := 1#1, a := 0#2 }

/-- The flags after reset (R46). -/
def Flags.reset : Flags := { errCmd := 0#1, errLevel := 0#1, errPhase := 0#1 }

/-- The state after reset of a machine with parameters `c` (R46, R301), with no command presented and no part of the
schedule written out. -/
def State.resetFor (c : Params) : State :=
  { cfg := c
    cmds := []
    cmdsRest := none
    sched := []
    tick := 0
    pb := []
    st := []
    fifo := []
    cp := 0
    pstate := .idle
    ecur := 0#8
    eacc := 0#16
    dlevel := 0#6
    drep := 0#5
    dbit := 0#5
    dsub := .lat
    phase := .config
    flags := Flags.reset
    addr := c.addrReset
    rstate := .idle
    widx := 0#6
    muxhold := 0#16
    sstate := .idle
    osr := 0#16
    scnt := 0#4
    pins := Pins.reset
    trace := []
    rsp := [] }

/-- The machine right after reset, with the default parameters and an open FIFO_DEPTH (R10, R46). -/
def State.reset : State := State.resetFor (Params.default Config.FIFO_DEPTH)

end Sys2Proof.Machine
end

