-- ==== Sys2Proof/Machine/Flags.lean ====
section
/-! DEFINITION. The sticky error flags (R32) and the STATUS view (R33). The block has no condition codes. -/

namespace Sys2Proof.Machine

/-- The three error flags, as names. -/
inductive ErrFlag where
  | cmd | level | phase
deriving DecidableEq, Repr

/-- `flag F <- 1` (R13, R271): one flag is set, the others stay. -/
def setFlag (f : ErrFlag) (x : Flags) : Flags :=
  match f with
  | .cmd => { x with errCmd := 1#1 }
  | .level => { x with errLevel := 1#1 }
  | .phase => { x with errPhase := 1#1 }

/-- PHASE as a bit: 0 is CONFIG, 1 is ACTIVE (R31). -/
def phaseBit : Phase → Bit
  | .config => 0#1
  | .active => 1#1

/-- STATUS (R33, R250): 28 zeros, ERR_PHASE, ERR_LEVEL, ERR_CMD, PHASE. -/
def status (s : State) : Word :=
  0#28 ++ s.flags.errPhase ++ s.flags.errLevel ++ s.flags.errCmd ++ phaseBit s.phase

end Sys2Proof.Machine
end

