-- ==== Sys2Proof/Syntax.lean ====
section
/-! DEFINITION. The commands of LPCMD version 1 (R95, R100): one constructor per row of spec/opcode_table.json, with the
operand fields of the row's format. -/

namespace Sys2Proof

/-- A colour channel (R96); the fourth code is reserved and has no constructor. -/
inductive Channel where
  | blue | green | red
deriving DecidableEq, Repr

/-- A command. Coordinates are the raw 12-bit fields (R97), `level` the raw 8-bit field (R98). -/
inductive Instr where
  /-- PSET ch, x, y, b (R122). -/
  | pset (ch : Channel) (x y : BitVec 12) (b : Bit)
  /-- PGET ch, x, y (R123). -/
  | pget (ch : Channel) (x y : BitVec 12)
  /-- PCLR ch (R124). -/
  | pclr (ch : Channel)
  /-- BLIT (R147). -/
  | blit
  /-- STRD g, i (R154). -/
  | strd (g : BitVec 2) (i : BitVec 6)
  /-- DIM level (R231). -/
  | dim (level : BitVec 8)
  /-- START (R171). -/
  | start
  /-- STAT (R250). -/
  | stat
deriving DecidableEq, Repr

end Sys2Proof
end

