-- ==== Sys2Proof/WellFormed.lean ====
section
/-! DEFINITION. When a command has an encoding. The types of the operands already exclude every other bad operand
(channel code 3 has no constructor), so the one check is STRD's word index (R98, R102). -/

namespace Sys2Proof

/-- The command is one that a legal word stands for: STRD's index is below 48 (R102). -/
def Instr.wf : Instr → Bool
  | .strd _ i => decide (i.toNat < 48)
  | .pset _ _ _ _ | .pget _ _ _ | .pclr _ | .blit | .dim _ | .start | .stat => true

end Sys2Proof
end

