-- ==== Sys2Proof/Decode.lean ====
section
/-! DEFINITION. Decoding of a command word, total on all 2^32 words, and the encoder (R94 to R102, R107). Decoding reads
the word and nothing else. -/

namespace Sys2Proof

/-- Why a word is illegal (R102). -/
inductive DecodeError where
  /-- The opcode is 0x0 or 0x9 to 0xF. -/
  | undefinedOpcode
  /-- A must-be-zero field is not zero (R101). -/
  | nonzeroMbz
  /-- PSET, PGET or PCLR with channel code 3 (R96). -/
  | reservedChannel
  /-- STRD with an index of 48 or more. -/
  | wordIndex
deriving DecidableEq, Repr

/-! The fields of the formats P, N, L and T (R95). -/

def opcodeOf (w : Word) : BitVec 4 := w.extractLsb' 28 4
def chOf (w : Word) : BitVec 2 := w.extractLsb' 26 2
def bOf (w : Word) : Bit := w.extractLsb' 25 1
def xOf (w : Word) : BitVec 12 := w.extractLsb' 12 12
def yOf (w : Word) : BitVec 12 := w.extractLsb' 0 12
def levelOf (w : Word) : BitVec 8 := w.extractLsb' 0 8
def gOf (w : Word) : BitVec 2 := w.extractLsb' 6 2
def iOf (w : Word) : BitVec 6 := w.extractLsb' 0 6

/-- The channel of a 2-bit code, 0 blue, 1 green, 2 red, 3 reserved (R96). -/
def Channel.ofCode (c : BitVec 2) : Option Channel :=
  if c = 0#2 then some .blue
  else if c = 1#2 then some .green
  else if c = 2#2 then some .red
  else none

/-- The code of a channel (R96). -/
def Channel.code : Channel → BitVec 2
  | .blue => 0#2
  | .green => 1#2
  | .red => 2#2

/-- One row of the opcode map (R100): the command is selected when the masked word equals `pattern`. -/
structure OpRow where
  mnemonic : String
  mask : Word
  pattern : Word
deriving DecidableEq, Repr

/-! The eight rows of R100. -/

def rowPSET : OpRow := ⟨"PSET", 0xF1000000#32, 0x10000000#32⟩
def rowPGET : OpRow := ⟨"PGET", 0xF3000000#32, 0x20000000#32⟩
def rowPCLR : OpRow := ⟨"PCLR", 0xF3FFFFFF#32, 0x30000000#32⟩
def rowBLIT : OpRow := ⟨"BLIT", 0xFFFFFFFF#32, 0x40000000#32⟩
def rowSTRD : OpRow := ⟨"STRD", 0xFFFFFF00#32, 0x50000000#32⟩
def rowDIM : OpRow := ⟨"DIM", 0xFFFFFF00#32, 0x60000000#32⟩
def rowSTART : OpRow := ⟨"START", 0xFFFFFFFF#32, 0x70000000#32⟩
def rowSTAT : OpRow := ⟨"STAT", 0xFFFFFFFF#32, 0x80000000#32⟩

/-- The opcode map (R100), in the table's order. -/
def opRows : List OpRow := [rowPSET, rowPGET, rowPCLR, rowBLIT, rowSTRD, rowDIM, rowSTART, rowSTAT]

/-- The row's mask and pattern select the word (R100). -/
def OpRow.selects (r : OpRow) (w : Word) : Bool := decide (w &&& r.mask = r.pattern)

/-- The second half of R107 for a row whose opcode the word has: test mask and match, then go on. -/
def ifSelected (r : OpRow) (w : Word) (k : Except DecodeError Instr) : Except DecodeError Instr :=
  if r.selects w then k else .error .nonzeroMbz

/-- The extra condition "ch ≠ 3" of format P (R100). -/
def withChannel (w : Word) (k : Channel → Instr) : Except DecodeError Instr :=
  match Channel.ofCode (chOf w) with
  | some ch => .ok (k ch)
  | none => .error .reservedChannel

/-- Decoding of a command word (R107): by opcode, then the row's mask and match, then its extra condition. -/
def decode (w : Word) : Except DecodeError Instr :=
  if opcodeOf w = 0x1#4 then
    ifSelected rowPSET w (withChannel w fun ch => .pset ch (xOf w) (yOf w) (bOf w))
  else if opcodeOf w = 0x2#4 then
    ifSelected rowPGET w (withChannel w fun ch => .pget ch (xOf w) (yOf w))
  else if opcodeOf w = 0x3#4 then
    ifSelected rowPCLR w (withChannel w fun ch => .pclr ch)
  else if opcodeOf w = 0x4#4 then
    ifSelected rowBLIT w (.ok .blit)
  else if opcodeOf w = 0x5#4 then
    ifSelected rowSTRD w
      (if (iOf w).toNat < 48 then .ok (.strd (gOf w) (iOf w)) else .error .wordIndex)
  else if opcodeOf w = 0x6#4 then
    ifSelected rowDIM w (.ok (.dim (levelOf w)))
  else if opcodeOf w = 0x7#4 then
    ifSelected rowSTART w (.ok .start)
  else if opcodeOf w = 0x8#4 then
    ifSelected rowSTAT w (.ok .stat)
  else .error .undefinedOpcode

/-- The word of a command, field by field from the most significant end, as R95 lays the formats out. -/
def encode : Instr → Word
  | .pset ch x y b => 0x1#4 ++ ch.code ++ b ++ 0#1 ++ x ++ y
  | .pget ch x y => 0x2#4 ++ ch.code ++ 0#1 ++ 0#1 ++ x ++ y
  | .pclr ch => 0x3#4 ++ ch.code ++ 0#1 ++ 0#1 ++ 0#12 ++ 0#12
  | .blit => 0x4#4 ++ 0#28
  | .strd g i => 0x5#4 ++ 0#20 ++ g ++ i
  | .dim level => 0x6#4 ++ 0#20 ++ level
  | .start => 0x7#4 ++ 0#28
  | .stat => 0x8#4 ++ 0#28

/-- The command read from a word of `nbits` bits whose higher bits are 0. Every command is one 32-bit word (R94), and no
byte image of a command exists (D29), so the word is handed to the decoder whole. -/
def decodeTableWord (nbits w : Nat) : Option Instr :=
  if nbits ≤ 32 ∧ w < 2 ^ 32 then (decode (BitVec.ofNat 32 w)).toOption else none

end Sys2Proof
end

