-- ==== Sys2Proof/Machine/Operands.lean ====
section
/-! DEFINITION. The operand forms: signed coordinates and their range test (R97, R121), and the key under which a memory
holds a pixel or a scan word. -/

namespace Sys2Proof.Machine

/-- `sext_12` (R12, R97). -/
def sext12 (v : BitVec 12) : Int := v.toInt

/-- The range predicate on signed coordinates (R121); there is no wrap. -/
def inrange (x y : Int) : Bool :=
  decide (0 ≤ x) && decide (x < Config.W) && decide (0 ≤ y) && decide (y < Config.H)

/-- The key of pixel (ch, x, y) in PB. The layout is not observable (R62); this numbering is the model's. -/
def pixelKey (ch x y : Nat) : Nat := ch * 1024 + x * 16 + y

/-- The place of ST[g][i]: the flat index 48·g + i in which BLIT writes (R148); none where the index does not exist
(R29: g in 0..3, i in 0..47). -/
def scanKey (g i : Nat) : Option Nat :=
  if g < Config.NGROUP ∧ i < Config.NWORD then some (g * Config.NWORD + i) else none

/-- The channel's code as a number (R96). -/
def chanIndex (ch : Channel) : Nat := ch.code.toNat

end Sys2Proof.Machine
end

