-- ==== Sys2Proof/Machine/Ops.lean ====
section
/-! DEFINITION. The named operations over memories, queue, pins and registers (R13, R60 to R72), the one shared form of an
error (the block has no exception entry and no return, R284: a command is dropped and a flag is set, R271), reset as the
host gives it (R300), and the check of the parameters (R10, R279). -/

namespace Sys2Proof.Machine

/-! ### Memories -/

/-- The canonical form: keys strictly rising, no cell that holds the value of an unlisted key. -/
abbrev Memory.wf {w : Nat} (m : Memory w) : Prop :=
  (m.map Prod.fst).Pairwise (· < ·) ∧ ∀ c ∈ m, c.2 ≠ 0

/-- Every listed key is below `n`: the memory lists nothing outside its space. -/
abbrev Memory.below {w : Nat} (n : Nat) (m : Memory w) : Prop := ∀ c ∈ m, c.1 < n

/-- The unit at a key. An unlisted key reads as 0, the reset contents of PB and ST (R28, R29, R46). -/
def Memory.read {w : Nat} : Memory w → Nat → BitVec w
  | [], _ => 0
  | (k, v) :: m, a => if k = a then v else Memory.read m a

/-- A cell for `v`, unless an unlisted key reads as `v`. -/
def Memory.cell {w : Nat} (a : Nat) (v : BitVec w) : Memory w := if v = 0 then [] else [(a, v)]

/-- One atomic write of one unit (R68), keeping the canonical form. -/
def Memory.write {w : Nat} : Memory w → Nat → BitVec w → Memory w
  | [], a, v => Memory.cell a v
  | (k, u) :: m, a, v =>
    if a < k then Memory.cell a v ++ (k, u) :: m
    else if a = k then Memory.cell a v ++ m
    else (k, u) :: Memory.write m a v

/-- Units `lo` up to but not including `hi` become 0. -/
def Memory.clear {w : Nat} (m : Memory w) (lo hi : Nat) : Memory w :=
  m.filter fun c => !(decide (lo ≤ c.1) && decide (c.1 < hi))

/-- `PB[ch][x][y]`, a read (R13). -/
def pbRead (m : Memory 1) (ch x y : Nat) : Bit := Memory.read m (pixelKey ch x y)

/-- `PB[ch][x][y] <- b` (R13). -/
def pbWrite (m : Memory 1) (ch x y : Nat) (b : Bit) : Memory 1 := Memory.write m (pixelKey ch x y) b

/-- All 1024 bits of one plane become 0 (R124). -/
def pbClear (m : Memory 1) (ch : Nat) : Memory 1 := Memory.clear m (pixelKey ch 0 0) (pixelKey (ch + 1) 0 0)

/-- `ST[g][i]`, one atomic 16-bit read (R13, R68); none where the word does not exist. -/
def stRead (m : Memory 16) (g i : Nat) : Option ScanWord := (scanKey g i).map (Memory.read m)

/-- `ST[g][i] <- v`, one atomic 16-bit write (R13, R68); nothing where the word does not exist. -/
def stWrite (m : Memory 16) (g i : Nat) (v : ScanWord) : Memory 16 :=
  match scanKey g i with
  | some k => Memory.write m k v
  | none => m

/-- The little-endian byte image of ST (R64): groups 0 to 3, words 0 to 47, low byte first. -/
def stByteImage (m : Memory 16) : List (BitVec 8) :=
  (List.range (Config.NGROUP * Config.NWORD)).flatMap fun k =>
    let v := Memory.read m k
    [v.extractLsb' 0 8, v.extractLsb' 8 8]

/-! ### Pins and responses -/

/-- The pin levels after an event: each pin holds its last driven level (R35). -/
def Pins.after (p : Pins) : PinEvent → Pins
  | .data v => { p with data := v }
  | .clk v => { p with clk := v }
  | .lat v => { p with lat := v }
  | .oe v => { p with oe := v }
  | .a v => { p with a := v }

/-- `Pin(P) <- v`: the pin takes the level and TRACE gets the event, also when the level does not change (R13, R43). -/
def drive (e : PinEvent) (s : State) : State :=
  { s with pins := s.pins.after e, trace := s.trace ++ [e] }

/-- `respond(v)` (R13, R44). -/
def respond (v : Word) (s : State) : State := { s with rsp := s.rsp ++ [v] }

/-! ### The queue -/

/-- `FifoPush(v)` (R13): append at the tail. Enabled only while there is room, which the push step tests. -/
def fifoPush (v : Word) (s : State) : State := { s with fifo := s.fifo ++ [v] }

/-! ### The command pointer and errors -/

/-- `next command` (R13, R24). -/
def nextCommand (s : State) : State := { s with cp := s.cp + 1 }

/-- A command that cannot be carried out is dropped: one sticky flag is set and CP advances, nothing else (R271). -/
def dropCommand (f : ErrFlag) (s : State) : State := nextCommand { s with flags := setFlag f s.flags }

/-- CMDS[n]: the written-out word, beyond it the word of its infinite continuation, none past the end of a finite list (R90). -/
def commandAt (s : State) (n : Nat) : Option Word :=
  match s.cmds[n]? with
  | some w => some w
  | none => s.cmdsRest.map fun k => Config.laterCommand k n

/-- The word at CP, if the host has presented one (R90, R24). -/
def fetchCommand (s : State) : Option Word := commandAt s s.cp

/-! ### Reset and parameters -/

/-- The asynchronous reset of the whole block (R300, R302): every piece of the spec's state goes to its reset value; the
parameters, the command list and the schedule are the host's and stay. -/
def applyReset (s : State) : State :=
  { State.resetFor s.cfg with cmds := s.cmds, cmdsRest := s.cmdsRest, sched := s.sched, tick := s.tick }

/-- ROWSEL uses each of the offsets 0, 4, 8, 12 exactly once (R144, D8). -/
def rowSelOk (r : RowSel) : Bool :=
  [0, 4, 8, 12].all fun o => [r.first0, r.second0, r.first1, r.second1].count o == 1

/-- The parameters lie inside R10; the other settings are the ones R279 says to refuse. -/
def paramsOk (c : Params) : Bool :=
  decide (1 ≤ c.fifoDepth) && rowSelOk c.rowSel && decide (c.latAssertBit < Config.FRAMEW)

end Sys2Proof.Machine
end

