-- ==== Sys2Proof/Machine/Brightness.lean ====
section
/-! DEFINITION. The brightness bit-banger: the command DIM and its sub-steps (R230 to R241). -/

namespace Sys2Proof.Machine

/-- FRAME (R232): the 10-bit preamble, then the 6-bit level. -/
def dimFrame (level : BitVec 6) : BitVec 16 := Config.PREAMBLE ++ level

/-- The bit of transmission index b, FRAME[15 − b] (R232). -/
def dimBit (level : BitVec 6) (b : Nat) : Bit := (dimFrame level).extractLsb' (15 - b) 1

/-- DIM level, the decode step (R231): rejected in ACTIVE (R238), then rejected above 63 (R239), else the sequence of
R233 begins. -/
def execDim (level : BitVec 8) (s : State) : Host.Outcome State Fault Refusal :=
  if s.phase = .active then .next (dropCommand .phase s)
  else if 63 < level.toNat then .next (dropCommand .level s)
  else .next { s with
    dlevel := level.extractLsb' 0 6, drep := 0#5, dbit := 0#5, dsub := .lat, pstate := .dim }

/-- One sub-step of the brightness sequence, while PSTATE = P_DIM (R233). The sub-step that follows is the next of the
listed order; after D_LATCLR a repetition begins again at D_LAT. -/
def dimStep (s : State) : State :=
  match s.dsub with
  | .lat =>
    let t := if s.dbit.toNat = s.cfg.latAssertBit then drive (.lat 1#1) s else s
    { t with dsub := .data }
  | .data =>
    let b := dimBit s.dlevel s.dbit.toNat
    { drive (.data (b ++ b)) s with dsub := .clkhi }
  | .clkhi => { drive (.clk 1#1) s with dsub := .clklo }
  | .clklo =>
    { drive (.clk 0#1) s with
      dbit := s.dbit + 1#5, dsub := if s.dbit = 15#5 then .latclr else .lat }
  | .latclr =>
    let t := { drive (.lat 0#1) s with dbit := 0#5, drep := s.drep + 1#5, dsub := .lat }
    if s.drep + 1#5 = 24#5 then nextCommand { t with pstate := .idle } else t

end Sys2Proof.Machine
end

