-- ==== Sys2Proof/Machine/Encoder.lean ====
section
/-! DEFINITION. The scan encoder: EncWord (R141 to R145), the commands BLIT (R147, R148) and STRD (R154). -/

namespace Sys2Proof.Machine

/-! Derived views of a word index i and of the cursor ECUR (R22, R141). -/

/-- Column-byte position p of word i. -/
def wordPos (i : Nat) : Nat := i / 6
/-- Channel of word i. -/
def wordChan (i : Nat) : Nat := i % 6 / 2
/-- Which of the two words of a (position, channel) word i is. -/
def wordSel (i : Nat) : Nat := i % 2

/-- The column that pair k of position p carries (R142). -/
def pairColumn (c : Params) (p k : Nat) : Nat :=
  8 * (if c.colbyteReverse then 7 - p else p) + (if c.colReverse then 7 - k else k)

/-- Row offset of the first selection of word w (R144). -/
def firstOffset (c : Params) (w : Nat) : Nat := if w = 0 then c.rowSel.first0 else c.rowSel.first1
/-- Row offset of the second selection of word w (R144). -/
def secondOffset (c : Params) (w : Nat) : Nat := if w = 0 then c.rowSel.second0 else c.rowSel.second1

/-- Pair k of scan word (g, i): the first selection in the more significant bit unless SLOT_SWAP (R143, R145). -/
def encPair (c : Params) (pb : Memory 1) (g i k : Nat) : BitVec 2 :=
  let x := pairColumn c (wordPos i) k
  let b1 := pbRead pb (wordChan i) x (g + firstOffset c (wordSel i))
  let b2 := pbRead pb (wordChan i) x (g + secondOffset c (wordSel i))
  if c.slotSwap then b2 ++ b1 else b1 ++ b2

/-- EncWord(PB, g, i) (R145): pair k is bits [15−2k : 14−2k], so pair 0 is most significant (R143). -/
def encWord (c : Params) (pb : Memory 1) (g i : Nat) : ScanWord :=
  let q := encPair c pb g i
  q 0 ++ q 1 ++ q 2 ++ q 3 ++ q 4 ++ q 5 ++ q 6 ++ q 7

/-- The BLIT word step for cursor ECUR (R148): pack one word, store it with one atomic write, advance; after word 191 the
pass ends. -/
def blitWord (s : State) : State :=
  let g := s.ecur.toNat / Config.NWORD
  let i := s.ecur.toNat % Config.NWORD
  let v := encWord s.cfg s.pb g i
  let t := { s with eacc := v, st := stWrite s.st g i v, ecur := s.ecur + 1#8 }
  if s.ecur + 1#8 = 192#8 then nextCommand { t with pstate := .idle } else t

/-- BLIT (R147): start the pass and take the word step for ECUR = 0 in the same step. -/
def execBlit (s : State) : Host.Outcome State Fault Refusal :=
  .next (blitWord { s with ecur := 0#8, pstate := .blit })

/-- STRD g, i (R154): respond with one scan word. An index that does not exist is an illegal command (R66). -/
def execStrd (g : BitVec 2) (i : BitVec 6) (s : State) : Host.Outcome State Fault Refusal :=
  match stRead s.st g.toNat i.toNat with
  | some v => .next (nextCommand (respond (zext32 v) s))
  | none => .next (dropCommand .cmd s)

end Sys2Proof.Machine
end

