-- ==== Sys2Proof/Machine/Pixel.lean ====
section
/-! DEFINITION. The pixel buffer commands PSET, PGET and PCLR (R120 to R125). Each is one atomic step and touches only PB,
RSP and CP. -/

namespace Sys2Proof.Machine

/-- PSET ch, x, y, b (R122): write one pixel bit; out of range does nothing and is no error. -/
def execPset (ch : Channel) (x y : BitVec 12) (b : Bit) (s : State) : Host.Outcome State Fault Refusal :=
  let X := sext12 x
  let Y := sext12 y
  .next (nextCommand
    (if inrange X Y then { s with pb := pbWrite s.pb (chanIndex ch) X.toNat Y.toNat b } else s))

/-- PGET ch, x, y (R123): respond with one pixel bit, 0 out of range. -/
def execPget (ch : Channel) (x y : BitVec 12) (s : State) : Host.Outcome State Fault Refusal :=
  let X := sext12 x
  let Y := sext12 y
  .next (nextCommand (respond
    (if inrange X Y then zext32 (pbRead s.pb (chanIndex ch) X.toNat Y.toNat) else 0#32) s))

/-- PCLR ch (R124): clear one plane in one step. -/
def execPclr (ch : Channel) (s : State) : Host.Outcome State Fault Refusal :=
  .next (nextCommand { s with pb := pbClear s.pb (chanIndex ch) })

end Sys2Proof.Machine
end

