-- ==== Sys2Proof/Machine/Latcher.lean ====
section
/-! DEFINITION. The row address latcher: blank, address, latch high, latch low, unblank (R200 to R207). -/

namespace Sys2Proof.Machine

/-- The blank step (R201). -/
def blankStep (s : State) : State := { drive (.oe 1#1) s with rstate := .setaddr }

/-- The address step (R202). -/
def setaddrStep (s : State) : State := { drive (.a s.addr) s with rstate := .lathi }

/-- The latch-high step (R203). -/
def lathiStep (s : State) : State := { drive (.lat 1#1) s with rstate := .latlo }

/-- The latch-low step (R204). -/
def latloStep (s : State) : State := { drive (.lat 0#1) s with rstate := .unblank }

/-- The unblank step (R205). -/
def unblankStep (s : State) : State := { drive (.oe 0#1) s with rstate := .adv }

end Sys2Proof.Machine
end

