-- ==== Sys2Proof/Machine/ScanMux.lean ====
section
/-! DEFINITION. The scan sequence mux: the fetch and the push step of agent R (R190 to R195). -/

namespace Sys2Proof.Machine

/-- The fetch step (R191): one atomic read of ST[ADDR][WIDX]. -/
def fetchStep (s : State) : Host.Outcome State Fault Refusal :=
  match stRead s.st s.addr.toNat s.widx.toNat with
  | some v => .next { s with muxhold := v, rstate := .push }
  | none => .fault .scanIndexOutOfRange

/-- The push step (R192), taken only while FIFO has room; the upper half of the item is 0 (R195). -/
def pushStep (s : State) : State :=
  { fifoPush (zext32 s.muxhold) s with
    widx := s.widx + 1#6
    rstate := if (s.widx + 1#6).toNat < Config.NWORD then .fetch else .blank }

end Sys2Proof.Machine
end

