-- ==== Sys2Proof/Machine/Refresh.lean ====
section
/-! DEFINITION. The refresh controller: the command START (R171), the advance step (R173) and the state machine of agent
R (R172). -/

namespace Sys2Proof.Machine

/-- START (R171): rejected in ACTIVE, else the phase becomes ACTIVE and agent R starts at R_ADV. -/
def execStart (s : State) : Host.Outcome State Fault Refusal :=
  if s.phase = .active then .next (dropCommand .phase s)
  else .next (nextCommand { s with phase := .active, rstate := .adv })

/-- The advance step (R173): ADDR + 1 modulo 4, WIDX 0. -/
def advStep (s : State) : State := { s with addr := s.addr + 1#2, widx := 0#6, rstate := .fetch }

/-- The step of agent R for its state (R172). In R_IDLE there is none: the state stays. -/
def refreshStep (s : State) : Host.Outcome State Fault Refusal :=
  match s.rstate with
  | .idle => .next s
  | .adv => .next (advStep s)
  | .fetch => fetchStep s
  | .push => .next (pushStep s)
  | .blank => .next (blankStep s)
  | .setaddr => .next (setaddrStep s)
  | .lathi => .next (lathiStep s)
  | .latlo => .next (latloStep s)
  | .unblank => .next (unblankStep s)

end Sys2Proof.Machine
end

