-- ==== Sys2Proof/Machine/System.lean ====
section
/-! DEFINITION. STAT (R250) and the effect of an illegal word (R251). -/

namespace Sys2Proof.Machine

/-- STAT (R250): respond with STATUS; reading does not clear the flags. -/
def execStat (s : State) : Host.Outcome State Fault Refusal :=
  .next (nextCommand (respond (status s) s))

/-- An illegal word, in any phase (R251): ERR_CMD is set and CP advances, nothing else. -/
def illegalWord (s : State) : State := dropCommand .cmd s

end Sys2Proof.Machine
end

