-- ==== Sys2Proof/Machine/Dispatch.lean ====
section
/-! DEFINITION. The meaning of every command: one arm per constructor of Instr. -/

namespace Sys2Proof.Machine

def exec (i : Instr) (s : State) : Host.Outcome State Fault Refusal :=
  match i with
  | .pset ch x y b => Sys2Proof.Machine.execPset ch x y b s
  | .pget ch x y => Sys2Proof.Machine.execPget ch x y s
  | .pclr ch => Sys2Proof.Machine.execPclr ch s
  | .blit => Sys2Proof.Machine.execBlit s
  | .strd g n => Sys2Proof.Machine.execStrd g n s
  | .dim level => Sys2Proof.Machine.execDim level s
  | .start => Sys2Proof.Machine.execStart s
  | .stat => Sys2Proof.Machine.execStat s

end Sys2Proof.Machine
end

