-- ==== Sys2Proof/Machine/Schedule.lean ====
section
/-! DEFINITION. Which agents have an enabled step, and which of them takes the next step (R13, R278, R286). -/

namespace Sys2Proof.Machine

/-- FIFO is empty and agent S is idle: every pushed word has been shifted out (R201, R310). -/
def drained (s : State) : Bool := s.fifo.isEmpty && decide (s.sstate = .idle)

/-- Agent P has an enabled step: a command is waiting (R24), or a pass or a sequence is in progress (R148, R233). -/
def pEnabled (s : State) : Bool :=
  match s.pstate with
  | .idle => (fetchCommand s).isSome
  | .blit => decide (s.ecur.toNat < 192)
  | .dim => true

/-- Agent R has an enabled step: the guards of R172, R192 and R201. -/
def rEnabled (s : State) : Bool :=
  match s.rstate with
  | .idle => false
  | .push => decide (s.fifo.length < s.cfg.fifoDepth)
  | .blank => !s.cfg.drainWait || drained s
  | .adv | .fetch | .setaddr | .lathi | .latlo | .unblank => true

/-- Agent S has an enabled step: in the middle of an item always, when idle the guard of R212. -/
def sEnabled (s : State) : Bool :=
  match s.sstate with
  | .idle => decide (s.phase = .active) && !s.fifo.isEmpty
  | .drive | .clkhi | .clklo => true

/-- The guard of an agent's step. -/
def enabled (s : State) : Agent → Bool
  | .P => pEnabled s
  | .R => rEnabled s
  | .S => sEnabled s

/-- The agents with an enabled step. -/
def enabledAgents (s : State) : List Agent := [Agent.P, .R, .S].filter (enabled s)

/-- The agent the schedule wants at the next choice: the written-out part first, then the free schedule. -/
def wanted (s : State) : Agent :=
  match s.sched with
  | a :: _ => a
  | [] => Config.schedule s.tick

/-- One scheduling choice has been made. -/
def choiceMade (s : State) : State := { s with sched := s.sched.tail, tick := s.tick + 1 }

/-- The agent that takes the next step and the state in which it takes it (R286). No agent enabled: none. One enabled: no
choice is made. More: the wanted agent if it is enabled, else the first enabled one. -/
def selectAgent (s : State) : Option (Agent × State) :=
  match enabledAgents s with
  | [] => none
  | [a] => some (a, s)
  | a :: _ :: _ => some (if enabled s (wanted s) then wanted s else a, choiceMade s)

end Sys2Proof.Machine
end

