-- ==== Sys2Proof/Machine/Serializer.lean ====
section
/-! DEFINITION. The lane serializer, agent S (R210 to R221). -/

namespace Sys2Proof.Machine

/-- The pop step (R212): the head item leaves FIFO, its upper half is discarded. With an empty FIFO there is no pop. -/
def popStep (s : State) : State :=
  match s.fifo with
  | [] => s
  | item :: rest =>
    { s with fifo := rest, osr := item.extractLsb' 0 16, scnt := 8#4, sstate := .drive }

/-- The drive step (R213) and the shift of OSR (R214). -/
def driveStep (s : State) : State :=
  { drive (.data (s.osr.extractLsb' 14 2)) s with osr := s.osr <<< 2, sstate := .clkhi }

/-- The clock-high step (R215). -/
def clkhiStep (s : State) : State := { drive (.clk 1#1) s with sstate := .clklo }

/-- The clock-low step (R216). -/
def clkloStep (s : State) : State :=
  { drive (.clk 0#1) s with
    scnt := s.scnt - 1#4, sstate := if s.scnt - 1#4 = 0#4 then .idle else .drive }

/-- The step of agent S for its state. -/
def serializerStep (s : State) : State :=
  match s.sstate with
  | .idle => popStep s
  | .drive => driveStep s
  | .clkhi => clkhiStep s
  | .clklo => clkloStep s

end Sys2Proof.Machine
end

