-- ==== Sys2Proof/Machine/Agents.lean ====
section
/-! DEFINITION. The next step of each agent (R24, R25, R91), and placing a command word where agent P takes its next one
from. -/

namespace Sys2Proof.Machine

/-- Agent P between commands takes the given word: decode it (R107) and run the command, or drop an illegal word
(R251). -/
def runWord (w : Word) (s : State) : Host.Outcome State Fault Refusal :=
  match decode w with
  | .ok i => exec i s
  | .error _ => .next (illegalWord s)

/-- The next step of agent P (R91): fetch and run the command at CP, or go on with the pass or sequence in progress. -/
def commandStep (s : State) : Host.Outcome State Fault Refusal :=
  match s.pstate with
  | .idle =>
    match fetchCommand s with
    | some w => runWord w s
    | none => .next s
  | .blit => .next (blitWord s)
  | .dim => .next (dimStep s)

/-- The next step of an agent. -/
def agentStep (a : Agent) (s : State) : Host.Outcome State Fault Refusal :=
  match a with
  | .P => commandStep s
  | .R => refreshStep s
  | .S => .next (serializerStep s)

/-- The written-out part of CMDS with the word at CP: the words before CP as the list has them, zero words where a finite
list is shorter, and the written-out words after CP as they are. -/
def placeCommand (w : Word) (s : State) : List Word :=
  ((List.range s.cp).map fun n => (commandAt s n).getD 0#32) ++ w :: s.cmds.drop (s.cp + 1)

/-- The state with the word as the next command of agent P: at CMDS[CP], agent P between commands, and, where another
agent could step first, agent P wanted at the next choice. -/
def presentCommand (w : Word) (s : State) : State :=
  { s with
    cmds := placeCommand w s
    pstate := .idle
    sched := if rEnabled s || sEnabled s then .P :: s.sched else s.sched }

end Sys2Proof.Machine
end

