-- ==== Sys2Proof/Machine/Step.lean ====
section
/-! DEFINITION. One step of the block (R286), and placing an instruction where the next step takes it from. -/

namespace Sys2Proof.Machine

/-- One step: the agent the schedule selects takes its step. With no enabled agent the block waits and the state stays
(R13, R278). Parameters outside R10 are refused (R279). -/
def step (s : State) : Host.Outcome State Fault Refusal :=
  if paramsOk s.cfg then
    match selectAgent s with
    | some (a, t) => agentStep a t
    | none => .next s
  else .refused .badParameters

/-- The state whose very next step runs the command of the word's low 32 bits. -/
def State.withFetchWord (s : State) (nbits w : Nat) : State :=
  presentCommand (BitVec.ofNat 32 (w % 2 ^ nbits)) s

end Sys2Proof.Machine
end

