-- ==== Sys2Proof/Machine/Assembler.lean ====
section
/-! DEFINITION. The assembly text of R105 and the pseudo-commands of R106, as a function from a line's characters to the
command words it stands for. It is no part of the machine; no step reads it. -/

namespace Sys2Proof.Machine

/-- An assembly statement with the numbers as written (R105, R106). -/
inductive Stmt where
  | pset (ch : Channel) (x y b : Int)
  | pget (ch : Channel) (x y : Int)
  | pclr (ch : Channel)
  | blit
  | strd (g i : Int)
  | dim (level : Int)
  | start
  | stat
  | clrall
  | pon (ch : Channel) (x y : Int)
  | poff (ch : Channel) (x y : Int)
  | word (v : Int)
deriving DecidableEq, Repr

/-- `lo ≤ v ≤ hi`. -/
def between (lo hi v : Int) : Bool := decide (lo ≤ v) && decide (v ≤ hi)

/-- A coordinate an assembler accepts (R105). -/
def coordOk (v : Int) : Bool := between (-2048) 2047 v

/-- PSET with the checks of R105. -/
def asmPset (ch : Channel) (x y b : Int) : Option (List Word) :=
  if coordOk x && coordOk y && between 0 1 b then
    some [encode (.pset ch (BitVec.ofInt 12 x) (BitVec.ofInt 12 y) (BitVec.ofInt 1 b))]
  else none

/-- The words of a statement, none where an assembler refuses it (R105); the pseudo-commands expand as R106 says. -/
def assemble : Stmt → Option (List Word)
  | .pset ch x y b => asmPset ch x y b
  | .pget ch x y =>
    if coordOk x && coordOk y then some [encode (.pget ch (BitVec.ofInt 12 x) (BitVec.ofInt 12 y))] else none
  | .pclr ch => some [encode (.pclr ch)]
  | .blit => some [encode .blit]
  | .strd g i =>
    if between 0 3 g && between 0 63 i then
      some [encode (.strd (BitVec.ofInt 2 g) (BitVec.ofInt 6 i))]
    else none
  | .dim level => if between 0 255 level then some [encode (.dim (BitVec.ofInt 8 level))] else none
  | .start => some [encode .start]
  | .stat => some [encode .stat]
  | .clrall => some [encode (.pclr .blue), encode (.pclr .green), encode (.pclr .red)]
  | .pon ch x y => asmPset ch x y 1
  | .poff ch x y => asmPset ch x y 0
  | .word v => if between 0 0xFFFFFFFF v then some [BitVec.ofInt 32 v] else none

/-- The value of a decimal digit. -/
def decDigit (c : Char) : Option Nat :=
  if 48 ≤ c.toNat ∧ c.toNat ≤ 57 then some (c.toNat - 48) else none

/-- The value of a hexadecimal digit. -/
def hexDigit (c : Char) : Option Nat :=
  if 48 ≤ c.toNat ∧ c.toNat ≤ 57 then some (c.toNat - 48)
  else if 65 ≤ c.toNat ∧ c.toNat ≤ 70 then some (c.toNat - 55)
  else if 97 ≤ c.toNat ∧ c.toNat ≤ 102 then some (c.toNat - 87)
  else none

/-- The number of a run of digits of a base, after the digits already read. -/
def digits (base : Nat) (digit : Char → Option Nat) : List Char → Nat → Option Nat
  | [], acc => some acc
  | c :: cs, acc =>
    match digit c with
    | some d => digits base digit cs (base * acc + d)
    | none => none

/-- A number: decimal, possibly negative, or `0x` hexadecimal (R105). -/
def number : List Char → Option Int
  | [] => none
  | ['-'] => none
  | '-' :: cs => (digits 10 decDigit cs 0).map fun n => -(n : Int)
  | ['0', 'x'] => none
  | '0' :: 'x' :: cs => (digits 16 hexDigit cs 0).map fun n => (n : Int)
  | c :: cs => (digits 10 decDigit (c :: cs) 0).map fun n => (n : Int)

/-- A channel name (R105). -/
def channelName : List Char → Option Channel
  | ['B'] => some .blue
  | ['G'] => some .green
  | ['R'] => some .red
  | _ => none

/-- The characters before a comment (R105: `;` starts a comment). -/
def uncommented (cs : List Char) : List Char := cs.takeWhile (· != ';')

/-- The parts of a line: runs of characters between blanks, tabs and commas, with a comma a part of its own. -/
def lineParts : List Char → List Char → List (List Char)
  | [], cur => if cur.isEmpty then [] else [cur.reverse]
  | c :: cs, cur =>
    if c = ' ' ∨ c = '\t' then (if cur.isEmpty then [] else [cur.reverse]) ++ lineParts cs []
    else if c = ',' then (if cur.isEmpty then [] else [cur.reverse]) ++ [','] :: lineParts cs []
    else lineParts cs (c :: cur)

/-- The operands after a mnemonic, separated by single commas. -/
def operands : List (List Char) → Option (List (List Char))
  | [] => some []
  | [o] => if o = [','] then none else some [o]
  | o :: c :: rest =>
    if o ≠ [','] ∧ c = [','] ∧ rest ≠ [] then (operands rest).map (o :: ·) else none

/-- A channel and then numbers, as PSET and its kin have them. -/
def channelAndNumbers : List (List Char) → Option (Channel × List Int)
  | [] => none
  | c :: ns => do
    let ch ← channelName c
    let vs ← ns.mapM number
    pure (ch, vs)

/-- The statement of a mnemonic and its operands. -/
def statement (m : List Char) (ops : List (List Char)) : Option Stmt :=
  let pixel (k : Channel → List Int → Option Stmt) : Option Stmt :=
    match channelAndNumbers ops with
    | some (ch, vs) => k ch vs
    | none => none
  let plain (k : List Int → Option Stmt) : Option Stmt :=
    match ops.mapM number with
    | some vs => k vs
    | none => none
  if m = "PSET".toList then pixel fun ch vs => match vs with | [x, y, b] => some (.pset ch x y b) | _ => none
  else if m = "PGET".toList then pixel fun ch vs => match vs with | [x, y] => some (.pget ch x y) | _ => none
  else if m = "PCLR".toList then pixel fun ch vs => match vs with | [] => some (.pclr ch) | _ => none
  else if m = "BLIT".toList then plain fun vs => match vs with | [] => some .blit | _ => none
  else if m = "STRD".toList then plain fun vs => match vs with | [g, i] => some (.strd g i) | _ => none
  else if m = "DIM".toList then plain fun vs => match vs with | [l] => some (.dim l) | _ => none
  else if m = "START".toList then plain fun vs => match vs with | [] => some .start | _ => none
  else if m = "STAT".toList then plain fun vs => match vs with | [] => some .stat | _ => none
  else if m = "CLRALL".toList then plain fun vs => match vs with | [] => some .clrall | _ => none
  else if m = "PON".toList then pixel fun ch vs => match vs with | [x, y] => some (.pon ch x y) | _ => none
  else if m = "POFF".toList then pixel fun ch vs => match vs with | [x, y] => some (.poff ch x y) | _ => none
  else if m = "WORD".toList then plain fun vs => match vs with | [v] => some (.word v) | _ => none
  else none

/-- The command words of one line of text (R105: one command per line); an empty line stands for none. -/
def assembleLine (line : List Char) : Option (List Word) :=
  match lineParts (uncommented line) [] with
  | [] => some []
  | m :: rest =>
    match operands rest with
    | some ops =>
      match statement m ops with
      | some st => assemble st
      | none => none
    | none => none

end Sys2Proof.Machine
end

