-- ==== Sys2Proof/Machine/Observer.lean ====
section
/-! DEFINITION. The panel observer (R260 to R266), a model of the environment: a function of the pin trace that no step
of the block reads. -/

namespace Sys2Proof.Machine

/-- What the observer records of a LAT pulse with rising edges of CLK under it (R265): how many, and the 16 newest bits of
each lane at the falling edge of LAT. DESIGN CHOICE (log entry 20, safe): where fewer than 16 rising edges of CLK have
occurred, a case R265 does not settle, the bits not yet sampled are those the lane's register held at the start. -/
structure ConfigPulse where
  edges : Nat
  lane1 : BitVec 16
  lane0 : BitVec 16
deriving DecidableEq, Repr

/-- The contents of the output latches, one bit per chain position of each lane (R262). -/
structure Frame where
  lane1 : BitVec Config.CHAIN
  lane0 : BitVec Config.CHAIN
deriving DecidableEq, Repr

/-- The observer's view of the panel after a trace. -/
structure Panel where
  /-- The levels of the pins after the last event. -/
  pins : Pins
  /-- SR_1 and SR_0 (R261), the newest bit at position 0. -/
  sr : Frame
  /-- OUT_1 and OUT_0 (R262). -/
  out : Frame
  /-- SR as it was at the latest rising edge of LAT. -/
  atRise : Frame
  /-- Rising edges of CLK since the latest rising edge of LAT. -/
  edges : Nat
  /-- The configuration pulses, oldest first (R265). -/
  pulses : List ConfigPulse
  /-- For each row-group, what OUT held when the group was last visible, none while it never was (R263). -/
  image0 : Option Frame
  image1 : Option Frame
  image2 : Option Frame
  image3 : Option Frame
deriving DecidableEq, Repr

/-- One bit enters a lane's shift register; the bit at position 383 is lost (R261). -/
def shiftLane (sr : BitVec Config.CHAIN) (b : Bit) : BitVec Config.CHAIN := (sr <<< 1) ||| b.setWidth Config.CHAIN

/-- Both lanes take the level of their DATA pin (R261). -/
def shiftFrame (f : Frame) (d : BitVec 2) : Frame :=
  { lane1 := shiftLane f.lane1 (d.extractLsb' 1 1), lane0 := shiftLane f.lane0 (d.extractLsb' 0 1) }

/-- What the panel does at an event, before the pin levels are updated: a rising edge of CLK shifts (R261); a rising edge
of LAT begins a pulse; a falling edge ends it, a data latch without a clock edge under it (R262), else a configuration
pulse (R265), whose 16 bits are read from SR even where the trace has fewer than 16 rising edges of CLK (DESIGN CHOICE,
log entry 20, safe). -/
def panelEdge (o : Panel) (e : PinEvent) : Panel :=
  match e with
  | .clk v =>
    if o.pins.clk = 0#1 ∧ v = 1#1 then { o with sr := shiftFrame o.sr o.pins.data, edges := o.edges + 1 } else o
  | .lat v =>
    if o.pins.lat = 0#1 ∧ v = 1#1 then { o with atRise := o.sr, edges := 0 }
    else if o.pins.lat = 1#1 ∧ v = 0#1 then
      if o.edges = 0 then { o with out := o.atRise }
      else { o with
        pulses := o.pulses ++
          [⟨o.edges, o.sr.lane1.extractLsb' 0 16, o.sr.lane0.extractLsb' 0 16⟩] }
    else o
  | .data _ | .oe _ | .a _ => o

/-- While OE = 0 the group on the A pins is visible with the contents of OUT (R263). -/
def panelShow (o : Panel) : Panel :=
  if o.pins.oe = 0#1 then
    if o.pins.a = 0#2 then { o with image0 := some o.out }
    else if o.pins.a = 1#2 then { o with image1 := some o.out }
    else if o.pins.a = 2#2 then { o with image2 := some o.out }
    else { o with image3 := some o.out }
  else o

/-- The observer after one more event. -/
def panelEvent (o : Panel) (e : PinEvent) : Panel :=
  let q := panelEdge o e
  panelShow { q with pins := q.pins.after e }

/-- The observer after a trace, from the panel `o` (R260). -/
def observe (o : Panel) (tr : List PinEvent) : Panel := tr.foldl panelEvent o

/-- The panel at reset of the block: the block's pins at their reset levels, its own registers as they happen to be. -/
def Panel.initial (sr out : Frame) : Panel :=
  { pins := Pins.reset, sr := sr, out := out, atRise := sr, edges := 0, pulses := []
    image0 := none, image1 := none, image2 := none, image3 := none }

/-- The chain position of pixel (ch, x, y) (R264): pair k = x mod 8 of word i = 6·(x div 8) + 2·ch + w, with
w = (y div 4) mod 2, stands at position 383 − (8·i + k). -/
def chainPos (ch x y : Nat) : Nat :=
  383 - (8 * (6 * (x / 8) + 2 * ch + y / 4 % 2) + x % 8)

/-- The LED of channel `ch` at (x, y) by latch contents `f` (R264): rows 0..7 by lane 1, rows 8..15 by lane 0. -/
def frameLed (f : Frame) (ch x y : Nat) : Bool :=
  if y < 8 then f.lane1.getLsbD (chainPos ch x y) else f.lane0.getLsbD (chainPos ch x y)

/-- The panel shows the LED of channel `ch` at (x, y) lit (R263): OE = 0, the row belongs to the group on the A pins,
and the latch bit is 1. -/
def Panel.lit (o : Panel) (ch x y : Nat) : Bool :=
  decide (o.pins.oe = 0#1) && decide (y % 4 = o.pins.a.toNat) && frameLed o.out ch x y

end Sys2Proof.Machine
end

