-- ==== Sys2Proof/Safety.lean ====
section
/-! DEFINITION. The terms in which claims are stated: the invariant of the block, the traces the spec writes out, runs of
one agent and of the block, fairness and the timing premise, and which pin an agent drives next. -/

namespace Sys2Proof.Machine

/-! ### The invariant -/

/-- The level of LAT inside the brightness sequence (R234): up from the LAT sub-step of bit LAT_ASSERT_BIT to the end of
the repetition. -/
def dimLatLevel (s : State) : Bit :=
  if s.cfg.latAssertBit < s.dbit.toNat ∨ (s.cfg.latAssertBit = s.dbit.toNat ∧ s.dsub ≠ .lat) then 1#1 else 0#1

/-- Pairs of the current item that the drive step has still to take (R213, R216). -/
def pairsLeft (s : State) : Nat :=
  match s.sstate with
  | .idle | .drive => s.scnt.toNat
  | .clkhi | .clklo => s.scnt.toNat - 1

/-- What holds at reset and after every step. Each field names the rules whose state it rules on. -/
structure Inv (s : State) : Prop where
  /-- The parameters lie inside R10. -/
  params : paramsOk s.cfg = true
  /-- PB is in canonical form and lists pixels only (R28). -/
  pbWf : Memory.wf s.pb
  pbBelow : Memory.below 3072 s.pb
  /-- ST is in canonical form and lists scan words only (R29). -/
  stWf : Memory.wf s.st
  stBelow : Memory.below 192 s.st
  /-- FIFO holds at most FIFO_DEPTH items (R30, R211). -/
  fifoRoom : s.fifo.length ≤ s.cfg.fifoDepth
  /-- CP never passes the end of a finite list, and inside a command it is on that command (R24, R91). -/
  cpBound : s.cmdsRest = none → s.cp ≤ s.cmds.length
  busyCp : s.pstate ≠ .idle → (fetchCommand s).isSome = true
  /-- ECUR is in 0..192 (R22), and inside a pass between words (R148). -/
  ecurMax : s.ecur.toNat ≤ 192
  blitCursor : s.pstate = .blit → 1 ≤ s.ecur.toNat ∧ s.ecur.toNat < 192
  /-- Agent R is idle exactly in phase CONFIG, where S is idle, FIFO empty and the panel blanked (R171, R220, R301). -/
  phaseIdle : s.phase = .config ↔ s.rstate = .idle
  configQuiet : s.phase = .config → s.sstate = .idle ∧ s.fifo = [] ∧ s.pins.oe = 1#1
  /-- The brightness sequence runs in CONFIG only (R238), with its counters in range (R23). -/
  dimPhase : s.pstate = .dim → s.phase = .config
  dimRange : s.pstate = .dim → s.drep.toNat < 24 ∧ s.dbit.toNat ≤ 16 ∧ (s.dsub = .latclr ↔ s.dbit.toNat = 16)
  /-- WIDX is in 0..48 (R26) and below 48 where a word is fetched or pushed (R191). -/
  widxMax : s.widx.toNat ≤ 48
  widxStream : s.rstate = .fetch ∨ s.rstate = .push → s.widx.toNat < 48
  /-- SCNT is 0 between items and 1..8 inside one (R27). -/
  scntRange : s.scnt.toNat ≤ 8 ∧ (s.scnt = 0#4 ↔ s.sstate = .idle)
  /-- OSR holds only pairs still to be driven, left-aligned (R27, R214). -/
  osrLeft : s.osr <<< (2 * pairsLeft s) = 0#16
  /-- CLK is high exactly between the two edges of a pulse (R216, R217, R236). -/
  clkLevel : s.pins.clk = 1#1 ↔ s.sstate = .clklo ∨ (s.pstate = .dim ∧ s.dsub = .clklo)
  /-- LAT is high exactly inside a pulse of the latcher or of the brightness sequence (R203, R204, R234). -/
  latLevel : s.pins.lat = if s.pstate = .dim then dimLatLevel s else if s.rstate = .latlo then 1#1 else 0#1
  /-- The panel is blanked from the blank step to the unblank step (R201, R205, R206). -/
  oeBlank : s.rstate = .setaddr ∨ s.rstate = .lathi ∨ s.rstate = .latlo ∨ s.rstate = .unblank → s.pins.oe = 1#1

/-- During a pass, the words already written are the encoding of PB (R148, R149). -/
def BlitProgress (s : State) : Prop :=
  s.pstate = .blit → ∀ k, k < s.ecur.toNat →
    Memory.read s.st k = encWord s.cfg s.pb (k / Config.NWORD) (k % Config.NWORD)

/-- Every word of ST is the encoding of PB (R149). -/
def TableEncodes (s : State) : Prop :=
  ∀ g i, g < Config.NGROUP → i < Config.NWORD → stRead s.st g i = some (encWord s.cfg s.pb g i)

/-- The pins are at the levels the trace drove them to, from their reset levels (R35, R43). -/
def PinsFollowTrace (s : State) : Prop := s.pins = s.trace.foldl Pins.after Pins.reset

/-! ### The address sequence (R175) -/

/-- The values of the (A, a) events of a trace, in order. -/
def addrEvents (tr : List PinEvent) : List (BitVec 2) :=
  tr.filterMap fun e => match e with | .a v => some v | _ => none

/-- `n` addresses from `a` on, each the one before plus 1 modulo 4. -/
def addrCycle (a : BitVec 2) (n : Nat) : List (BitVec 2) := (List.range n).map fun k => a + BitVec.ofNat 2 k

/-- The (A, a) events so far run through the addresses from ADDR_RESET + 1 on, none skipped and none repeated, and ADDR is
the address of the iteration in progress (R173, R175). -/
def AddrSequence (s : State) : Prop :=
  ∃ n, addrEvents s.trace = addrCycle (s.cfg.addrReset + 1#2) n ∧
    s.addr = s.cfg.addrReset + BitVec.ofNat 2 n +
      (if s.rstate = .fetch ∨ s.rstate = .push ∨ s.rstate = .blank ∨ s.rstate = .setaddr then 1#2 else 0#2)

/-! ### Traces the spec writes out -/

/-- Pair k of a 16-bit value, bits [15−2k : 14−2k] (R16). -/
def pairOf (v : BitVec 16) (k : Nat) : BitVec 2 := v.extractLsb' (14 - 2 * k) 2

/-- One pair on the wire: the data, then the clock pulse. -/
def pulseEvents (d : BitVec 2) : List PinEvent := [.data d, .clk 1#1, .clk 0#1]

/-- The 24 events of one item with low half `v` (R217). -/
def itemEvents (v : BitVec 16) : List PinEvent := (List.range 8).flatMap fun k => pulseEvents (pairOf v k)

/-- The events of the bits `lo` to `hi − 1` of a brightness repetition: the same bit on both lanes (R235, R237). -/
def dimBitEvents (f : BitVec 16) (lo hi : Nat) : List PinEvent :=
  (List.range' lo (hi - lo)).flatMap fun b =>
    pulseEvents (f.extractLsb' (15 - b) 1 ++ f.extractLsb' (15 - b) 1)

/-- One repetition of the brightness sequence with the latch at bit index `l` (R237): 50 events. -/
def dimRepEvents (l : Nat) (f : BitVec 16) : List PinEvent :=
  dimBitEvents f 0 l ++ [.lat 1#1] ++ dimBitEvents f l 16 ++ [.lat 0#1]

/-- The whole trace of one accepted DIM (R237): 24 repetitions. -/
def dimEvents (l : Nat) (f : BitVec 16) : List PinEvent := (List.replicate 24 (dimRepEvents l f)).flatten

/-- The pin events of agent R in one iteration for address `a` (R174). -/
def latchEvents (a : BitVec 2) : List PinEvent := [.oe 1#1, .a a, .lat 1#1, .lat 0#1, .oe 0#1]

/-! ### Runs -/

/-- `n` steps of one agent alone, stopping at a fault or refusal. -/
def agentRun (a : Agent) : Nat → State → Host.Outcome State Fault Refusal
  | 0, s => .next s
  | n + 1, s =>
    match agentStep a s with
    | .next t => agentRun a n t
    | .fault r => .fault r
    | .refused r => .refused r

/-- The named agents step one after the other, each with an enabled step; none where one of them cannot. -/
def runAgents : List Agent → State → Option State
  | [], s => some s
  | a :: as, s =>
    if enabled s a then
      match agentStep a s with
      | .next t => runAgents as t
      | .fault _ | .refused _ => none
    else none

/-- An infinite run: each state answers the next (R286). -/
def IsRun (r : Nat → State) : Prop := ∀ n, step (r n) = .next (r (n + 1))

/-- Agent `a` takes the step of a state. -/
def Steps (a : Agent) (s : State) : Prop := ∃ t, selectAgent s = some (a, t)

/-- Weak fairness for an agent (R179): if from some point on it always has an enabled step, it takes one later. -/
def WeaklyFair (a : Agent) (r : Nat → State) : Prop :=
  ∀ n, (∀ m, n ≤ m → enabled (r m) a = true) → ∃ m, n ≤ m ∧ Steps a (r m)

/-- The primary context is done (R178 a); with an infinite command list it never is. -/
def PrimaryDone (s : State) : Prop := s.cmdsRest = none ∧ s.cp = s.cmds.length ∧ s.pstate = .idle

/-- An iteration boundary of agent R (R178 b). -/
def IterationBoundary (s : State) : Prop := s.rstate = .adv

/-- The block is quiet (R178 c). -/
def Quiet (s : State) : Prop := PrimaryDone s ∧ s.phase = .config

/-- TIMING_MARGIN at a state (R310): if agent R takes the blank step, every pushed word has been shifted out. -/
def TimingMargin (s : State) : Prop := s.rstate = .blank → Steps .R s → drained s = true

/-! ### Pin ownership (R36) -/

/-- A pin or pin group. -/
inductive PinName where
  | data | clk | lat | oe | a
deriving DecidableEq, Repr

/-- The pin of an event. -/
def PinEvent.name : PinEvent → PinName
  | .data _ => .data
  | .clk _ => .clk
  | .lat _ => .lat
  | .oe _ => .oe
  | .a _ => .a

/-- The pin the next step of an agent drives, if it drives one. -/
def nextPin (s : State) : Agent → Option PinName
  | .P =>
    match s.pstate with
    | .idle | .blit => none
    | .dim =>
      match s.dsub with
      | .lat => if s.dbit.toNat = s.cfg.latAssertBit then some .lat else none
      | .data => some .data
      | .clkhi | .clklo => some .clk
      | .latclr => some .lat
  | .R =>
    match s.rstate with
    | .blank | .unblank => some .oe
    | .setaddr => some .a
    | .lathi | .latlo => some .lat
    | .idle | .adv | .fetch | .push => none
  | .S =>
    match s.sstate with
    | .idle => none
    | .drive => some .data
    | .clkhi | .clklo => some .clk

end Sys2Proof.Machine
end

