-- ==== Sys2Proof/Certificates/Slice0/Obligations.lean ====
section
/-! DEFINITION. The statements about the block for the provers. A frame is written as an equation: the next state with the
named fields put back is the state before, so every other field is unchanged. -/

open Sys2Proof Sys2Proof.Machine

/-! ### Encoding -/

/-- Decoding the word of a well-formed command gives the command back, with every operand (R95 to R98, R107). -/
def Obligations.DecodeOfEncode : Prop := ∀ i : Instr, i.wf = true → decode (encode i) = .ok i

/-- A word that decodes is the word of the command it decodes to, and that command is well-formed (R101, R107): no bit of
a legal word is ignored. -/
def Obligations.EncodeOfDecode : Prop := ∀ (w : Word) (i : Instr), decode w = .ok i → encode i = w ∧ i.wf = true

/-- The opcode map (R100, R107): the rows are disjoint, a word that a row selects with its extra condition is that command
with the fields of its format, and every word that no row selects so is illegal. -/
def Obligations.OpcodeMapDecides : Prop :=
  (∀ w : Word, ∀ r ∈ opRows, ∀ q ∈ opRows, r.selects w = true → q.selects w = true → r = q) ∧
  (∀ (w : Word) (i : Instr), decode w = .ok i → ∃ r ∈ opRows, r.selects w = true ∧
    (r = rowPSET ∨ r = rowPGET ∨ r = rowPCLR → chOf w ≠ 3#2) ∧ (r = rowSTRD → (iOf w).toNat < 48)) ∧
  ∀ w : Word,
    (w &&& 0xF1000000#32 = 0x10000000#32 ∧ chOf w ≠ 3#2 ↔
      ∃ ch, ch.code = chOf w ∧ decode w = .ok (.pset ch (xOf w) (yOf w) (bOf w))) ∧
    (w &&& 0xF3000000#32 = 0x20000000#32 ∧ chOf w ≠ 3#2 ↔
      ∃ ch, ch.code = chOf w ∧ decode w = .ok (.pget ch (xOf w) (yOf w))) ∧
    (w &&& 0xF3FFFFFF#32 = 0x30000000#32 ∧ chOf w ≠ 3#2 ↔
      ∃ ch, ch.code = chOf w ∧ decode w = .ok (.pclr ch)) ∧
    (w &&& 0xFFFFFFFF#32 = 0x40000000#32 ↔ decode w = .ok .blit) ∧
    (w &&& 0xFFFFFF00#32 = 0x50000000#32 ∧ (iOf w).toNat < 48 ↔ decode w = .ok (.strd (gOf w) (iOf w))) ∧
    (w &&& 0xFFFFFF00#32 = 0x60000000#32 ↔ decode w = .ok (.dim (levelOf w))) ∧
    (w &&& 0xFFFFFFFF#32 = 0x70000000#32 ↔ decode w = .ok .start) ∧
    (w &&& 0xFFFFFFFF#32 = 0x80000000#32 ↔ decode w = .ok .stat)

/-- Exactly the words of R102 are illegal, and an illegal word sets ERR_CMD, changes nothing else but CP, and finishes in
one step (R102, R251). The must-be-zero fields are those of R101. -/
def Obligations.IllegalWordsDropped : Prop :=
  (∀ w : Word, (∃ e, decode w = .error e) ↔
    ((opcodeOf w).toNat = 0 ∨ 9 ≤ (opcodeOf w).toNat) ∨
    (opcodeOf w = 1#4 ∧ w.extractLsb' 24 1 ≠ 0#1) ∨
    (opcodeOf w = 2#4 ∧ w.extractLsb' 24 2 ≠ 0#2) ∨
    (opcodeOf w = 3#4 ∧ w.extractLsb' 0 26 ≠ 0#26) ∨
    ((opcodeOf w = 4#4 ∨ opcodeOf w = 7#4 ∨ opcodeOf w = 8#4) ∧ w.extractLsb' 0 28 ≠ 0#28) ∨
    ((opcodeOf w = 5#4 ∨ opcodeOf w = 6#4) ∧ w.extractLsb' 8 20 ≠ 0#20) ∨
    ((opcodeOf w = 1#4 ∨ opcodeOf w = 2#4 ∨ opcodeOf w = 3#4) ∧ chOf w = 3#2) ∨
    (opcodeOf w = 5#4 ∧ 48 ≤ (iOf w).toNat)) ∧
  ∀ (w : Word) (e : DecodeError) (s : State), decode w = .error e →
    runWord w s = .next { s with
      flags := { errCmd := 1#1, errLevel := s.flags.errLevel, errPhase := s.flags.errPhase }
      cp := s.cp + 1 }

/-- The word formulas of R105 give the encoder's words. -/
def Obligations.AssemblyFormulasGiveWords : Prop :=
  (∀ (ch : Channel) (x y : BitVec 12) (b : Bit), encode (.pset ch x y b) =
    0x10000000#32 ||| (zext32 ch.code <<< 26) ||| (zext32 b <<< 25) ||| (zext32 x <<< 12) ||| zext32 y) ∧
  (∀ (ch : Channel) (x y : BitVec 12), encode (.pget ch x y) =
    0x20000000#32 ||| (zext32 ch.code <<< 26) ||| (zext32 x <<< 12) ||| zext32 y) ∧
  (∀ ch : Channel, encode (.pclr ch) = 0x30000000#32 ||| (zext32 ch.code <<< 26)) ∧
  encode .blit = 0x40000000#32 ∧
  (∀ (g : BitVec 2) (i : BitVec 6), encode (.strd g i) = 0x50000000#32 ||| (zext32 g <<< 6) ||| zext32 i) ∧
  (∀ l : BitVec 8, encode (.dim l) = 0x60000000#32 ||| zext32 l) ∧
  encode .start = 0x70000000#32 ∧ encode .stat = 0x80000000#32

/-- Some words of the spec's vectors decode to the commands they stand for. -/
def Obligations.KnownWordsDecode : Prop :=
  decode 0x1A02A00B#32 = .ok (.pset .red 42#12 11#12 1#1) ∧
  decode 0x16FFF005#32 = .ok (.pset .green (-1) 5#12 1#1) ∧
  decode 0x2400D006#32 = .ok (.pget .green 13#12 6#12) ∧
  decode 0x34000000#32 = .ok (.pclr .green) ∧
  decode 0x40000000#32 = .ok .blit ∧
  decode 0x50000089#32 = .ok (.strd 2#2 9#6) ∧
  decode 0x60000025#32 = .ok (.dim 37#8) ∧
  decode 0x70000000#32 = .ok .start ∧
  decode 0x80000000#32 = .ok .stat

/-! ### The step -/

/-- Where agent P is selected between commands, the step is the meaning of the decoded command at CP, in the same state or
with one scheduling choice counted; an illegal word is dropped there. With agents R and S not enabled, agent P is
selected and no choice is counted.
How the schedule picks the agent is the model's choice, log entry 3. -/
def Obligations.StepRunsDecodedCommand : Prop :=
  ∀ (s : State) (w : Word), paramsOk s.cfg = true → s.pstate = .idle → commandAt s s.cp = some w →
    (∀ t, selectAgent s = some (.P, t) →
      (t = s ∨ t = choiceMade s) ∧
      (∀ i, decode w = .ok i → step s = exec i t) ∧
      (∀ e, decode w = .error e → step s = .next (illegalWord t))) ∧
    (rEnabled s = false → sEnabled s = false → selectAgent s = some (.P, s))

/-- A step of the block is one step of one enabled agent, and any enabled agent may be chosen: some written-out schedule
selects it (R286). The choice moves nothing but the schedule's own fields.
That the schedule stands in State is the model's choice, log entry 3, and that the block waits in place log entry 5. -/
def Obligations.AnyEnabledAgentMayStep : Prop :=
  (∀ s t : State, step s = .next t →
    ((∀ a, enabled s a = false) ∧ t = s) ∨
    ∃ a u, enabled s a = true ∧ (u = s ∨ u = choiceMade s) ∧ agentStep a u = .next t) ∧
  ∀ (s : State) (a : Agent), paramsOk s.cfg = true → enabled s a = true →
    ∃ q u, (u = { s with sched := q } ∨ u = choiceMade { s with sched := q }) ∧
      step { s with sched := q } = agentStep a u

/-- The invariant holds after reset, for every admitted setting of the parameters. -/
def Obligations.InvariantAtReset : Prop :=
  Inv State.reset ∧ ∀ c : Params, paramsOk c = true → Inv (State.resetFor c)

/-- Every step keeps the invariant. -/
def Obligations.InvariantKept : Prop := ∀ s t : State, Inv s → step s = .next t → Inv t

/-- The block has no fault: from every state of the invariant the step answers a next state (R279).
Waiting as a next state is the model's choice, log entry 5, and the fault ruled out here is that of log entry 8. -/
def Obligations.NeverFaultsNorRefuses : Prop := ∀ s : State, Inv s → ∃ t, step s = .next t

/-- The step is refused exactly where the parameters lie outside R10 (R279).
That the step is what refuses is the model's choice, log entry 6. -/
def Obligations.OnlyBadParametersRefused : Prop :=
  ∀ s : State, (∃ r, step s = .refused r) ↔
    s.cfg.fifoDepth = 0 ∨
    ¬ List.Perm [s.cfg.rowSel.first0, s.cfg.rowSel.second0, s.cfg.rowSel.first1, s.cfg.rowSel.second1] [0, 4, 8, 12] ∨
    15 < s.cfg.latAssertBit

/-- The reset state (R301, R46): every piece of the spec's state at its reset value, ADDR at ADDR_RESET, agent P the only
agent that a command could enable, and only where CMDS, finite or infinite, is not empty. -/
def Obligations.ResetValues : Prop :=
  ∀ c : Params, ∃ s, s = State.resetFor c ∧
    (∀ ch x y, pbRead s.pb ch x y = 0#1) ∧ (∀ g i, g < 4 → i < 48 → stRead s.st g i = some 0#16) ∧
    s.fifo = [] ∧ s.cp = 0 ∧ s.pstate = .idle ∧ s.ecur = 0#8 ∧ s.eacc = 0#16 ∧
    s.dlevel = 0#6 ∧ s.drep = 0#5 ∧ s.dbit = 0#5 ∧ s.dsub = .lat ∧
    s.addr = c.addrReset ∧ s.rstate = .idle ∧ s.widx = 0#6 ∧ s.muxhold = 0#16 ∧
    s.sstate = .idle ∧ s.osr = 0#16 ∧ s.scnt = 0#4 ∧ s.phase = .config ∧
    s.flags = { errCmd := 0#1, errLevel := 0#1, errPhase := 0#1 } ∧
    s.pins = { data := 0#2, clk := 0#1, lat := 0#1, oe := 1#1, a := 0#2 } ∧ s.trace = [] ∧ s.rsp = [] ∧
    status s = 0#32 ∧ rEnabled s = false ∧ sEnabled s = false ∧
    ∀ (ws : List Word) (r : Option Nat), pEnabled { s with cmds := ws, cmdsRest := r } = true ↔ ws ≠ [] ∨ r ≠ none

/-- Reset in any state gives the reset state of the machine's parameters and keeps what is the host's (R300, R302).
Reset as an operation beside the step is the model's choice, log entry 17. -/
def Obligations.ResetFromAnyState : Prop :=
  ∀ s : State, ∃ t, t = applyReset s ∧ t.phase = .config ∧ t.flags = Flags.reset ∧ t.rstate = .idle ∧ t.fifo = [] ∧
    t.pins.oe = 1#1 ∧ t.cmds = s.cmds ∧ t.cmdsRest = s.cmdsRest ∧ t.cfg = s.cfg ∧
    { t with cmds := [], cmdsRest := none, sched := [], tick := 0 } = State.resetFor s.cfg ∧ (paramsOk s.cfg = true → Inv t)

/-! ### Pixel buffer commands -/

/-- PSET (R122): in range the one pixel takes the bit, out of range PB is unchanged; nothing else but CP changes. -/
def Obligations.PsetWritesOnePixel : Prop :=
  ∀ (ch : Channel) (x y : BitVec 12) (b : Bit) (s : State), Memory.wf s.pb →
    ∃ t, exec (.pset ch x y b) s = .next t ∧ t.cp = s.cp + 1 ∧ { t with pb := s.pb, cp := s.cp } = s ∧
      (¬ (0 ≤ x.toInt ∧ x.toInt < 64 ∧ 0 ≤ y.toInt ∧ y.toInt < 16) → t.pb = s.pb) ∧
      (∀ k, k ≠ pixelKey (chanIndex ch) x.toInt.toNat y.toInt.toNat → Memory.read t.pb k = Memory.read s.pb k) ∧
      ∀ (c : Channel) (X Y : Nat), X < 64 → Y < 16 →
        pbRead t.pb (chanIndex c) X Y =
          if c = ch ∧ (X : Int) = x.toInt ∧ (Y : Int) = y.toInt then b else pbRead s.pb (chanIndex c) X Y

/-- PGET (R123): exactly one response, the pixel in range and 0 out of range; nothing else but CP changes. -/
def Obligations.PgetRespondsPixel : Prop :=
  ∀ (ch : Channel) (x y : BitVec 12) (s : State),
    exec (.pget ch x y) s = .next { s with
      cp := s.cp + 1
      rsp := s.rsp ++ [
        if 0 ≤ x.toInt ∧ x.toInt < 64 ∧ 0 ≤ y.toInt ∧ y.toInt < 16 then
          (pbRead s.pb (chanIndex ch) x.toInt.toNat y.toInt.toNat).setWidth 32
        else 0#32] }

/-- PCLR (R124): the 1024 pixels of the channel become 0, every other pixel stays; nothing else but CP changes. -/
def Obligations.PclrClearsOnePlane : Prop :=
  ∀ (ch : Channel) (s : State), ∃ t, exec (.pclr ch) s = .next t ∧ t.cp = s.cp + 1 ∧
    { t with pb := s.pb, cp := s.cp } = s ∧
    ∀ (c : Channel) (X Y : Nat), X < 64 → Y < 16 →
      pbRead t.pb (chanIndex c) X Y = if c = ch then 0#1 else pbRead s.pb (chanIndex c) X Y

/-- The laws of the pixel family (R125 a to e). -/
def Obligations.PixelFamilyLaws : Prop :=
  ∀ s : State, Memory.wf s.pb →
    (∀ (ch : Channel) (x y : BitVec 12) (b : Bit), inrange x.toInt y.toInt = true →
      ∃ t u, exec (.pset ch x y b) s = .next t ∧ exec (.pget ch x y) t = .next u ∧
        u.rsp = s.rsp ++ [b.setWidth 32]) ∧
    (∀ (ch c : Channel) (x y x' y' : BitVec 12) (b : Bit), (c, x', y') ≠ (ch, x, y) →
      ∃ t u v, exec (.pset ch x y b) s = .next t ∧ exec (.pget c x' y') t = .next u ∧
        exec (.pget c x' y') s = .next v ∧ u.rsp = v.rsp) ∧
    (∀ (ch : Channel) (x y : BitVec 12), ∃ t u, exec (.pclr ch) s = .next t ∧ exec (.pget ch x y) t = .next u ∧
      u.rsp = s.rsp ++ [0#32]) ∧
    (∀ (i : Instr) (t : State),
      ((∃ ch x y b, i = .pset ch x y b) ∨ (∃ ch x y, i = .pget ch x y) ∨ (∃ ch, i = .pclr ch)) →
      exec i s = .next t →
        t.flags = s.flags ∧ { t with pb := s.pb, rsp := s.rsp, cp := s.cp } = s)

/-! ### Encoder -/

/-- EncWord with all parameters at their defaults, bit by bit, with every index in range; an all-zero PB gives 0x0000 and
an all-one channel 0xFFFF in its words (R145). -/
def Obligations.EncWordDefaultBits : Prop :=
  ∀ (d : Nat) (pb : Memory 1) (g i : Nat), g < 4 → i < 48 →
    (∀ k, k < 8 →
      (encWord (Params.default d) pb g i).getLsbD (15 - 2 * k) =
        (pbRead pb (i % 6 / 2) (8 * (i / 6) + k) (g + 4 * (i % 2))).getLsbD 0 ∧
      (encWord (Params.default d) pb g i).getLsbD (14 - 2 * k) =
        (pbRead pb (i % 6 / 2) (8 * (i / 6) + k) (g + 8 + 4 * (i % 2))).getLsbD 0 ∧
      8 * (i / 6) + k ≤ 63 ∧ g + 8 + 4 * (i % 2) ≤ 15 ∧ i % 6 / 2 ≤ 2) ∧
    ((∀ x y, x < 64 → y < 16 → pbRead pb (i % 6 / 2) x y = 0#1) → encWord (Params.default d) pb g i = 0x0000#16) ∧
    ((∀ x y, x < 64 → y < 16 → pbRead pb (i % 6 / 2) x y = 1#1) → encWord (Params.default d) pb g i = 0xFFFF#16)

/-- EncWord with any admitted parameters, pair by pair, with every index in range; an all-zero PB gives 0x0000 and an
all-one channel 0xFFFF in its words (R145). -/
def Obligations.EncWordGeneralPairs : Prop :=
  ∀ (c : Params) (pb : Memory 1) (g i : Nat), paramsOk c = true → g < 4 → i < 48 →
    (∀ k, k < 8 →
      let x := 8 * (if c.colbyteReverse then 7 - i / 6 else i / 6) + (if c.colReverse then 7 - k else k)
      let y1 := g + if i % 2 = 0 then c.rowSel.first0 else c.rowSel.first1
      let y2 := g + if i % 2 = 0 then c.rowSel.second0 else c.rowSel.second1
      let b1 := pbRead pb (i % 6 / 2) x y1
      let b2 := pbRead pb (i % 6 / 2) x y2
      (encWord c pb g i).getLsbD (15 - 2 * k) = (if c.slotSwap then b2 else b1).getLsbD 0 ∧
      (encWord c pb g i).getLsbD (14 - 2 * k) = (if c.slotSwap then b1 else b2).getLsbD 0 ∧
      x ≤ 63 ∧ y1 ≤ 15 ∧ y2 ≤ 15 ∧ i % 6 / 2 ≤ 2) ∧
    ((∀ x y, x < 64 → y < 16 → pbRead pb (i % 6 / 2) x y = 0#1) → encWord c pb g i = 0x0000#16) ∧
    ((∀ x y, x < 64 → y < 16 → pbRead pb (i % 6 / 2) x y = 1#1) → encWord c pb g i = 0xFFFF#16)

/-- The inverse map with default parameters (R146): in a table that encodes PB each pixel is at exactly one bit of ST, and
the map from pixels to bits is a bijection onto the 4 × 48 × 16 bits. -/
def Obligations.PixelAtOneBitOfTable : Prop :=
  (∀ (d : Nat) (pb : Memory 1) (ch x y : Nat), ch < 3 → x < 64 → y < 16 →
    (encWord (Params.default d) pb (y % 4) (6 * (x / 8) + 2 * ch + y / 4 % 2)).getLsbD
      (15 - 2 * (x % 8) - y / 4 / 2) = (pbRead pb ch x y).getLsbD 0) ∧
  (∀ g i bit, g < 4 → i < 48 → bit < 16 →
    ∃! p : Nat × Nat × Nat, (p.1 < 3 ∧ p.2.1 < 64 ∧ p.2.2 < 16) ∧
      g = p.2.2 % 4 ∧ i = 6 * (p.2.1 / 8) + 2 * p.1 + p.2.2 / 4 % 2 ∧ bit = 15 - 2 * (p.2.1 % 8) - p.2.2 / 4 / 2) ∧
  (∀ ch x y, ch < 3 → x < 64 → y < 16 →
    y % 4 < 4 ∧ 6 * (x / 8) + 2 * ch + y / 4 % 2 < 48 ∧ 15 - 2 * (x % 8) - y / 4 / 2 < 16)

/-- Channel order (R152): words with i mod 6 in 0, 1 are blue, 2, 3 green, 4, 5 red, and a word depends on no channel but
its own; with only blue pixels set the green and red words are zero. For every admitted parameter setting. -/
def Obligations.WordDependsOnOwnChannel : Prop :=
  ∀ (c : Params) (g i : Nat), paramsOk c = true → g < 4 → i < 48 →
    (∀ (ch : Channel) (pb pb' : Memory 1), chanIndex ch = i % 6 / 2 →
      (∀ x y, x < 64 → y < 16 → pbRead pb (chanIndex ch) x y = pbRead pb' (chanIndex ch) x y) →
      encWord c pb g i = encWord c pb' g i) ∧
    (∀ pb : Memory 1,
      (∀ ch x y, ch ≠ .blue → x < 64 → y < 16 → pbRead pb (chanIndex ch) x y = 0#1) →
      2 ≤ i % 6 → encWord c pb g i = 0#16)

/-- BLIT's first step (R147): the cursor starts, PSTATE is P_BLIT, and word 0 of group 0 is written in the same step.
EACC and ECUR in the first step follow log entry 11. -/
def Obligations.BlitTakesFirstWordStep : Prop :=
  ∀ s : State, Memory.wf s.st →
    ∃ t, exec .blit s = .next t ∧ t.pstate = .blit ∧ t.ecur = 1#8 ∧ t.eacc = encWord s.cfg s.pb 0 0 ∧
      { t with pstate := s.pstate, ecur := s.ecur, eacc := s.eacc, st := s.st } = s ∧
      (∀ k, Memory.read t.st k = if k = 0 then encWord s.cfg s.pb 0 0 else Memory.read s.st k)

/-- The BLIT word step (R148): one word of ST is written, the cursor advances, and after word 191 the pass ends and CP
advances; nothing else changes. -/
def Obligations.BlitWordStep : Prop :=
  ∀ s : State, s.pstate = .blit → s.ecur.toNat < 192 → Memory.wf s.st →
    ∃ t, commandStep s = .next t ∧ pEnabled s = true ∧
      t.eacc = encWord s.cfg s.pb (s.ecur.toNat / 48) (s.ecur.toNat % 48) ∧
      t.ecur.toNat = s.ecur.toNat + 1 ∧
      (∀ g i, g < 4 → i < 48 → stRead t.st g i =
        if g = s.ecur.toNat / 48 ∧ i = s.ecur.toNat % 48 then some t.eacc else stRead s.st g i) ∧
      (∀ k, Memory.read t.st k = if k = s.ecur.toNat then t.eacc else Memory.read s.st k) ∧
      (s.ecur.toNat = 191 → t.pstate = .idle ∧ t.cp = s.cp + 1) ∧
      (s.ecur.toNat < 191 → t.pstate = .blit ∧ t.cp = s.cp) ∧
      { t with eacc := s.eacc, ecur := s.ecur, st := s.st, pstate := s.pstate, cp := s.cp } = s

/-- During a pass the words already written are the encoding of PB, whatever agents R and S do meanwhile (R148, R149). -/
def Obligations.BlitProgressKept : Prop :=
  ∀ s t : State, Inv s → BlitProgress s → step s = .next t → BlitProgress t

/-- The step that ends a pass leaves every word of ST the encoding of PB, and PB as it was during the pass (R149). -/
def Obligations.BlitEndsWithTableEncoded : Prop :=
  ∀ s t : State, Inv s → BlitProgress s → s.pstate = .blit → step s = .next t → t.pstate = .idle →
    TableEncodes t ∧ t.pb = s.pb ∧ t.cp = s.cp + 1

/-- A BLIT command run by agent P alone takes 192 steps, writes the encoding of PB to all 192 words whatever ST held, and
changes nothing else but the cursor and CP (R147, R149). The count of 192 steps follows log entry
11. -/
def Obligations.BlitRunEncodesWholeTable : Prop :=
  ∀ (s : State) (w : Word), s.pstate = .idle → commandAt s s.cp = some w → decode w = .ok .blit → Memory.wf s.st →
    ∃ t, agentRun .P 192 s = .next t ∧ TableEncodes t ∧ t.pstate = .idle ∧ t.cp = s.cp + 1 ∧
      { t with st := s.st, ecur := s.ecur, eacc := s.eacc, cp := s.cp } = s ∧
      ∀ k, 192 ≤ k → Memory.read t.st k = Memory.read s.st k

/-- Idempotence (R151): a second BLIT of the same PB leaves the same 192 words and the same byte image of ST. -/
def Obligations.SecondBlitChangesNothing : Prop :=
  ∀ (s t u : State) (w w' : Word), s.pstate = .idle → Memory.wf s.st →
    commandAt s s.cp = some w → decode w = .ok .blit → commandAt s (s.cp + 1) = some w' → decode w' = .ok .blit →
    agentRun .P 192 s = .next t → agentRun .P 192 t = .next u →
      u.pb = s.pb ∧ u.st = t.st ∧ stByteImage u.st = stByteImage t.st

/-- STRD (R154): one response, the scan word extended with zeros; an index of 48 or more is dropped as an illegal command
(R66), which no word can ask for: that clause is the model's reading, log entry 9. -/
def Obligations.StrdRespondsScanWord : Prop :=
  ∀ (g : BitVec 2) (i : BitVec 6) (s : State),
    (i.toNat < 48 → exec (.strd g i) s = .next { s with
      cp := s.cp + 1
      rsp := s.rsp ++ [(Memory.read s.st (g.toNat * 48 + i.toNat)).setWidth 32] }) ∧
    (48 ≤ i.toNat → exec (.strd g i) s = .next { s with
      cp := s.cp + 1
      flags := { errCmd := 1#1, errLevel := s.flags.errLevel, errPhase := s.flags.errPhase } })

/-! ### Brightness -/

/-- DIM rejected (R238, R239): in ACTIVE it drives nothing, sets ERR_PHASE and finishes; in CONFIG with a level of 64 to
255 it drives nothing, sets ERR_LEVEL and finishes, with no clamp and no truncation. -/
def Obligations.DimRejections : Prop :=
  ∀ (l : BitVec 8) (s : State),
    (s.phase = .active → exec (.dim l) s = .next { s with
      cp := s.cp + 1
      flags := { errCmd := s.flags.errCmd, errLevel := s.flags.errLevel, errPhase := 1#1 } }) ∧
    (s.phase = .config → 64 ≤ l.toNat → exec (.dim l) s = .next { s with
      cp := s.cp + 1
      flags := { errCmd := s.flags.errCmd, errLevel := 1#1, errPhase := s.flags.errPhase } })

/-- DIM accepted (R231): in CONFIG with a level of at most 63 the level is captured and the sequence begins; nothing else
changes, CP included.
The decode step as a step of its own follows log entry 10. -/
def Obligations.DimAccepted : Prop :=
  ∀ (l : BitVec 8) (s : State), s.phase = .config → l.toNat ≤ 63 →
    ∃ t, exec (.dim l) s = .next t ∧ t.dlevel.toNat = l.toNat ∧ t.drep = 0#5 ∧ t.dbit = 0#5 ∧ t.dsub = .lat ∧
      t.pstate = .dim ∧
      { t with dlevel := s.dlevel, drep := s.drep, dbit := s.dbit, dsub := s.dsub, pstate := s.pstate } = s

/-- The frame (R232): preamble then level, 0x7140 OR level; index b of the transmission carries bit 15 − b, the preamble
at indices 0 to 9 as written and the level from its most significant bit at 10 to its least at 15. -/
def Obligations.FrameBitsInOrder : Prop :=
  ∀ l : BitVec 6, dimFrame l = 0x7140#16 ||| l.setWidth 16 ∧
    (List.range 10).map (dimBit l) = [0#1, 1#1, 1#1, 1#1, 0#1, 0#1, 0#1, 1#1, 0#1, 1#1] ∧
    (∀ j, j < 6 → dimBit l (10 + j) = l.extractLsb' (5 - j) 1) ∧
    (∀ b, b < 16 → dimBit l b = (dimFrame l).extractLsb' (15 - b) 1)

/-- The whole trace of one accepted DIM (R237): the decode step and the 24 · 65 sub-steps of agent P append exactly the
1200 events, leave CLK and LAT at 0 and the lanes at the last level bit, do not drive OE or A, and advance CP by one.
The count of steps rests on the model's choice to take the sequence sub-step by sub-step, log entry 10. -/
def Obligations.DimRunMakesWholeTrace : Prop :=
  ∀ (s : State) (w : Word) (l : BitVec 8), s.cfg.latAssertBit ≤ 15 → s.phase = .config → s.pstate = .idle →
    commandAt s s.cp = some w → decode w = .ok (.dim l) → l.toNat ≤ 63 →
    ∃ t, agentRun .P 1561 s = .next t ∧
      t.trace = s.trace ++ dimEvents s.cfg.latAssertBit (dimFrame (l.extractLsb' 0 6)) ∧
      (dimEvents s.cfg.latAssertBit (dimFrame (l.extractLsb' 0 6))).length = 1200 ∧
      t.pins = { data := l.extractLsb' 0 1 ++ l.extractLsb' 0 1, clk := 0#1, lat := 0#1,
                 oe := s.pins.oe, a := s.pins.a } ∧
      t.pstate = .idle ∧ t.cp = s.cp + 1 ∧ t.dlevel = l.extractLsb' 0 6 ∧
      { t with trace := s.trace, pins := s.pins, cp := s.cp, dlevel := s.dlevel, drep := s.drep, dbit := s.dbit,
               dsub := s.dsub } = s

/-! ### START, STAT, flags and the laws of all commands -/

/-- START (R171): in CONFIG the phase becomes ACTIVE and agent R starts at R_ADV, nothing else but CP changes; in ACTIVE
it sets ERR_PHASE and changes nothing else but CP. -/
def Obligations.StartEntersActive : Prop :=
  ∀ s : State,
    (s.phase = .config → exec .start s = .next { s with phase := .active, rstate := .adv, cp := s.cp + 1 }) ∧
    (s.phase = .active → exec .start s = .next { s with
      cp := s.cp + 1
      flags := { errCmd := s.flags.errCmd, errLevel := s.flags.errLevel, errPhase := 1#1 } })

/-- STAT (R250, R33): one response with PHASE at bit 0, ERR_CMD at 1, ERR_LEVEL at 2, ERR_PHASE at 3 and zeros above;
nothing else but CP changes, no flag is cleared. -/
def Obligations.StatRespondsStatus : Prop :=
  ∀ s : State, ∃ v : Word, exec .stat s = .next { s with cp := s.cp + 1, rsp := s.rsp ++ [v] } ∧
    v.extractLsb' 0 1 = (if s.phase = .active then 1#1 else 0#1) ∧ v.extractLsb' 1 1 = s.flags.errCmd ∧
    v.extractLsb' 2 1 = s.flags.errLevel ∧ v.extractLsb' 3 1 = s.flags.errPhase ∧ v.extractLsb' 4 28 = 0#28

/-- One command sets at most one flag, by the order encoding, phase, operand (R277). -/
def Obligations.OneFlagInOrder : Prop :=
  ∀ (w : Word) (s t : State), runWord w s = .next t →
    t.flags =
      match decode w with
      | .error _ => { errCmd := 1#1, errLevel := s.flags.errLevel, errPhase := s.flags.errPhase }
      | .ok (.dim l) =>
        if s.phase = .active then { errCmd := s.flags.errCmd, errLevel := s.flags.errLevel, errPhase := 1#1 }
        else if 63 < l.toNat then { errCmd := s.flags.errCmd, errLevel := 1#1, errPhase := s.flags.errPhase }
        else s.flags
      | .ok .start =>
        if s.phase = .active then { errCmd := s.flags.errCmd, errLevel := s.flags.errLevel, errPhase := 1#1 }
        else s.flags
      | .ok (.strd _ i) =>
        if 48 ≤ i.toNat then { errCmd := 1#1, errLevel := s.flags.errLevel, errPhase := s.flags.errPhase }
        else s.flags
      | .ok _ => s.flags

/-- Nothing but reset clears a flag, leaves ACTIVE or stops agent R (R32, R176, R281). -/
def Obligations.FlagsPhaseAndLoopStay : Prop :=
  ∀ s t : State, step s = .next t →
    (s.flags.errCmd = 1#1 → t.flags.errCmd = 1#1) ∧ (s.flags.errLevel = 1#1 → t.flags.errLevel = 1#1) ∧
    (s.flags.errPhase = 1#1 → t.flags.errPhase = 1#1) ∧ (s.phase = .active → t.phase = .active) ∧
    (s.rstate ≠ .idle → t.rstate ≠ .idle)

/-- CP only ever advances by one, the command list and the parameters never change (R24, R90).
List and parameters as fields of State are the model's choice, log entries 1 and 2. -/
def Obligations.CommandPointerAdvancesByOne : Prop :=
  ∀ s t : State, step s = .next t →
    (t.cp = s.cp ∨ t.cp = s.cp + 1) ∧ t.cmds = s.cmds ∧ t.cmdsRest = s.cmdsRest ∧ t.cfg = s.cfg

/-- PGET, STRD and STAT, when legal, append exactly one response in the step in which they finish; no other command, no
illegal word and no other step responds (R92). -/
def Obligations.ResponsesOnlyFromReads : Prop :=
  (∀ (w : Word) (s t : State), runWord w s = .next t →
    (((∃ ch x y, decode w = .ok (.pget ch x y)) ∨ (∃ g i, decode w = .ok (.strd g i)) ∨ decode w = .ok .stat) →
      (∃ v, t.rsp = s.rsp ++ [v]) ∧ t.cp = s.cp + 1) ∧
    (¬ ((∃ ch x y, decode w = .ok (.pget ch x y)) ∨ (∃ g i, decode w = .ok (.strd g i)) ∨ decode w = .ok .stat) →
      t.rsp = s.rsp)) ∧
  (∀ s t : State, s.pstate ≠ .idle → commandStep s = .next t → t.rsp = s.rsp) ∧
  (∀ s t : State, refreshStep s = .next t → t.rsp = s.rsp) ∧ ∀ s : State, (serializerStep s).rsp = s.rsp

/-- FIFO is a plain queue (R69, R192, R212): a step leaves it, appends one item at the tail while there is room, or
removes the head; nothing is lost, duplicated or reordered. -/
def Obligations.FifoIsPlainQueue : Prop :=
  ∀ s t : State, step s = .next t →
    t.fifo = s.fifo ∨
    (s.rstate = .push ∧ s.fifo.length < s.cfg.fifoDepth ∧ t.fifo = s.fifo ++ [s.muxhold.setWidth 32]) ∨
    (s.sstate = .idle ∧ s.phase = .active ∧ ∃ item, s.fifo = item :: t.fifo ∧ t.osr = item.extractLsb' 0 16)

/-- Each agent's step changes only what the agent owns (R285, R287): agent R its registers, the queue, OE, A, LAT; agent S
its registers, the queue, DATA, CLK; agent P neither agent's registers, but for the start of R, nor the queue, nor OE
and A. -/
def Obligations.AgentsChangeOnlyTheirOwn : Prop :=
  (∀ s t : State, refreshStep s = .next t →
    { t with addr := s.addr, rstate := s.rstate, widx := s.widx, muxhold := s.muxhold, fifo := s.fifo,
             pins := s.pins, trace := s.trace } = s ∧
    t.pins.data = s.pins.data ∧ t.pins.clk = s.pins.clk) ∧
  (∀ s : State,
    { serializerStep s with sstate := s.sstate, osr := s.osr, scnt := s.scnt, fifo := s.fifo, pins := s.pins,
                            trace := s.trace } = s ∧
    (serializerStep s).pins.lat = s.pins.lat ∧ (serializerStep s).pins.oe = s.pins.oe ∧
    (serializerStep s).pins.a = s.pins.a) ∧
  (∀ s t : State, commandStep s = .next t →
    t.addr = s.addr ∧ t.widx = s.widx ∧ t.muxhold = s.muxhold ∧ t.sstate = s.sstate ∧ t.osr = s.osr ∧
    t.scnt = s.scnt ∧ t.fifo = s.fifo ∧ t.pins.oe = s.pins.oe ∧ t.pins.a = s.pins.a ∧
    (t.rstate ≠ s.rstate → s.phase = .config ∧ t.phase = .active ∧ t.rstate = .adv) ∧
    (s.pstate ≠ .dim → t.pins = s.pins ∧ t.trace = s.trace))

/-! ### Refresh -/

/-- The state machine of agent R (R172): guard, action and next state of every RSTATE. -/
def Obligations.RefreshStateTable : Prop :=
  ∀ s : State,
    (s.rstate = .idle → rEnabled s = false) ∧
    (s.rstate = .adv → rEnabled s = true ∧
      refreshStep s = .next { s with addr := BitVec.ofNat 2 ((s.addr.toNat + 1) % 4), widx := 0#6, rstate := .fetch }) ∧
    (s.rstate = .fetch → s.widx.toNat < 48 → rEnabled s = true ∧
      refreshStep s = .next { s with
        muxhold := Memory.read s.st (s.addr.toNat * 48 + s.widx.toNat), rstate := .push }) ∧
    (s.rstate = .push → (rEnabled s = true ↔ s.fifo.length < s.cfg.fifoDepth) ∧
      refreshStep s = .next { s with
        fifo := s.fifo ++ [s.muxhold.setWidth 32], widx := s.widx + 1#6
        rstate := if (s.widx + 1#6).toNat < 48 then .fetch else .blank }) ∧
    (s.rstate = .blank →
      (rEnabled s = true ↔ (s.cfg.drainWait = true → s.fifo = [] ∧ s.sstate = .idle)) ∧
      refreshStep s = .next { s with
        pins := { s.pins with oe := 1#1 }, trace := s.trace ++ [.oe 1#1], rstate := .setaddr }) ∧
    (s.rstate = .setaddr → rEnabled s = true ∧ refreshStep s = .next { s with
      pins := { s.pins with a := s.addr }, trace := s.trace ++ [.a s.addr], rstate := .lathi }) ∧
    (s.rstate = .lathi → rEnabled s = true ∧ refreshStep s = .next { s with
      pins := { s.pins with lat := 1#1 }, trace := s.trace ++ [.lat 1#1], rstate := .latlo }) ∧
    (s.rstate = .latlo → rEnabled s = true ∧ refreshStep s = .next { s with
      pins := { s.pins with lat := 0#1 }, trace := s.trace ++ [.lat 0#1], rstate := .unblank }) ∧
    (s.rstate = .unblank → rEnabled s = true ∧ refreshStep s = .next { s with
      pins := { s.pins with oe := 0#1 }, trace := s.trace ++ [.oe 0#1], rstate := .adv })

/-- One iteration of agent R alone, with room for the row-group and no drain wait (R170, R172, R174, R190, R194): 102
steps push the 48 words of group ADDR + 1 in order and make the five pin events with that address. -/
def Obligations.IterationStreamsOneRowGroup : Prop :=
  ∀ s : State, s.rstate = .adv → s.fifo.length + 48 ≤ s.cfg.fifoDepth → s.cfg.drainWait = false →
    ∃ t, agentRun .R 102 s = .next t ∧ t.rstate = .adv ∧ t.addr = s.addr + 1#2 ∧
      t.fifo = s.fifo ++ (List.range 48).map (fun i =>
        (Memory.read s.st ((s.addr + 1#2).toNat * 48 + i)).setWidth 32) ∧
      t.trace = s.trace ++ latchEvents (s.addr + 1#2) ∧
      t.pins = { s.pins with a := s.addr + 1#2, lat := 0#1, oe := 0#1 } ∧
      { t with addr := s.addr, widx := s.widx, muxhold := s.muxhold, fifo := s.fifo, trace := s.trace,
               pins := s.pins } = s

/-- The sequence of addresses on the A pins (R173, R175): every step keeps it, and it holds after reset. -/
def Obligations.AddressSequenceKept : Prop :=
  AddrSequence State.reset ∧ ∀ s t : State, AddrSequence s → Inv s → step s = .next t → AddrSequence t

/-- The latcher's invariants (R206): LAT is 0 whenever OE is 0, A changes only while OE is 1, and agent R raises and drops
LAT only while OE is 1. -/
def Obligations.LatchOnlyWhileBlanked : Prop :=
  ∀ s t : State, Inv s → step s = .next t →
    (t.pins.oe = 0#1 → t.pins.lat = 0#1) ∧
    (t.pins.a ≠ s.pins.a → s.pins.oe = 1#1 ∧ t.pins.oe = 1#1) ∧
    (t.pins.lat ≠ s.pins.lat → s.pins.oe = 1#1 ∧ t.pins.oe = 1#1)

/-- No step of agent P disables a step of agent R (R317). -/
def Obligations.CommandsNeverStopRefresh : Prop :=
  ∀ s t : State, rEnabled s = true → commandStep s = .next t → rEnabled t = true

/-- No deadlock (R278): in phase ACTIVE agent R or agent S has an enabled step. -/
def Obligations.ActiveNeverDeadlocks : Prop :=
  ∀ s : State, Inv s → s.phase = .active → rEnabled s = true ∨ sEnabled s = true

/-- A waiting push gets room (R278, R192, R217): from a state of the invariant in R_PUSH, while the other agents step in
any order, agent R or agent S can step, room once there stays until agent R takes it, and after 25 steps of agent S
there is room. -/
def Obligations.PushRoomWithin25 : Prop :=
  ∀ (s t : State) (as : List Agent), Inv s → s.rstate = .push → Agent.R ∉ as → runAgents as s = some t →
    t.rstate = .push ∧ (rEnabled t = true ∨ sEnabled t = true) ∧ (rEnabled s = true → rEnabled t = true) ∧
    (25 ≤ as.count .S → rEnabled t = true)

/-- The push never waits for ever (R278, R179): in a run from a state of the invariant, with agents R and S weakly fair,
agent R leaves R_PUSH.
Fairness is a premise, log entry 18. -/
def Obligations.PushWaitEnds : Prop :=
  ∀ r : Nat → State, IsRun r → Inv (r 0) → WeaklyFair .R r → WeaklyFair .S r →
    ∀ n, (r n).rstate = .push → ∃ m, n ≤ m ∧ (r m).rstate = .push ∧ Steps .R (r m) ∧
      (r (m + 1)).rstate ≠ .push

/-- With DRAIN_WAIT true the block enforces TIMING_MARGIN (R201, R310). -/
def Obligations.DrainWaitEnforcesMargin : Prop :=
  ∀ s : State, s.cfg.drainWait = true → TimingMargin s

/-! ### Serializer -/

/-- The steps of agent S and their guards (R212, R213, R215, R216). -/
def Obligations.SerializerStateTable : Prop :=
  ∀ s : State,
    (s.sstate = .idle → (sEnabled s = true ↔ s.phase = .active ∧ s.fifo ≠ []) ∧
      ∀ item rest, s.fifo = item :: rest → serializerStep s = { s with
        fifo := rest, osr := item.extractLsb' 0 16, scnt := 8#4, sstate := .drive }) ∧
    (s.sstate = .drive → sEnabled s = true ∧ serializerStep s = { s with
      pins := { s.pins with data := s.osr.extractLsb' 14 2 }, trace := s.trace ++ [.data (s.osr.extractLsb' 14 2)]
      osr := s.osr.extractLsb' 0 14 ++ 0#2, sstate := .clkhi }) ∧
    (s.sstate = .clkhi → sEnabled s = true ∧ serializerStep s = { s with
      pins := { s.pins with clk := 1#1 }, trace := s.trace ++ [.clk 1#1], sstate := .clklo }) ∧
    (s.sstate = .clklo → sEnabled s = true ∧ serializerStep s = { s with
      pins := { s.pins with clk := 0#1 }, trace := s.trace ++ [.clk 0#1], scnt := s.scnt - 1#4
      sstate := if s.scnt - 1#4 = 0#4 then .idle else .drive })

/-- One item (R217, R214): the pop and 24 more steps of agent S append the 24 events of the item's low half, pair by pair
from the most significant, and leave OSR and SCNT at 0, CLK at 0 and DATA at the last pair; nothing else changes. -/
def Obligations.ItemMakesItsTrace : Prop :=
  ∀ (s : State) (item : Word) (rest : List Word), s.sstate = .idle → s.fifo = item :: rest →
    ∃ t, agentRun .S 25 s = .next t ∧ t.trace = s.trace ++ itemEvents (item.extractLsb' 0 16) ∧
      (itemEvents (item.extractLsb' 0 16)).length = 24 ∧ t.fifo = rest ∧ t.sstate = .idle ∧ t.osr = 0#16 ∧
      t.scnt = 0#4 ∧ t.pins = { s.pins with data := item.extractLsb' 0 2, clk := 0#1 } ∧
      { t with trace := s.trace, fifo := s.fifo, osr := s.osr, scnt := s.scnt, pins := s.pins } = s

/-- The upper 16 bits of an item have no effect (R218): items that agree below give the same pop. -/
def Obligations.UpperHalfIgnored : Prop :=
  ∀ (s : State) (v v' : Word) (rest : List Word), v.extractLsb' 0 16 = v'.extractLsb' 0 16 → s.sstate = .idle →
    serializerStep { s with fifo := v :: rest } = serializerStep { s with fifo := v' :: rest }

/-- An item is finished in time (R278): in ACTIVE, agent S alone is idle again after at most 24 steps. -/
def Obligations.SerializerIdleWithin24 : Prop :=
  ∀ s : State, Inv s → ∃ n t, n ≤ 24 ∧ agentRun .S n s = .next t ∧ t.sstate = .idle ∧ t.fifo = s.fifo

/-! ### Pins -/

/-- Pin ownership is exclusive (R36): no two agents have an enabled step that drives the same pin, and a step drives at
most the pin it is said to drive, with one event. -/
def Obligations.PinOwnershipExclusive : Prop :=
  (∀ (s : State) (a b : Agent) (p : PinName), Inv s → a ≠ b → enabled s a = true → enabled s b = true →
    nextPin s a = some p → nextPin s b ≠ some p) ∧
  (∀ (s t : State) (a : Agent), enabled s a = true → agentStep a s = .next t →
    (nextPin s a = none → t.pins = s.pins ∧ t.trace = s.trace) ∧
    (∀ p, nextPin s a = some p → ∃ e, PinEvent.name e = p ∧ t.trace = s.trace ++ [e] ∧ t.pins = s.pins.after e))

/-- The pins are where the trace drove them (R35, R43): holds after reset and after every step. -/
def Obligations.PinsFollowTraceKept : Prop :=
  PinsFollowTrace State.reset ∧ ∀ s t : State, PinsFollowTrace s → step s = .next t → PinsFollowTrace t

/-- The quiet block (R178 c): with the primary context done in CONFIG no agent has an enabled step and the step changes
nothing.
Waiting as a next state is the model's choice, log entry 5. -/
def Obligations.QuietBlockStays : Prop :=
  ∀ s : State, Inv s → Quiet s → (∀ a, enabled s a = false) ∧ step s = .next s

/-! ### Observer -/

/-- The observer sees one accepted DIM as 24 configuration pulses with the frame on both lanes and 16 − LAT_ASSERT_BIT
clock edges each (R234, R265); the output latches do not change.
The observer's conventions that the spec leaves open are the model's, log entry 16. -/
def Obligations.ObserverSeesBrightnessFrames : Prop :=
  ∀ (o : Panel) (l : Nat) (f : BitVec 16), l ≤ 15 → o.pins.clk = 0#1 → o.pins.lat = 0#1 →
    (observe o (dimEvents l f)).pulses = o.pulses ++ List.replicate 24 { edges := 16 - l, lane1 := f, lane0 := f } ∧
    (observe o (dimEvents l f)).out = o.out

/-- The end-to-end statement (R266): when the 48 words of group `a` that encode PB are clocked out and then the group is
latched, the panel shows exactly PB's pixels of the rows of the group, whatever it held before.
The observer's conventions that the spec leaves open are the model's, log entry 16. -/
def Obligations.PanelShowsLatchedGroup : Prop :=
  ∀ (o : Panel) (d : Nat) (pb : Memory 1) (a : BitVec 2), o.pins.clk = 0#1 → o.pins.lat = 0#1 →
    ∃ q, q = observe o ((List.range 48).flatMap (fun i => itemEvents (encWord (Params.default d) pb a.toNat i)) ++
        latchEvents a) ∧
      ∀ ch x y, ch < 3 → x < 64 → y < 16 →
        q.lit ch x y = (decide (y % 4 = a.toNat) && (pbRead pb ch x y).getLsbD 0)

/-! ### The command list -/

/-- Between commands agent P waits exactly at the end of a finite command list; with an infinite list it always has an
enabled step, and the block is never quiet (R24, R90, R278). How State holds the list is the model's choice, log entry
2. -/
def Obligations.CommandListDecidesWaiting : Prop :=
  (∀ s : State, s.pstate = .idle → (pEnabled s = true ↔ s.cp < s.cmds.length ∨ s.cmdsRest ≠ none)) ∧
  ∀ s : State, Inv s → s.cmdsRest ≠ none → pEnabled s = true ∧ ¬ Quiet s
end

