-- ==== Sys2Proof/Laws/Config.lean ====
section
/-! SUPPORT. The values of the named constants of R8, for arithmetic. -/

namespace Sys2Proof.Config

@[simp] theorem W_eq : W = 64 := rfl
@[simp] theorem H_eq : H = 16 := rfl
@[simp] theorem NCH_eq : NCH = 3 := rfl
@[simp] theorem NGROUP_eq : NGROUP = 4 := rfl
@[simp] theorem NLANE_eq : NLANE = 2 := rfl
@[simp] theorem NCOLBYTE_eq : NCOLBYTE = 8 := rfl
@[simp] theorem NPAIR_eq : NPAIR = 8 := rfl
@[simp] theorem WORDW_eq : WORDW = 16 := rfl
@[simp] theorem ITEMW_eq : ITEMW = 32 := rfl
@[simp] theorem NWORD_eq : NWORD = 48 := rfl
@[simp] theorem NCHIP_eq : NCHIP = 24 := rfl
@[simp] theorem LEVELW_eq : LEVELW = 6 := rfl
@[simp] theorem FRAMEW_eq : FRAMEW = 16 := rfl

@[simp] theorem pixelBits_eq : pixelBits = 3072 := rfl
@[simp] theorem tableBits_eq : tableBits = 3072 := rfl
@[simp] theorem groupPulses_eq : groupPulses = 384 := rfl
@[simp] theorem CHAIN_eq : CHAIN = 384 := rfl

/-- The cross-check of R9 holds. -/
theorem literals_agree : LiteralsAgree := ⟨rfl, rfl, rfl, rfl, rfl⟩

/-- The chain is as long as one row-group has clock pulses, and as the driver chips' bits (R261, R9); a brightness frame
is the preamble and the level (R8). -/
theorem chain_agrees : CHAIN = NCHIP * FRAMEW ∧ CHAIN = groupPulses ∧ FRAMEW = 10 + LEVELW := ⟨rfl, rfl, rfl⟩

end Sys2Proof.Config
end

