-- ==== Sys2Proof/Laws/Decode.lean ====
section
/-! SUPPORT. The fields of a word built in one of the formats of R95, the word rebuilt from its fields, and the masks of
R100 on a built word. -/

namespace Sys2Proof

/-- The bits of a format P word, field by field. -/
def formatP (op : BitVec 4) (c : BitVec 2) (b z : Bit) (x y : BitVec 12) : Word := op ++ c ++ b ++ z ++ x ++ y

/-- The bits of a format N word. -/
def formatN (op : BitVec 4) (z : BitVec 28) : Word := op ++ z

/-- The bits of a format L word. -/
def formatL (op : BitVec 4) (z : BitVec 20) (l : BitVec 8) : Word := op ++ z ++ l

/-- The bits of a format T word. -/
def formatT (op : BitVec 4) (z : BitVec 20) (g : BitVec 2) (i : BitVec 6) : Word := op ++ z ++ g ++ i

/-! The bits of a built word. -/

theorem getLsbD_formatP (op : BitVec 4) (c : BitVec 2) (b z : Bit) (x y : BitVec 12) (k : Nat) :
    (formatP op c b z x y).getLsbD k =
      if k < 12 then y.getLsbD k
      else if k < 24 then x.getLsbD (k - 12)
      else if k < 25 then z.getLsbD (k - 24)
      else if k < 26 then b.getLsbD (k - 25)
      else if k < 28 then c.getLsbD (k - 26)
      else op.getLsbD (k - 28) := by
  show (op ++ c ++ b ++ z ++ x ++ y).getLsbD k = _
  simp only [BitVec.getLsbD_append]
  repeat' split
  all_goals first
    | rfl
    | (exfalso; omega)

theorem getLsbD_formatN (op : BitVec 4) (z : BitVec 28) (k : Nat) :
    (formatN op z).getLsbD k = if k < 28 then z.getLsbD k else op.getLsbD (k - 28) := by
  show (op ++ z).getLsbD k = _
  simp only [BitVec.getLsbD_append]

theorem getLsbD_formatL (op : BitVec 4) (z : BitVec 20) (l : BitVec 8) (k : Nat) :
    (formatL op z l).getLsbD k =
      if k < 8 then l.getLsbD k else if k < 28 then z.getLsbD (k - 8) else op.getLsbD (k - 28) := by
  show (op ++ z ++ l).getLsbD k = _
  simp only [BitVec.getLsbD_append]
  repeat' split
  all_goals first
    | rfl
    | (exfalso; omega)

theorem getLsbD_formatT (op : BitVec 4) (z : BitVec 20) (g : BitVec 2) (i : BitVec 6) (k : Nat) :
    (formatT op z g i).getLsbD k =
      if k < 6 then i.getLsbD k
      else if k < 8 then g.getLsbD (k - 6)
      else if k < 28 then z.getLsbD (k - 8)
      else op.getLsbD (k - 28) := by
  show (op ++ z ++ g ++ i).getLsbD k = _
  simp only [BitVec.getLsbD_append]
  repeat' split
  all_goals first
    | rfl
    | (exfalso; omega)

section
variable (op : BitVec 4) (c : BitVec 2) (b z : Bit) (x y : BitVec 12)

@[simp] theorem opcodeOf_formatP : opcodeOf (formatP op c b z x y) = op := by
  apply BitVec.eq_of_getLsbD_eq
  intro k hk
  simp only [opcodeOf, BitVec.getLsbD_extractLsb', getLsbD_formatP]
  interval_cases k <;> simp

@[simp] theorem chOf_formatP : chOf (formatP op c b z x y) = c := by
  apply BitVec.eq_of_getLsbD_eq
  intro k hk
  simp only [chOf, BitVec.getLsbD_extractLsb', getLsbD_formatP]
  interval_cases k <;> simp

@[simp] theorem bOf_formatP : bOf (formatP op c b z x y) = b := by
  apply BitVec.eq_of_getLsbD_eq
  intro k hk
  simp only [bOf, BitVec.getLsbD_extractLsb', getLsbD_formatP]
  interval_cases k
  simp

@[simp] theorem xOf_formatP : xOf (formatP op c b z x y) = x := by
  apply BitVec.eq_of_getLsbD_eq
  intro k hk
  simp only [xOf, BitVec.getLsbD_extractLsb', getLsbD_formatP]
  interval_cases k <;> simp

@[simp] theorem yOf_formatP : yOf (formatP op c b z x y) = y := by
  apply BitVec.eq_of_getLsbD_eq
  intro k hk
  simp only [yOf, BitVec.getLsbD_extractLsb', getLsbD_formatP]
  interval_cases k <;> simp

/-- PSET's mask keeps the opcode and bit 24. -/
theorem maskPSET_formatP : formatP op c b z x y &&& 0xF1000000#32 = formatP op 0 0 z 0 0 := by
  apply BitVec.eq_of_getLsbD_eq
  intro k hk
  simp only [BitVec.getLsbD_and, getLsbD_formatP]
  interval_cases k <;> simp

/-- PGET's mask keeps the opcode and bits 25 and 24. -/
theorem maskPGET_formatP : formatP op c b z x y &&& 0xF3000000#32 = formatP op 0 b z 0 0 := by
  apply BitVec.eq_of_getLsbD_eq
  intro k hk
  simp only [BitVec.getLsbD_and, getLsbD_formatP]
  interval_cases k <;> simp

/-- PCLR's mask keeps everything but the channel. -/
theorem maskPCLR_formatP : formatP op c b z x y &&& 0xF3FFFFFF#32 = formatP op 0 b z x y := by
  apply BitVec.eq_of_getLsbD_eq
  intro k hk
  simp only [BitVec.getLsbD_and, getLsbD_formatP]
  interval_cases k <;> simp

end

@[simp] theorem opcodeOf_formatN (op : BitVec 4) (z : BitVec 28) : opcodeOf (formatN op z) = op := by
  apply BitVec.eq_of_getLsbD_eq
  intro k hk
  simp only [opcodeOf, BitVec.getLsbD_extractLsb', getLsbD_formatN]
  interval_cases k <;> simp

section
variable (op : BitVec 4) (z : BitVec 20) (l : BitVec 8) (g : BitVec 2) (i : BitVec 6)

@[simp] theorem opcodeOf_formatL : opcodeOf (formatL op z l) = op := by
  apply BitVec.eq_of_getLsbD_eq
  intro k hk
  simp only [opcodeOf, BitVec.getLsbD_extractLsb', getLsbD_formatL]
  interval_cases k <;> simp

@[simp] theorem levelOf_formatL : levelOf (formatL op z l) = l := by
  apply BitVec.eq_of_getLsbD_eq
  intro k hk
  simp only [levelOf, BitVec.getLsbD_extractLsb', getLsbD_formatL]
  interval_cases k <;> simp

/-- DIM's mask keeps everything but the level. -/
theorem maskDIM_formatL : formatL op z l &&& 0xFFFFFF00#32 = formatL op z 0 := by
  apply BitVec.eq_of_getLsbD_eq
  intro k hk
  simp only [BitVec.getLsbD_and, getLsbD_formatL]
  interval_cases k <;> simp

@[simp] theorem opcodeOf_formatT : opcodeOf (formatT op z g i) = op := by
  apply BitVec.eq_of_getLsbD_eq
  intro k hk
  simp only [opcodeOf, BitVec.getLsbD_extractLsb', getLsbD_formatT]
  interval_cases k <;> simp

@[simp] theorem gOf_formatT : gOf (formatT op z g i) = g := by
  apply BitVec.eq_of_getLsbD_eq
  intro k hk
  simp only [gOf, BitVec.getLsbD_extractLsb', getLsbD_formatT]
  interval_cases k <;> simp

@[simp] theorem iOf_formatT : iOf (formatT op z g i) = i := by
  apply BitVec.eq_of_getLsbD_eq
  intro k hk
  simp only [iOf, BitVec.getLsbD_extractLsb', getLsbD_formatT]
  interval_cases k <;> simp

/-- STRD's mask keeps everything but the group and the index. -/
theorem maskSTRD_formatT : formatT op z g i &&& 0xFFFFFF00#32 = formatT op z 0 0 := by
  apply BitVec.eq_of_getLsbD_eq
  intro k hk
  simp only [BitVec.getLsbD_and, getLsbD_formatT]
  interval_cases k <;> simp

end

/-! Every word is a word of each format. -/

theorem eq_formatP (w : Word) :
    w = formatP (opcodeOf w) (chOf w) (bOf w) (w.extractLsb' 24 1) (xOf w) (yOf w) := by
  apply BitVec.eq_of_getLsbD_eq
  intro k hk
  simp only [opcodeOf, chOf, bOf, xOf, yOf, BitVec.getLsbD_extractLsb', getLsbD_formatP]
  interval_cases k <;> simp

theorem eq_formatN (w : Word) : w = formatN (opcodeOf w) (w.extractLsb' 0 28) := by
  apply BitVec.eq_of_getLsbD_eq
  intro k hk
  simp only [opcodeOf, BitVec.getLsbD_extractLsb', getLsbD_formatN]
  interval_cases k <;> simp

theorem eq_formatL (w : Word) : w = formatL (opcodeOf w) (w.extractLsb' 8 20) (levelOf w) := by
  apply BitVec.eq_of_getLsbD_eq
  intro k hk
  simp only [opcodeOf, levelOf, BitVec.getLsbD_extractLsb', getLsbD_formatL]
  interval_cases k <;> simp

theorem eq_formatT (w : Word) : w = formatT (opcodeOf w) (w.extractLsb' 8 20) (gOf w) (iOf w) := by
  apply BitVec.eq_of_getLsbD_eq
  intro k hk
  simp only [opcodeOf, gOf, iOf, BitVec.getLsbD_extractLsb', getLsbD_formatT]
  interval_cases k <;> simp

/-! A built word determines its fields. -/

theorem formatP_inj {op op' : BitVec 4} {c c' : BitVec 2} {b b' z z' : Bit} {x x' y y' : BitVec 12}
    (h : formatP op c b z x y = formatP op' c' b' z' x' y') :
    op = op' ∧ c = c' ∧ b = b' ∧ z = z' ∧ x = x' ∧ y = y' := by
  have hz : ∀ (op : BitVec 4) (c : BitVec 2) (b z : Bit) (x y : BitVec 12),
      (formatP op c b z x y).extractLsb' 24 1 = z := by
    intro op c b z x y
    apply BitVec.eq_of_getLsbD_eq
    intro k hk
    simp only [BitVec.getLsbD_extractLsb', getLsbD_formatP]
    interval_cases k
    simp
  refine ⟨?_, ?_, ?_, ?_, ?_, ?_⟩
  · simpa using congrArg opcodeOf h
  · simpa using congrArg chOf h
  · simpa using congrArg bOf h
  · simpa only [hz] using congrArg (fun w : Word => w.extractLsb' 24 1) h
  · simpa using congrArg xOf h
  · simpa using congrArg yOf h

theorem formatN_inj {op op' : BitVec 4} {z z' : BitVec 28} (h : formatN op z = formatN op' z') : op = op' ∧ z = z' := by
  have hz : ∀ (op : BitVec 4) (z : BitVec 28), (formatN op z).extractLsb' 0 28 = z := by
    intro op z
    apply BitVec.eq_of_getLsbD_eq
    intro k hk
    simp only [BitVec.getLsbD_extractLsb', getLsbD_formatN]
    interval_cases k <;> simp
  refine ⟨by simpa using congrArg opcodeOf h, ?_⟩
  simpa only [hz] using congrArg (fun w : Word => w.extractLsb' 0 28) h

theorem formatL_inj {op op' : BitVec 4} {z z' : BitVec 20} {l l' : BitVec 8} (h : formatL op z l = formatL op' z' l') :
    op = op' ∧ z = z' ∧ l = l' := by
  have hz : ∀ (op : BitVec 4) (z : BitVec 20) (l : BitVec 8), (formatL op z l).extractLsb' 8 20 = z := by
    intro op z l
    apply BitVec.eq_of_getLsbD_eq
    intro k hk
    simp only [BitVec.getLsbD_extractLsb', getLsbD_formatL]
    interval_cases k <;> simp
  refine ⟨by simpa using congrArg opcodeOf h, ?_, by simpa using congrArg levelOf h⟩
  simpa only [hz] using congrArg (fun w : Word => w.extractLsb' 8 20) h

theorem formatT_inj {op op' : BitVec 4} {z z' : BitVec 20} {g g' : BitVec 2} {i i' : BitVec 6}
    (h : formatT op z g i = formatT op' z' g' i') : op = op' ∧ z = z' ∧ g = g' ∧ i = i' := by
  have hz : ∀ (op : BitVec 4) (z : BitVec 20) (g : BitVec 2) (i : BitVec 6),
      (formatT op z g i).extractLsb' 8 20 = z := by
    intro op z g i
    apply BitVec.eq_of_getLsbD_eq
    intro k hk
    simp only [BitVec.getLsbD_extractLsb', getLsbD_formatT]
    interval_cases k <;> simp
  refine ⟨by simpa using congrArg opcodeOf h, ?_, by simpa using congrArg gOf h, by simpa using congrArg iOf h⟩
  simpa only [hz] using congrArg (fun w : Word => w.extractLsb' 8 20) h

theorem Channel.ofCode_code (ch : Channel) : Channel.ofCode ch.code = some ch := by cases ch <;> decide

theorem Channel.code_of_ofCode {c : BitVec 2} {ch : Channel} (h : Channel.ofCode c = some ch) : ch.code = c := by
  unfold Channel.ofCode at h
  split at h
  · cases h; simp [Channel.code, *]
  · split at h
    · cases h; simp [Channel.code, *]
    · split at h
      · cases h; simp [Channel.code, *]
      · cases h

/-- The one reserved channel code is 3 (R96). -/
theorem Channel.ofCode_eq_none (c : BitVec 2) : Channel.ofCode c = none ↔ c = 3#2 := by revert c; decide

/-! The encoder in the formats. -/

theorem encode_pset (ch : Channel) (x y : BitVec 12) (b : Bit) :
    encode (.pset ch x y b) = formatP 0x1#4 ch.code b 0#1 x y := rfl
theorem encode_pget (ch : Channel) (x y : BitVec 12) :
    encode (.pget ch x y) = formatP 0x2#4 ch.code 0#1 0#1 x y := rfl
theorem encode_pclr (ch : Channel) : encode (.pclr ch) = formatP 0x3#4 ch.code 0#1 0#1 0#12 0#12 := rfl
theorem encode_blit : encode .blit = formatN 0x4#4 0#28 := rfl
theorem encode_strd (g : BitVec 2) (i : BitVec 6) : encode (.strd g i) = formatT 0x5#4 0#20 g i := rfl
theorem encode_dim (l : BitVec 8) : encode (.dim l) = formatL 0x6#4 0#20 l := rfl
theorem encode_start : encode .start = formatN 0x7#4 0#28 := rfl
theorem encode_stat : encode .stat = formatN 0x8#4 0#28 := rfl

end Sys2Proof
end

