-- ==== Sys2Proof/Laws/Encoder.lean ====
section
/-! SUPPORT. The bits of EncWord in terms of its pairs, and of a pair in terms of the two selected pixels. -/

namespace Sys2Proof.Machine

/-- Eight 2-bit parts side by side: bit n is bit n mod 2 of part (15 − n) / 2, counted from the most significant. -/
theorem getLsbD_eightPairs (q : Nat → BitVec 2) (n : Nat) (h : n < 16) :
    (q 0 ++ q 1 ++ q 2 ++ q 3 ++ q 4 ++ q 5 ++ q 6 ++ q 7).getLsbD n = (q ((15 - n) / 2)).getLsbD (n % 2) := by
  simp only [BitVec.getLsbD_append]
  interval_cases n <;> simp

/-- Bit n of a scan word is a bit of pair (15 − n) / 2 (R143). -/
theorem getLsbD_encWord (c : Params) (pb : Memory 1) (g i n : Nat) (h : n < 16) :
    (encWord c pb g i).getLsbD n = (encPair c pb g i ((15 - n) / 2)).getLsbD (n % 2) :=
  getLsbD_eightPairs (encPair c pb g i) n h

/-- The two bits of a pair without SLOT_SWAP: the first selection above the second (R143). -/
theorem encPair_plain {c : Params} (h : c.slotSwap = false) (pb : Memory 1) (g i k : Nat) :
    encPair c pb g i k =
      pbRead pb (wordChan i) (pairColumn c (wordPos i) k) (g + firstOffset c (wordSel i)) ++
      pbRead pb (wordChan i) (pairColumn c (wordPos i) k) (g + secondOffset c (wordSel i)) := by
  simp [encPair, h]

/-- The two bits of a pair with SLOT_SWAP: the second selection above the first (R145). -/
theorem encPair_swapped {c : Params} (h : c.slotSwap = true) (pb : Memory 1) (g i k : Nat) :
    encPair c pb g i k =
      pbRead pb (wordChan i) (pairColumn c (wordPos i) k) (g + secondOffset c (wordSel i)) ++
      pbRead pb (wordChan i) (pairColumn c (wordPos i) k) (g + firstOffset c (wordSel i)) := by
  simp [encPair, h]

/-- Bit 0 of two joined bits is the second. -/
theorem getLsbD_joinBits_zero (a b : Bit) : (a ++ b).getLsbD 0 = b.getLsbD 0 := by
  rw [BitVec.getLsbD_append]
  rfl

/-- Bit 1 of two joined bits is the first. -/
theorem getLsbD_joinBits_one (a b : Bit) : (a ++ b).getLsbD 1 = a.getLsbD 0 := by
  rw [BitVec.getLsbD_append]
  rfl

end Sys2Proof.Machine
end

