-- ==== Sys2Proof/Laws/Memory.lean ====
section
/-! SUPPORT. The laws of the memories: every operation keeps the canonical form and the space, a read after a write, a
read after a clear, and equality of memories that read alike. -/

namespace Sys2Proof.Machine

variable {w : Nat}

@[simp] theorem Memory.read_nil (a : Nat) : Memory.read ([] : Memory w) a = 0 := rfl

theorem Memory.read_cons (k : Nat) (v : BitVec w) (m : Memory w) (a : Nat) :
    Memory.read ((k, v) :: m) a = if k = a then v else Memory.read m a := rfl

theorem Memory.wf_nil : Memory.wf ([] : Memory w) := by simp [Memory.wf]

/-- The canonical form, one cell at a time. -/
theorem Memory.wf_cons {k : Nat} {v : BitVec w} {m : Memory w} :
    Memory.wf ((k, v) :: m) ↔ v ≠ 0 ∧ (∀ c ∈ m, k < c.1) ∧ Memory.wf m := by
  simp only [Memory.wf, List.map_cons, List.pairwise_cons, List.mem_map, List.forall_mem_cons]
  constructor
  · rintro ⟨⟨h1, h2⟩, h3, h4⟩
    exact ⟨h3, fun c hc => h1 _ ⟨c, hc, rfl⟩, h2, h4⟩
  · rintro ⟨h1, h2, h3, h4⟩
    exact ⟨⟨by rintro _ ⟨c, hc, rfl⟩; exact h2 c hc, h3⟩, h1, h4⟩

/-- A key below every listed key reads as 0. -/
theorem Memory.read_eq_zero_of_lt {m : Memory w} {a : Nat} (h : ∀ c ∈ m, a < c.1) : Memory.read m a = 0 := by
  induction m with
  | nil => rfl
  | cons c m ih =>
    obtain ⟨k, v⟩ := c
    have hk : a < k := h (k, v) (by simp)
    rw [Memory.read_cons, if_neg (by omega)]
    exact ih fun c hc => h c (by simp [hc])

theorem Memory.mem_cell {a : Nat} {v : BitVec w} {c : Nat × BitVec w} :
    c ∈ Memory.cell a v ↔ v ≠ 0 ∧ c = (a, v) := by
  unfold Memory.cell
  split <;> simp_all

/-- A written memory lists the new cell and cells of the old one under other keys. -/
theorem Memory.mem_write {m : Memory w} {a : Nat} {v : BitVec w} {c : Nat × BitVec w}
    (h : c ∈ Memory.write m a v) : c.1 = a ∨ c ∈ m := by
  induction m with
  | nil =>
    simp only [Memory.write, Memory.mem_cell] at h
    exact .inl (by rw [h.2])
  | cons d m ih =>
    obtain ⟨k, u⟩ := d
    simp only [Memory.write] at h
    split at h
    · rcases List.mem_append.1 h with h | h
      · exact .inl (by rw [(Memory.mem_cell.1 h).2])
      · exact .inr h
    · split at h
      · rcases List.mem_append.1 h with h | h
        · exact .inl (by rw [(Memory.mem_cell.1 h).2])
        · exact .inr (List.mem_cons_of_mem _ h)
      · rcases List.mem_cons.1 h with h | h
        · exact .inr (h ▸ List.mem_cons_self)
        · exact (ih h).imp id (List.mem_cons_of_mem _)

/-- A write keeps the canonical form. -/
theorem Memory.wf_write {m : Memory w} (h : Memory.wf m) (a : Nat) (v : BitVec w) : Memory.wf (Memory.write m a v) := by
  have hcell : ∀ (n : Memory w), Memory.wf n → (∀ c ∈ n, a < c.1) → Memory.wf (Memory.cell a v ++ n) := by
    intro n hn hlt
    unfold Memory.cell
    split
    · simpa using hn
    · exact Memory.wf_cons.2 ⟨by assumption, hlt, hn⟩
  induction m with
  | nil => simpa [Memory.write] using hcell [] Memory.wf_nil (by simp)
  | cons d m ih =>
    obtain ⟨k, u⟩ := d
    obtain ⟨hu, hk, hm⟩ := Memory.wf_cons.1 h
    simp only [Memory.write]
    split
    · refine hcell _ h fun c hc => ?_
      rcases List.mem_cons.1 hc with rfl | hc
      · assumption
      · exact lt_trans (by assumption) (hk c hc)
    · split
      · exact hcell _ hm fun c hc => by subst_vars; exact hk c hc
      · refine Memory.wf_cons.2 ⟨hu, fun c hc => ?_, ih hm⟩
        rcases Memory.mem_write hc with hc | hc
        · omega
        · exact hk c hc

/-- A write inside a space keeps the memory inside it. -/
theorem Memory.below_write {m : Memory w} {n : Nat} (h : Memory.below n m) {a : Nat} (ha : a < n) (v : BitVec w) :
    Memory.below n (Memory.write m a v) := fun c hc => by
  rcases Memory.mem_write hc with hc | hc
  · omega
  · exact h c hc

theorem Memory.read_cell_append (a : Nat) (v : BitVec w) (m : Memory w) (b : Nat) :
    Memory.read (Memory.cell a v ++ m) b = if a = b ∧ v ≠ 0 then v else Memory.read m b := by
  unfold Memory.cell
  split <;> simp_all [Memory.read_cons]

/-- A write leaves every other key alone. -/
theorem Memory.read_write_other (m : Memory w) {a b : Nat} (v : BitVec w) (h : b ≠ a) :
    Memory.read (Memory.write m a v) b = Memory.read m b := by
  have hab : ¬ (a = b) := fun e => h e.symm
  induction m with
  | nil => simpa [Memory.write, hab] using Memory.read_cell_append a v [] b
  | cons d m ih =>
    obtain ⟨k, u⟩ := d
    simp only [Memory.write]
    split
    · simp [Memory.read_cell_append, hab]
    · split
      · subst_vars
        simp [Memory.read_cell_append, Memory.read_cons, hab]
      · simp [Memory.read_cons, ih]

/-- A read after a write to the same key gives the value written. -/
theorem Memory.read_write_same {m : Memory w} (h : Memory.wf m) (a : Nat) (v : BitVec w) :
    Memory.read (Memory.write m a v) a = v := by
  induction m with
  | nil =>
    have := Memory.read_cell_append a v ([] : Memory w) a
    by_cases hv : v = 0 <;> simp_all [Memory.write]
  | cons d m ih =>
    obtain ⟨k, u⟩ := d
    obtain ⟨hu, hk, hm⟩ := Memory.wf_cons.1 h
    simp only [Memory.write]
    split
    · rw [Memory.read_cell_append]
      by_cases hv : v = 0
      · rw [if_neg (by simp [hv]), hv]
        refine Memory.read_eq_zero_of_lt fun c hc => ?_
        rcases List.mem_cons.1 hc with rfl | hc
        · assumption
        · exact lt_trans (by assumption) (hk c hc)
      · rw [if_pos ⟨rfl, hv⟩]
    · split
      · subst_vars
        rw [Memory.read_cell_append]
        by_cases hv : v = 0
        · rw [if_neg (by simp [hv]), hv]
          exact Memory.read_eq_zero_of_lt hk
        · rw [if_pos ⟨rfl, hv⟩]
      · rw [Memory.read_cons, if_neg (by omega)]
        exact ih hm

/-- One write, read at any key. -/
theorem Memory.read_write {m : Memory w} (h : Memory.wf m) (a b : Nat) (v : BitVec w) :
    Memory.read (Memory.write m a v) b = if b = a then v else Memory.read m b := by
  split
  · subst_vars; exact Memory.read_write_same h _ v
  · exact Memory.read_write_other m v (by assumption)

/-- A clear keeps the canonical form. -/
theorem Memory.wf_clear {m : Memory w} (h : Memory.wf m) (lo hi : Nat) : Memory.wf (Memory.clear m lo hi) :=
  ⟨h.1.sublist (List.Sublist.map _ List.filter_sublist), fun c hc => h.2 c (List.mem_of_mem_filter hc)⟩

/-- A clear keeps the memory inside its space. -/
theorem Memory.below_clear {m : Memory w} {n : Nat} (h : Memory.below n m) (lo hi : Nat) :
    Memory.below n (Memory.clear m lo hi) := fun c hc => h c (List.mem_of_mem_filter hc)

/-- A clear makes its range 0 and leaves every other key alone. -/
theorem Memory.read_clear (m : Memory w) (lo hi a : Nat) :
    Memory.read (Memory.clear m lo hi) a = if lo ≤ a ∧ a < hi then 0 else Memory.read m a := by
  induction m with
  | nil => simp [Memory.clear]
  | cons d m ih =>
    obtain ⟨k, u⟩ := d
    unfold Memory.clear at ih ⊢
    by_cases hk : lo ≤ k ∧ k < hi
    · rw [List.filter_cons_of_neg (by simpa using hk), ih, Memory.read_cons]
      by_cases hka : k = a
      · subst hka; simp [hk]
      · simp [hka]
    · rw [List.filter_cons_of_pos (by simp; omega), Memory.read_cons, Memory.read_cons, ih]
      by_cases hka : k = a
      · subst hka; simp [hk]
      · simp [hka]

/-- A listed cell is what its key reads as. -/
theorem Memory.read_of_mem {m : Memory w} (h : Memory.wf m) {k : Nat} {v : BitVec w} (hc : (k, v) ∈ m) :
    Memory.read m k = v := by
  induction m with
  | nil => simp at hc
  | cons d m ih =>
    obtain ⟨j, u⟩ := d
    obtain ⟨_, hj, hm⟩ := Memory.wf_cons.1 h
    rcases List.mem_cons.1 hc with hc | hc
    · cases hc; simp [Memory.read_cons]
    · have := hj _ hc
      rw [Memory.read_cons, if_neg (by simp at this; omega)]
      exact ih hm hc

/-- A key that reads as something else than 0 is listed. -/
theorem Memory.mem_of_read {m : Memory w} {k : Nat} (h : Memory.read m k ≠ 0) : (k, Memory.read m k) ∈ m := by
  induction m with
  | nil => simp at h
  | cons d m ih =>
    obtain ⟨j, u⟩ := d
    rw [Memory.read_cons] at h ⊢
    split at h
    · subst_vars; simp
    · rename_i hne
      rw [if_neg hne]
      exact List.mem_cons_of_mem _ (ih h)

/-- Two memories in canonical form that read alike are equal. -/
theorem Memory.ext_read {m n : Memory w} (hm : Memory.wf m) (hn : Memory.wf n)
    (h : ∀ a, Memory.read m a = Memory.read n a) : m = n := by
  have key : ∀ {p q : Memory w}, Memory.wf p → (∀ a, Memory.read p a = Memory.read q a) → ∀ c ∈ p, c ∈ q := by
    intro p q hp hpq c hc
    obtain ⟨k, v⟩ := c
    have hk : Memory.read p k = v := Memory.read_of_mem hp hc
    have hq : Memory.read q k = v := by rw [← hpq, hk]
    have := Memory.mem_of_read (m := q) (k := k) (by rw [hq]; exact hp.2 _ hc)
    rwa [hq] at this
  have hs : ∀ {p : Memory w}, Memory.wf p → p.Pairwise fun c d => c.1 < d.1 := fun hp => List.pairwise_map.1 hp.1
  have hnd : ∀ {p : Memory w}, Memory.wf p → p.Nodup := fun hp => (hs hp).imp fun hlt e => by
    rw [e] at hlt; exact lt_irrefl _ hlt
  refine List.Perm.eq_of_pairwise (le := fun c d => c.1 < d.1) ?_ (hs hm) (hs hn) ?_
  · intro a b _ _ h1 h2
    omega
  · exact (List.perm_ext_iff_of_nodup (hnd hm) (hnd hn)).2 fun c =>
      ⟨key hm h c, key hn (fun a => (h a).symm) c⟩

/-- Writing what a key already reads as changes nothing. -/
theorem Memory.write_read_self {m : Memory w} (h : Memory.wf m) (a : Nat) : Memory.write m a (Memory.read m a) = m :=
  Memory.ext_read (Memory.wf_write h _ _) h fun b => by
    rw [Memory.read_write h]
    split
    · subst_vars; rfl
    · rfl

/-! ### The keys of pixels and scan words -/

/-- Different pixels have different keys. -/
theorem pixelKey_inj {c x y c' x' y' : Nat} (hx : x < 64) (hy : y < 16) (hx' : x' < 64) (hy' : y' < 16) :
    pixelKey c x y = pixelKey c' x' y' ↔ c = c' ∧ x = x' ∧ y = y' := by
  unfold pixelKey
  omega

/-- A pixel's key lies in PB's space. -/
theorem pixelKey_lt {c x y : Nat} (hc : c < 3) (hx : x < 64) (hy : y < 16) : pixelKey c x y < 3072 := by
  unfold pixelKey
  omega

theorem chanIndex_lt (ch : Channel) : chanIndex ch < 3 := by cases ch <;> decide

theorem chanIndex_inj {c d : Channel} : chanIndex c = chanIndex d ↔ c = d := by cases c <;> cases d <;> decide

/-- A scan word inside the table has the flat index 48·g + i. -/
theorem scanKey_eq {g i : Nat} (hg : g < 4) (hi : i < 48) : scanKey g i = some (g * 48 + i) := by
  simp [scanKey, Config.NGROUP, Config.NWORD, hg, hi]

theorem scanKey_none {g i : Nat} (h : 48 ≤ i) : scanKey g i = none := by
  rw [scanKey, if_neg]
  rintro ⟨_, hi⟩
  exact absurd hi (by simpa [Config.NWORD] using h)

theorem stRead_eq (m : Memory 16) {g i : Nat} (hg : g < 4) (hi : i < 48) :
    stRead m g i = some (Memory.read m (g * 48 + i)) := by simp [stRead, scanKey_eq hg hi]

theorem stWrite_eq (m : Memory 16) {g i : Nat} (hg : g < 4) (hi : i < 48) (v : ScanWord) :
    stWrite m g i v = Memory.write m (g * 48 + i) v := by simp [stWrite, scanKey_eq hg hi]

theorem wf_stWrite {m : Memory 16} (h : Memory.wf m) (g i : Nat) (v : ScanWord) : Memory.wf (stWrite m g i v) := by
  unfold stWrite
  split
  · exact Memory.wf_write h _ _
  · exact h

theorem below_stWrite {m : Memory 16} (h : Memory.below 192 m) (g i : Nat) (v : ScanWord) :
    Memory.below 192 (stWrite m g i v) := by
  unfold stWrite
  split
  · rename_i k hk
    refine Memory.below_write h ?_ v
    by_cases hgi : g < 4 ∧ i < 48
    · rw [scanKey_eq hgi.1 hgi.2] at hk
      cases hk
      omega
    · rw [scanKey, if_neg (by simpa [Config.NGROUP, Config.NWORD] using hgi)] at hk
      cases hk
  · exact h

/-- One pixel written, read at any pixel (R125 a, b). -/
theorem pbRead_pbWrite {m : Memory 1} (h : Memory.wf m) {c x y c' x' y' : Nat} (b : Bit) (hx : x < 64) (hy : y < 16)
    (hx' : x' < 64) (hy' : y' < 16) :
    pbRead (pbWrite m c x y b) c' x' y' = if c' = c ∧ x' = x ∧ y' = y then b else pbRead m c' x' y' := by
  unfold pbRead pbWrite
  rw [Memory.read_write h]
  simp only [pixelKey_inj hx' hy' hx hy]

/-- One plane cleared, read at any pixel (R124). -/
theorem pbRead_pbClear (m : Memory 1) {c c' x' y' : Nat} (hx' : x' < 64) (hy' : y' < 16) :
    pbRead (pbClear m c) c' x' y' = if c' = c then 0 else pbRead m c' x' y' := by
  unfold pbRead pbClear
  rw [Memory.read_clear]
  have : (pixelKey c 0 0 ≤ pixelKey c' x' y' ∧ pixelKey c' x' y' < pixelKey (c + 1) 0 0) ↔ c' = c := by
    unfold pixelKey
    omega
  simp only [this]

end Sys2Proof.Machine
end

