-- ==== Sys2Proof/Laws/State.lean ====
section
/-! SUPPORT. One lemma per field of State per named update, each true by definition, so that no proof unfolds one. -/

namespace Sys2Proof.Machine

variable (s : State)

/-! ### drive -/

@[simp] theorem drive_cfg (e : PinEvent) : (drive e s).cfg = s.cfg := rfl
@[simp] theorem drive_cmds (e : PinEvent) : (drive e s).cmds = s.cmds := rfl
@[simp] theorem drive_cmdsRest (e : PinEvent) : (drive e s).cmdsRest = s.cmdsRest := rfl
@[simp] theorem drive_sched (e : PinEvent) : (drive e s).sched = s.sched := rfl
@[simp] theorem drive_tick (e : PinEvent) : (drive e s).tick = s.tick := rfl
@[simp] theorem drive_pb (e : PinEvent) : (drive e s).pb = s.pb := rfl
@[simp] theorem drive_st (e : PinEvent) : (drive e s).st = s.st := rfl
@[simp] theorem drive_fifo (e : PinEvent) : (drive e s).fifo = s.fifo := rfl
@[simp] theorem drive_cp (e : PinEvent) : (drive e s).cp = s.cp := rfl
@[simp] theorem drive_pstate (e : PinEvent) : (drive e s).pstate = s.pstate := rfl
@[simp] theorem drive_ecur (e : PinEvent) : (drive e s).ecur = s.ecur := rfl
@[simp] theorem drive_eacc (e : PinEvent) : (drive e s).eacc = s.eacc := rfl
@[simp] theorem drive_dlevel (e : PinEvent) : (drive e s).dlevel = s.dlevel := rfl
@[simp] theorem drive_drep (e : PinEvent) : (drive e s).drep = s.drep := rfl
@[simp] theorem drive_dbit (e : PinEvent) : (drive e s).dbit = s.dbit := rfl
@[simp] theorem drive_dsub (e : PinEvent) : (drive e s).dsub = s.dsub := rfl
@[simp] theorem drive_phase (e : PinEvent) : (drive e s).phase = s.phase := rfl
@[simp] theorem drive_flags (e : PinEvent) : (drive e s).flags = s.flags := rfl
@[simp] theorem drive_addr (e : PinEvent) : (drive e s).addr = s.addr := rfl
@[simp] theorem drive_rstate (e : PinEvent) : (drive e s).rstate = s.rstate := rfl
@[simp] theorem drive_widx (e : PinEvent) : (drive e s).widx = s.widx := rfl
@[simp] theorem drive_muxhold (e : PinEvent) : (drive e s).muxhold = s.muxhold := rfl
@[simp] theorem drive_sstate (e : PinEvent) : (drive e s).sstate = s.sstate := rfl
@[simp] theorem drive_osr (e : PinEvent) : (drive e s).osr = s.osr := rfl
@[simp] theorem drive_scnt (e : PinEvent) : (drive e s).scnt = s.scnt := rfl
@[simp] theorem drive_pins (e : PinEvent) : (drive e s).pins = s.pins.after e := rfl
@[simp] theorem drive_trace (e : PinEvent) : (drive e s).trace = s.trace ++ [e] := rfl
@[simp] theorem drive_rsp (e : PinEvent) : (drive e s).rsp = s.rsp := rfl

/-! ### respond -/

@[simp] theorem respond_cfg (v : Word) : (respond v s).cfg = s.cfg := rfl
@[simp] theorem respond_cmds (v : Word) : (respond v s).cmds = s.cmds := rfl
@[simp] theorem respond_cmdsRest (v : Word) : (respond v s).cmdsRest = s.cmdsRest := rfl
@[simp] theorem respond_sched (v : Word) : (respond v s).sched = s.sched := rfl
@[simp] theorem respond_tick (v : Word) : (respond v s).tick = s.tick := rfl
@[simp] theorem respond_pb (v : Word) : (respond v s).pb = s.pb := rfl
@[simp] theorem respond_st (v : Word) : (respond v s).st = s.st := rfl
@[simp] theorem respond_fifo (v : Word) : (respond v s).fifo = s.fifo := rfl
@[simp] theorem respond_cp (v : Word) : (respond v s).cp = s.cp := rfl
@[simp] theorem respond_pstate (v : Word) : (respond v s).pstate = s.pstate := rfl
@[simp] theorem respond_ecur (v : Word) : (respond v s).ecur = s.ecur := rfl
@[simp] theorem respond_eacc (v : Word) : (respond v s).eacc = s.eacc := rfl
@[simp] theorem respond_dlevel (v : Word) : (respond v s).dlevel = s.dlevel := rfl
@[simp] theorem respond_drep (v : Word) : (respond v s).drep = s.drep := rfl
@[simp] theorem respond_dbit (v : Word) : (respond v s).dbit = s.dbit := rfl
@[simp] theorem respond_dsub (v : Word) : (respond v s).dsub = s.dsub := rfl
@[simp] theorem respond_phase (v : Word) : (respond v s).phase = s.phase := rfl
@[simp] theorem respond_flags (v : Word) : (respond v s).flags = s.flags := rfl
@[simp] theorem respond_addr (v : Word) : (respond v s).addr = s.addr := rfl
@[simp] theorem respond_rstate (v : Word) : (respond v s).rstate = s.rstate := rfl
@[simp] theorem respond_widx (v : Word) : (respond v s).widx = s.widx := rfl
@[simp] theorem respond_muxhold (v : Word) : (respond v s).muxhold = s.muxhold := rfl
@[simp] theorem respond_sstate (v : Word) : (respond v s).sstate = s.sstate := rfl
@[simp] theorem respond_osr (v : Word) : (respond v s).osr = s.osr := rfl
@[simp] theorem respond_scnt (v : Word) : (respond v s).scnt = s.scnt := rfl
@[simp] theorem respond_pins (v : Word) : (respond v s).pins = s.pins := rfl
@[simp] theorem respond_trace (v : Word) : (respond v s).trace = s.trace := rfl
@[simp] theorem respond_rsp (v : Word) : (respond v s).rsp = s.rsp ++ [v] := rfl

/-! ### fifoPush -/

@[simp] theorem fifoPush_cfg (v : Word) : (fifoPush v s).cfg = s.cfg := rfl
@[simp] theorem fifoPush_cmds (v : Word) : (fifoPush v s).cmds = s.cmds := rfl
@[simp] theorem fifoPush_cmdsRest (v : Word) : (fifoPush v s).cmdsRest = s.cmdsRest := rfl
@[simp] theorem fifoPush_sched (v : Word) : (fifoPush v s).sched = s.sched := rfl
@[simp] theorem fifoPush_tick (v : Word) : (fifoPush v s).tick = s.tick := rfl
@[simp] theorem fifoPush_pb (v : Word) : (fifoPush v s).pb = s.pb := rfl
@[simp] theorem fifoPush_st (v : Word) : (fifoPush v s).st = s.st := rfl
@[simp] theorem fifoPush_fifo (v : Word) : (fifoPush v s).fifo = s.fifo ++ [v] := rfl
@[simp] theorem fifoPush_cp (v : Word) : (fifoPush v s).cp = s.cp := rfl
@[simp] theorem fifoPush_pstate (v : Word) : (fifoPush v s).pstate = s.pstate := rfl
@[simp] theorem fifoPush_ecur (v : Word) : (fifoPush v s).ecur = s.ecur := rfl
@[simp] theorem fifoPush_eacc (v : Word) : (fifoPush v s).eacc = s.eacc := rfl
@[simp] theorem fifoPush_dlevel (v : Word) : (fifoPush v s).dlevel = s.dlevel := rfl
@[simp] theorem fifoPush_drep (v : Word) : (fifoPush v s).drep = s.drep := rfl
@[simp] theorem fifoPush_dbit (v : Word) : (fifoPush v s).dbit = s.dbit := rfl
@[simp] theorem fifoPush_dsub (v : Word) : (fifoPush v s).dsub = s.dsub := rfl
@[simp] theorem fifoPush_phase (v : Word) : (fifoPush v s).phase = s.phase := rfl
@[simp] theorem fifoPush_flags (v : Word) : (fifoPush v s).flags = s.flags := rfl
@[simp] theorem fifoPush_addr (v : Word) : (fifoPush v s).addr = s.addr := rfl
@[simp] theorem fifoPush_rstate (v : Word) : (fifoPush v s).rstate = s.rstate := rfl
@[simp] theorem fifoPush_widx (v : Word) : (fifoPush v s).widx = s.widx := rfl
@[simp] theorem fifoPush_muxhold (v : Word) : (fifoPush v s).muxhold = s.muxhold := rfl
@[simp] theorem fifoPush_sstate (v : Word) : (fifoPush v s).sstate = s.sstate := rfl
@[simp] theorem fifoPush_osr (v : Word) : (fifoPush v s).osr = s.osr := rfl
@[simp] theorem fifoPush_scnt (v : Word) : (fifoPush v s).scnt = s.scnt := rfl
@[simp] theorem fifoPush_pins (v : Word) : (fifoPush v s).pins = s.pins := rfl
@[simp] theorem fifoPush_trace (v : Word) : (fifoPush v s).trace = s.trace := rfl
@[simp] theorem fifoPush_rsp (v : Word) : (fifoPush v s).rsp = s.rsp := rfl

/-! ### nextCommand -/

@[simp] theorem nextCommand_cfg : (nextCommand s).cfg = s.cfg := rfl
@[simp] theorem nextCommand_cmds : (nextCommand s).cmds = s.cmds := rfl
@[simp] theorem nextCommand_cmdsRest : (nextCommand s).cmdsRest = s.cmdsRest := rfl
@[simp] theorem nextCommand_sched : (nextCommand s).sched = s.sched := rfl
@[simp] theorem nextCommand_tick : (nextCommand s).tick = s.tick := rfl
@[simp] theorem nextCommand_pb : (nextCommand s).pb = s.pb := rfl
@[simp] theorem nextCommand_st : (nextCommand s).st = s.st := rfl
@[simp] theorem nextCommand_fifo : (nextCommand s).fifo = s.fifo := rfl
@[simp] theorem nextCommand_cp : (nextCommand s).cp = s.cp + 1 := rfl
@[simp] theorem nextCommand_pstate : (nextCommand s).pstate = s.pstate := rfl
@[simp] theorem nextCommand_ecur : (nextCommand s).ecur = s.ecur := rfl
@[simp] theorem nextCommand_eacc : (nextCommand s).eacc = s.eacc := rfl
@[simp] theorem nextCommand_dlevel : (nextCommand s).dlevel = s.dlevel := rfl
@[simp] theorem nextCommand_drep : (nextCommand s).drep = s.drep := rfl
@[simp] theorem nextCommand_dbit : (nextCommand s).dbit = s.dbit := rfl
@[simp] theorem nextCommand_dsub : (nextCommand s).dsub = s.dsub := rfl
@[simp] theorem nextCommand_phase : (nextCommand s).phase = s.phase := rfl
@[simp] theorem nextCommand_flags : (nextCommand s).flags = s.flags := rfl
@[simp] theorem nextCommand_addr : (nextCommand s).addr = s.addr := rfl
@[simp] theorem nextCommand_rstate : (nextCommand s).rstate = s.rstate := rfl
@[simp] theorem nextCommand_widx : (nextCommand s).widx = s.widx := rfl
@[simp] theorem nextCommand_muxhold : (nextCommand s).muxhold = s.muxhold := rfl
@[simp] theorem nextCommand_sstate : (nextCommand s).sstate = s.sstate := rfl
@[simp] theorem nextCommand_osr : (nextCommand s).osr = s.osr := rfl
@[simp] theorem nextCommand_scnt : (nextCommand s).scnt = s.scnt := rfl
@[simp] theorem nextCommand_pins : (nextCommand s).pins = s.pins := rfl
@[simp] theorem nextCommand_trace : (nextCommand s).trace = s.trace := rfl
@[simp] theorem nextCommand_rsp : (nextCommand s).rsp = s.rsp := rfl

/-! ### dropCommand -/

@[simp] theorem dropCommand_cfg (f : ErrFlag) : (dropCommand f s).cfg = s.cfg := rfl
@[simp] theorem dropCommand_cmds (f : ErrFlag) : (dropCommand f s).cmds = s.cmds := rfl
@[simp] theorem dropCommand_cmdsRest (f : ErrFlag) : (dropCommand f s).cmdsRest = s.cmdsRest := rfl
@[simp] theorem dropCommand_sched (f : ErrFlag) : (dropCommand f s).sched = s.sched := rfl
@[simp] theorem dropCommand_tick (f : ErrFlag) : (dropCommand f s).tick = s.tick := rfl
@[simp] theorem dropCommand_pb (f : ErrFlag) : (dropCommand f s).pb = s.pb := rfl
@[simp] theorem dropCommand_st (f : ErrFlag) : (dropCommand f s).st = s.st := rfl
@[simp] theorem dropCommand_fifo (f : ErrFlag) : (dropCommand f s).fifo = s.fifo := rfl
@[simp] theorem dropCommand_cp (f : ErrFlag) : (dropCommand f s).cp = s.cp + 1 := rfl
@[simp] theorem dropCommand_pstate (f : ErrFlag) : (dropCommand f s).pstate = s.pstate := rfl
@[simp] theorem dropCommand_ecur (f : ErrFlag) : (dropCommand f s).ecur = s.ecur := rfl
@[simp] theorem dropCommand_eacc (f : ErrFlag) : (dropCommand f s).eacc = s.eacc := rfl
@[simp] theorem dropCommand_dlevel (f : ErrFlag) : (dropCommand f s).dlevel = s.dlevel := rfl
@[simp] theorem dropCommand_drep (f : ErrFlag) : (dropCommand f s).drep = s.drep := rfl
@[simp] theorem dropCommand_dbit (f : ErrFlag) : (dropCommand f s).dbit = s.dbit := rfl
@[simp] theorem dropCommand_dsub (f : ErrFlag) : (dropCommand f s).dsub = s.dsub := rfl
@[simp] theorem dropCommand_phase (f : ErrFlag) : (dropCommand f s).phase = s.phase := rfl
@[simp] theorem dropCommand_flags (f : ErrFlag) : (dropCommand f s).flags = setFlag f s.flags := rfl
@[simp] theorem dropCommand_addr (f : ErrFlag) : (dropCommand f s).addr = s.addr := rfl
@[simp] theorem dropCommand_rstate (f : ErrFlag) : (dropCommand f s).rstate = s.rstate := rfl
@[simp] theorem dropCommand_widx (f : ErrFlag) : (dropCommand f s).widx = s.widx := rfl
@[simp] theorem dropCommand_muxhold (f : ErrFlag) : (dropCommand f s).muxhold = s.muxhold := rfl
@[simp] theorem dropCommand_sstate (f : ErrFlag) : (dropCommand f s).sstate = s.sstate := rfl
@[simp] theorem dropCommand_osr (f : ErrFlag) : (dropCommand f s).osr = s.osr := rfl
@[simp] theorem dropCommand_scnt (f : ErrFlag) : (dropCommand f s).scnt = s.scnt := rfl
@[simp] theorem dropCommand_pins (f : ErrFlag) : (dropCommand f s).pins = s.pins := rfl
@[simp] theorem dropCommand_trace (f : ErrFlag) : (dropCommand f s).trace = s.trace := rfl
@[simp] theorem dropCommand_rsp (f : ErrFlag) : (dropCommand f s).rsp = s.rsp := rfl

/-! ### choiceMade -/

@[simp] theorem choiceMade_cfg : (choiceMade s).cfg = s.cfg := rfl
@[simp] theorem choiceMade_cmds : (choiceMade s).cmds = s.cmds := rfl
@[simp] theorem choiceMade_cmdsRest : (choiceMade s).cmdsRest = s.cmdsRest := rfl
@[simp] theorem choiceMade_sched : (choiceMade s).sched = s.sched.tail := rfl
@[simp] theorem choiceMade_tick : (choiceMade s).tick = s.tick + 1 := rfl
@[simp] theorem choiceMade_pb : (choiceMade s).pb = s.pb := rfl
@[simp] theorem choiceMade_st : (choiceMade s).st = s.st := rfl
@[simp] theorem choiceMade_fifo : (choiceMade s).fifo = s.fifo := rfl
@[simp] theorem choiceMade_cp : (choiceMade s).cp = s.cp := rfl
@[simp] theorem choiceMade_pstate : (choiceMade s).pstate = s.pstate := rfl
@[simp] theorem choiceMade_ecur : (choiceMade s).ecur = s.ecur := rfl
@[simp] theorem choiceMade_eacc : (choiceMade s).eacc = s.eacc := rfl
@[simp] theorem choiceMade_dlevel : (choiceMade s).dlevel = s.dlevel := rfl
@[simp] theorem choiceMade_drep : (choiceMade s).drep = s.drep := rfl
@[simp] theorem choiceMade_dbit : (choiceMade s).dbit = s.dbit := rfl
@[simp] theorem choiceMade_dsub : (choiceMade s).dsub = s.dsub := rfl
@[simp] theorem choiceMade_phase : (choiceMade s).phase = s.phase := rfl
@[simp] theorem choiceMade_flags : (choiceMade s).flags = s.flags := rfl
@[simp] theorem choiceMade_addr : (choiceMade s).addr = s.addr := rfl
@[simp] theorem choiceMade_rstate : (choiceMade s).rstate = s.rstate := rfl
@[simp] theorem choiceMade_widx : (choiceMade s).widx = s.widx := rfl
@[simp] theorem choiceMade_muxhold : (choiceMade s).muxhold = s.muxhold := rfl
@[simp] theorem choiceMade_sstate : (choiceMade s).sstate = s.sstate := rfl
@[simp] theorem choiceMade_osr : (choiceMade s).osr = s.osr := rfl
@[simp] theorem choiceMade_scnt : (choiceMade s).scnt = s.scnt := rfl
@[simp] theorem choiceMade_pins : (choiceMade s).pins = s.pins := rfl
@[simp] theorem choiceMade_trace : (choiceMade s).trace = s.trace := rfl
@[simp] theorem choiceMade_rsp : (choiceMade s).rsp = s.rsp := rfl

end Sys2Proof.Machine
end

