-- ==== Sys2Proof/Laws/Ops.lean ====
section
/-! SUPPORT. One lemma per shared operation that says once what it does: the range test, the check of the parameters, the
sub-steps of the brightness sequence, the pop, reset, and placing a command. -/

namespace Sys2Proof.Machine

variable (s : State)

/-- The range predicate (R121). -/
theorem inrange_iff (x y : Int) : inrange x y = true ↔ 0 ≤ x ∧ x < 64 ∧ 0 ≤ y ∧ y < 16 := by
  simp only [inrange, Bool.and_eq_true, decide_eq_true_eq, and_assoc]
  rfl

/-- The parameters inside R10. -/
theorem paramsOk_iff (c : Params) :
    paramsOk c = true ↔ 1 ≤ c.fifoDepth ∧ rowSelOk c.rowSel = true ∧ c.latAssertBit < 16 := by
  simp only [paramsOk, Bool.and_eq_true, decide_eq_true_eq, and_assoc]
  rfl

/-- The default parameters lie inside R10 for every queue of at least one item. -/
theorem paramsOk_default {d : Nat} (h : 1 ≤ d) : paramsOk (Params.default d) = true := by
  rw [paramsOk_iff]
  exact ⟨h, rfl, (by decide : 12 < 16)⟩

/-- The two memories after reset are in canonical form. -/
theorem reset_memories_wf (c : Params) : Memory.wf (State.resetFor c).pb ∧ Memory.wf (State.resetFor c).st :=
  ⟨Memory.wf_nil, Memory.wf_nil⟩

/-- The sub-steps of the brightness sequence, one equation for each value of DSUB (R233). -/
theorem dimStep_lat (h : s.dsub = .lat) :
    dimStep s = { if s.dbit.toNat = s.cfg.latAssertBit then drive (.lat 1#1) s else s with dsub := .data } := by
  simp [dimStep, h]

theorem dimStep_data (h : s.dsub = .data) :
    dimStep s = { drive (.data (dimBit s.dlevel s.dbit.toNat ++ dimBit s.dlevel s.dbit.toNat)) s with
      dsub := .clkhi } := by
  simp [dimStep, h]

theorem dimStep_clkhi (h : s.dsub = .clkhi) : dimStep s = { drive (.clk 1#1) s with dsub := .clklo } := by
  simp [dimStep, h]

theorem dimStep_clklo (h : s.dsub = .clklo) :
    dimStep s = { drive (.clk 0#1) s with
      dbit := s.dbit + 1#5, dsub := if s.dbit = 15#5 then .latclr else .lat } := by
  simp [dimStep, h]

theorem dimStep_latclr (h : s.dsub = .latclr) :
    dimStep s = { drive (.lat 0#1) s with
      dbit := 0#5
      drep := s.drep + 1#5
      dsub := .lat
      pstate := if s.drep + 1#5 = 24#5 then .idle else s.pstate
      cp := if s.drep + 1#5 = 24#5 then s.cp + 1 else s.cp } := by
  simp only [dimStep, h]
  split <;> rfl

/-- The pop with an item in the queue (R212). -/
theorem popStep_cons {item : Word} {rest : List Word} (h : s.fifo = item :: rest) :
    popStep s = { s with fifo := rest, osr := item.extractLsb' 0 16, scnt := 8#4, sstate := .drive } := by
  simp [popStep, h]

/-- What agent S's step did, by SSTATE. -/
theorem serializerStep_cases :
    (s.sstate = .idle ∧ serializerStep s = popStep s) ∨ (s.sstate = .drive ∧ serializerStep s = driveStep s) ∨
    (s.sstate = .clkhi ∧ serializerStep s = clkhiStep s) ∨ (s.sstate = .clklo ∧ serializerStep s = clkloStep s) := by
  unfold serializerStep
  cases h : s.sstate <;> simp

/-- CMDS inside its written-out part. -/
theorem commandAt_written {n : Nat} (h : n < s.cmds.length) : commandAt s n = some s.cmds[n] := by
  simp [commandAt, h]

/-- CMDS beyond its written-out part. -/
theorem commandAt_rest {n : Nat} (h : s.cmds.length ≤ n) :
    commandAt s n = s.cmdsRest.map fun k => Config.laterCommand k n := by
  simp [commandAt, h]

/-- Where CMDS has a word (R90): inside the written-out part, and everywhere if it is infinite. -/
theorem commandAt_isSome (n : Nat) : (commandAt s n).isSome = true ↔ n < s.cmds.length ∨ s.cmdsRest ≠ none := by
  by_cases h : n < s.cmds.length
  · simp [commandAt_written s h, h]
  · rw [commandAt_rest s (Nat.le_of_not_lt h)]
    simp [h, Option.isSome_iff_ne_none]

/-- Placing a command changes CMDS at CP, and fills a finite list that is shorter with zero words. -/
theorem commandAt_presentCommand (w : Word) (n : Nat) :
    commandAt (presentCommand w s) n =
      if n = s.cp then some w else if n < s.cp then some ((commandAt s n).getD 0#32) else commandAt s n := by
  have hc : (presentCommand w s).cmds = placeCommand w s := rfl
  have hr : (presentCommand w s).cmdsRest = s.cmdsRest := rfl
  unfold commandAt
  rw [hc, hr]
  rcases Nat.lt_trichotomy n s.cp with h | h | h
  · simp [placeCommand, commandAt, h, Nat.ne_of_lt h, List.getElem?_append]
  · simp [placeCommand, h]
  · obtain ⟨d, rfl⟩ : ∃ d, n = s.cp + 1 + d := ⟨n - (s.cp + 1), by omega⟩
    have h1 : ¬ s.cp + 1 + d = s.cp := by omega
    have h2 : ¬ s.cp + 1 + d < s.cp := by omega
    have h3 : s.cp + 1 + d - s.cp = d + 1 := by omega
    simp [placeCommand, h1, h2, h3, List.getElem?_append]

/-- The word that was presented is the next command of agent P, which is between commands. -/
theorem fetch_presentCommand (w : Word) :
    fetchCommand (presentCommand w s) = some w ∧ (presentCommand w s).pstate = .idle := by
  refine ⟨?_, rfl⟩
  change commandAt (presentCommand w s) s.cp = some w
  rw [commandAt_presentCommand, if_pos rfl]

end Sys2Proof.Machine
end

