-- ==== Sys2Proof/Laws/PerInstr.lean ====
section
/-! SUPPORT. The family of per-command lemmas: the word of a command is selected by the command's row of R100. -/

namespace Sys2Proof

/-- The row of the opcode map a command belongs to (R100). -/
def Instr.row : Instr → OpRow
  | .pset _ _ _ _ => rowPSET
  | .pget _ _ _ => rowPGET
  | .pclr _ => rowPCLR
  | .blit => rowBLIT
  | .strd _ _ => rowSTRD
  | .dim _ => rowDIM
  | .start => rowSTART
  | .stat => rowSTAT

namespace Laws.RowSelects

/-- The command's own row selects its word, and the word has the row's opcode. -/
def Statement (i : Instr) : Prop :=
  encode i &&& i.row.mask = i.row.pattern ∧ opcodeOf (encode i) = opcodeOf i.row.pattern

theorem pset (ch : Channel) (x y : BitVec 12) (b : Bit) : Statement (.pset ch x y b) := by
  rw [Statement, encode_pset]
  exact ⟨maskPSET_formatP .., by simp [Instr.row]; decide⟩

theorem pget (ch : Channel) (x y : BitVec 12) : Statement (.pget ch x y) := by
  rw [Statement, encode_pget]
  exact ⟨maskPGET_formatP .., by simp [Instr.row]; decide⟩

theorem pclr (ch : Channel) : Statement (.pclr ch) := by
  rw [Statement, encode_pclr]
  exact ⟨maskPCLR_formatP .., by simp [Instr.row]; decide⟩

theorem blit : Statement .blit := by unfold Statement; decide

theorem strd (g : BitVec 2) (i : BitVec 6) : Statement (.strd g i) := by
  rw [Statement, encode_strd]
  exact ⟨maskSTRD_formatT .., by simp [Instr.row]; decide⟩

theorem dim (level : BitVec 8) : Statement (.dim level) := by
  rw [Statement, encode_dim]
  exact ⟨maskDIM_formatL .., by simp [Instr.row]; decide⟩

theorem start : Statement .start := by unfold Statement; decide

theorem stat : Statement .stat := by unfold Statement; decide

end Laws.RowSelects

end Sys2Proof
end

