-- ==== Sys2Proof/Laws/Step.lean ====
section
/-! SUPPORT. What a step can do, said once: which agent steps and in which state, and the cases of each agent's step. Later
proofs cite these and do not unfold the step functions. -/

namespace Sys2Proof.Machine

variable {s t u : State}

/-- The three agents are all there are. -/
theorem mem_enabledAgents {a : Agent} : a ∈ enabledAgents s ↔ enabled s a = true := by
  cases a <;> simp [enabledAgents]

/-- No agent is selected exactly where none is enabled. -/
theorem selectAgent_none : selectAgent s = none ↔ ∀ a, enabled s a = false := by
  have h : enabledAgents s = [] ↔ ∀ a, enabled s a = false := by
    rw [List.eq_nil_iff_forall_not_mem]
    exact forall_congr' fun a => by rw [mem_enabledAgents]; simp
  rw [← h]
  unfold selectAgent
  split <;> simp_all

/-- A selected agent is enabled, and it steps in the same state but for the count of choices. -/
theorem selectAgent_some {a : Agent} (h : selectAgent s = some (a, u)) :
    enabled s a = true ∧ (u = s ∨ u = choiceMade s) := by
  unfold selectAgent at h
  split at h
  · cases h
  · rename_i b hb
    cases h
    exact ⟨mem_enabledAgents.1 (by rw [hb]; simp), .inl rfl⟩
  · rename_i b c l hb
    cases h
    refine ⟨?_, .inr rfl⟩
    split
    · assumption
    · exact mem_enabledAgents.1 (by rw [hb]; simp)

/-- Where exactly one agent is enabled it is selected, and no choice is made. -/
theorem selectAgent_single {a : Agent} (h : enabledAgents s = [a]) : selectAgent s = some (a, s) := by
  simp [selectAgent, h]

/-- An enabled agent that the schedule wants is selected. -/
theorem selectAgent_wanted (h : enabled s (wanted s) = true) :
    selectAgent s = some (wanted s, s) ∨ selectAgent s = some (wanted s, choiceMade s) := by
  have hm := mem_enabledAgents.2 h
  unfold selectAgent
  split
  · simp_all
  · rename_i b hb
    rw [hb] at hm
    simp at hm
    exact .inl (by rw [hm])
  · rw [if_pos h]
    exact .inr rfl

/-- What a step that answers a next state did (R286). -/
theorem step_cases (h : step s = .next t) :
    paramsOk s.cfg = true ∧
      ((selectAgent s = none ∧ t = s) ∨
        ∃ a u, selectAgent s = some (a, u) ∧ enabled s a = true ∧ (u = s ∨ u = choiceMade s) ∧
          agentStep a u = .next t) := by
  unfold step at h
  split at h
  · refine ⟨by assumption, ?_⟩
    split at h
    · rename_i a u hs
      exact .inr ⟨a, u, hs, (selectAgent_some hs).1, (selectAgent_some hs).2, h⟩
    · cases h
      exact .inl ⟨by assumption, rfl⟩
  · cases h

/-- The guards of the steps do not read the schedule. -/
@[simp] theorem enabled_choiceMade (a : Agent) : enabled (choiceMade s) a = enabled s a := by cases a <;> rfl

/-- What agent P's step did. -/
theorem commandStep_cases (h : commandStep s = .next t) :
    (s.pstate = .idle ∧ fetchCommand s = none ∧ t = s) ∨
      (s.pstate = .idle ∧ ∃ w, fetchCommand s = some w ∧
        ((∃ i, decode w = .ok i ∧ exec i s = .next t) ∨ (∃ e, decode w = .error e ∧ t = illegalWord s))) ∨
      (s.pstate = .blit ∧ t = blitWord s) ∨ (s.pstate = .dim ∧ t = dimStep s) := by
  unfold commandStep at h
  split at h
  · rename_i hp
    split at h
    · rename_i w hw
      refine .inr (.inl ⟨hp, w, hw, ?_⟩)
      unfold runWord at h
      split at h
      · exact .inl ⟨_, by assumption, h⟩
      · cases h
        exact .inr ⟨_, by assumption, rfl⟩
    · cases h
      exact .inl ⟨hp, by assumption, rfl⟩
  · cases h
    exact .inr (.inr (.inl ⟨by assumption, rfl⟩))
  · cases h
    exact .inr (.inr (.inr ⟨by assumption, rfl⟩))

/-- What a command of the opcode table did, by command. -/
theorem exec_cases {i : Instr} (h : exec i s = .next t) :
    (∃ ch x y b, i = .pset ch x y b ∧
      t = nextCommand (if inrange (sext12 x) (sext12 y) then
        { s with pb := pbWrite s.pb (chanIndex ch) (sext12 x).toNat (sext12 y).toNat b } else s)) ∨
    (∃ ch x y, i = .pget ch x y ∧ ∃ v, t = nextCommand (respond v s)) ∨
    (∃ ch, i = .pclr ch ∧ t = nextCommand { s with pb := pbClear s.pb (chanIndex ch) }) ∨
    (i = .blit ∧ t = blitWord { s with ecur := 0#8, pstate := .blit }) ∨
    (∃ g n, i = .strd g n ∧ ((∃ v, t = nextCommand (respond v s)) ∨ t = dropCommand .cmd s)) ∨
    (∃ l, i = .dim l ∧
      ((s.phase = .active ∧ t = dropCommand .phase s) ∨
        (s.phase = .config ∧ 63 < l.toNat ∧ t = dropCommand .level s) ∨
        (s.phase = .config ∧ l.toNat ≤ 63 ∧ t = { s with
          dlevel := l.extractLsb' 0 6, drep := 0#5, dbit := 0#5, dsub := .lat, pstate := .dim }))) ∨
    (i = .start ∧
      ((s.phase = .active ∧ t = dropCommand .phase s) ∨
        (s.phase = .config ∧ t = nextCommand { s with phase := .active, rstate := .adv }))) ∨
    (i = .stat ∧ t = nextCommand (respond (status s) s)) := by
  cases i with
  | pset ch x y b => cases h; exact .inl ⟨ch, x, y, b, rfl, rfl⟩
  | pget ch x y => cases h; exact .inr (.inl ⟨ch, x, y, rfl, _, rfl⟩)
  | pclr ch => cases h; exact .inr (.inr (.inl ⟨ch, rfl, rfl⟩))
  | blit => cases h; exact .inr (.inr (.inr (.inl ⟨rfl, rfl⟩)))
  | strd g n =>
    refine .inr (.inr (.inr (.inr (.inl ⟨g, n, rfl, ?_⟩))))
    change execStrd g n s = _ at h
    unfold execStrd at h
    split at h <;> cases h
    · exact .inl ⟨_, rfl⟩
    · exact .inr rfl
  | dim l =>
    refine .inr (.inr (.inr (.inr (.inr (.inl ⟨l, rfl, ?_⟩)))))
    change execDim l s = _ at h
    unfold execDim at h
    split at h
    · cases h; exact .inl ⟨by assumption, rfl⟩
    · have hc : s.phase = .config := by cases hp : s.phase <;> simp_all
      split at h <;> cases h
      · exact .inr (.inl ⟨hc, by assumption, rfl⟩)
      · exact .inr (.inr ⟨hc, by omega, rfl⟩)
  | start =>
    refine .inr (.inr (.inr (.inr (.inr (.inr (.inl ⟨rfl, ?_⟩))))))
    change execStart s = _ at h
    unfold execStart at h
    split at h <;> cases h
    · exact .inl ⟨by assumption, rfl⟩
    · exact .inr ⟨by cases hp : s.phase <;> simp_all, rfl⟩
  | stat => cases h; exact .inr (.inr (.inr (.inr (.inr (.inr (.inr ⟨rfl, rfl⟩))))))

/-- What agent R's step did, by RSTATE (R172). -/
theorem refreshStep_cases (h : refreshStep s = .next t) :
    (s.rstate = .idle ∧ t = s) ∨ (s.rstate = .adv ∧ t = advStep s) ∨
    (s.rstate = .fetch ∧ ∃ v, stRead s.st s.addr.toNat s.widx.toNat = some v ∧
      t = { s with muxhold := v, rstate := .push }) ∨
    (s.rstate = .push ∧ t = pushStep s) ∨ (s.rstate = .blank ∧ t = blankStep s) ∨
    (s.rstate = .setaddr ∧ t = setaddrStep s) ∨ (s.rstate = .lathi ∧ t = lathiStep s) ∨
    (s.rstate = .latlo ∧ t = latloStep s) ∨ (s.rstate = .unblank ∧ t = unblankStep s) := by
  unfold refreshStep at h
  cases hr : s.rstate <;> rw [hr] at h <;> simp only at h
  case fetch =>
    unfold fetchStep at h
    split at h
    · cases h
      simp_all
    · cases h
  all_goals
    cases h
    simp

/-- A fetch inside the table answers a next state (R191). -/
theorem fetchStep_eq (h : s.widx.toNat < 48) :
    fetchStep s = .next { s with
      muxhold := Memory.read s.st (s.addr.toNat * 48 + s.widx.toNat), rstate := .push } := by
  unfold fetchStep
  rw [stRead_eq s.st (by omega) h]

/-- The last word of a pass ends it, every other does not (R148). -/
theorem blitWord_eq (s : State) :
    blitWord s =
      { s with
        eacc := encWord s.cfg s.pb (s.ecur.toNat / 48) (s.ecur.toNat % 48)
        st := stWrite s.st (s.ecur.toNat / 48) (s.ecur.toNat % 48)
          (encWord s.cfg s.pb (s.ecur.toNat / 48) (s.ecur.toNat % 48))
        ecur := s.ecur + 1#8
        pstate := if s.ecur + 1#8 = 192#8 then .idle else s.pstate
        cp := if s.ecur + 1#8 = 192#8 then s.cp + 1 else s.cp } := by
  unfold blitWord
  simp only [Config.NWORD_eq]
  split <;> rfl

end Sys2Proof.Machine
end

