-- ==== Sys2Proof/Laws/Runs.lean ====
section
/-! SUPPORT. Runs of the block with the primary context done: they exist from every streaming state, and each is fair to
agents R and S under every schedule, because neither agent can step for ever without the other. -/

namespace Sys2Proof.Machine

/-- The refresh loop runs, the primary context is done, and the counters are where the loop keeps them. -/
structure Streaming (s : State) : Prop where
  params : paramsOk s.cfg = true
  noWait : s.cfg.drainWait = false
  done : PrimaryDone s
  active : s.phase = .active
  loop : s.rstate ≠ .idle
  widx : s.rstate = .fetch ∨ s.rstate = .push → s.widx.toNat < 48
  scnt : s.sstate ≠ .idle → 1 ≤ s.scnt.toNat

/-- Steps of agent R from a state to the next push. -/
def stepsToPush : RState → Nat
  | .idle | .push => 0
  | .fetch => 1
  | .adv => 2
  | .unblank => 3
  | .latlo => 4
  | .lathi => 5
  | .setaddr => 6
  | .blank => 7

/-- Bounds the steps of agent R while agent S does not step. -/
def refreshLeft (s : State) : Nat := 10 * (s.cfg.fifoDepth - s.fifo.length) + stepsToPush s.rstate

/-- Bounds the steps of agent S while agent R does not step. -/
def serialLeft (s : State) : Nat :=
  25 * s.fifo.length +
    match s.sstate with
    | .idle => 0
    | .drive => 3 * s.scnt.toNat
    | .clkhi => 3 * s.scnt.toNat - 1
    | .clklo => 3 * s.scnt.toNat - 2

variable {s : State}

theorem Streaming.refresh (h : Streaming s) (he : rEnabled s = true) :
    ∃ t, refreshStep s = .next t ∧ Streaming t ∧ refreshLeft t < refreshLeft s := by
  obtain ⟨hp, hw, hd, ha, hl, hx, hc⟩ := h
  unfold refreshStep
  cases hr : s.rstate with
  | idle => exact absurd hr hl
  | adv => exact ⟨_, rfl, ⟨hp, hw, hd, ha, by simp [advStep], by simp [advStep], hc⟩, by simp [refreshLeft, advStep, stepsToPush, hr]⟩
  | fetch =>
    have := hx (.inl hr)
    refine ⟨_, fetchStep_eq this, ⟨hp, hw, hd, ha, by simp, fun _ => this, hc⟩, ?_⟩
    simp [refreshLeft, stepsToPush, hr]
  | push =>
    have hf : s.fifo.length < s.cfg.fifoDepth := by simpa [rEnabled, hr] using he
    have hn : ((pushStep s).rstate = .fetch ∧ (pushStep s).widx.toNat < 48) ∨ (pushStep s).rstate = .blank := by
      by_cases hlt : (s.widx + 1#6).toNat < Config.NWORD
      · exact .inl ⟨if_pos hlt, hlt⟩
      · exact .inr (if_neg hlt)
    refine ⟨_, rfl, ⟨hp, hw, hd, ha, ?_, ?_, hc⟩, ?_⟩
    · rcases hn with ⟨h, -⟩ | h <;> simp [h]
    · rcases hn with ⟨-, h⟩ | h <;> simp [h]
    · have h7 : stepsToPush (pushStep s).rstate ≤ 7 := by
        rcases hn with ⟨h, -⟩ | h <;> simp [h, stepsToPush]
      have hlen : (pushStep s).fifo.length = s.fifo.length + 1 := by simp [pushStep]
      have hcfg : (pushStep s).cfg = s.cfg := by simp [pushStep]
      unfold refreshLeft
      rw [hlen, hcfg]
      omega
  | blank => exact ⟨_, rfl, ⟨hp, hw, hd, ha, by simp [blankStep], by simp [blankStep], hc⟩, by simp [refreshLeft, blankStep, stepsToPush, hr]⟩
  | setaddr => exact ⟨_, rfl, ⟨hp, hw, hd, ha, by simp [setaddrStep], by simp [setaddrStep], hc⟩, by simp [refreshLeft, setaddrStep, stepsToPush, hr]⟩
  | lathi => exact ⟨_, rfl, ⟨hp, hw, hd, ha, by simp [lathiStep], by simp [lathiStep], hc⟩, by simp [refreshLeft, lathiStep, stepsToPush, hr]⟩
  | latlo => exact ⟨_, rfl, ⟨hp, hw, hd, ha, by simp [latloStep], by simp [latloStep], hc⟩, by simp [refreshLeft, latloStep, stepsToPush, hr]⟩
  | unblank => exact ⟨_, rfl, ⟨hp, hw, hd, ha, by simp [unblankStep], by simp [unblankStep], hc⟩, by simp [refreshLeft, unblankStep, stepsToPush, hr]⟩

theorem Streaming.serial (h : Streaming s) (he : sEnabled s = true) :
    Streaming (serializerStep s) ∧ serialLeft (serializerStep s) < serialLeft s := by
  obtain ⟨hp, hw, hd, ha, hl, hx, hc⟩ := h
  unfold serializerStep
  cases hs : s.sstate with
  | idle =>
    obtain ⟨item, rest, hf⟩ : ∃ item rest, s.fifo = item :: rest := by
      cases hf : s.fifo with
      | nil => simp [sEnabled, hs, hf] at he
      | cons item rest => exact ⟨item, rest, rfl⟩
    simp only [popStep_cons s hf]
    exact ⟨⟨hp, hw, hd, ha, hl, hx, by simp⟩, by simp [serialLeft, hf, hs]; omega⟩
  | drive =>
    have h1 := hc (by simp [hs])
    exact ⟨⟨hp, hw, hd, ha, hl, hx, fun _ => h1⟩, by simp [serialLeft, driveStep, hs]; omega⟩
  | clkhi =>
    have h1 := hc (by simp [hs])
    exact ⟨⟨hp, hw, hd, ha, hl, hx, fun _ => h1⟩, by simp [serialLeft, clkhiStep, hs]; omega⟩
  | clklo =>
    have h1 := hc (by simp [hs])
    have h2 : (s.scnt - 1#4).toNat = s.scnt.toNat - 1 := by
      have := s.scnt.isLt
      simp only [BitVec.toNat_sub, BitVec.toNat_ofNat]
      omega
    by_cases h0 : s.scnt - 1#4 = 0#4
    · have hk : clkloStep s = { drive (.clk 0#1) s with scnt := s.scnt - 1#4, sstate := .idle } := by
        simp [clkloStep, h0]
      simp only [hk]
      exact ⟨⟨hp, hw, hd, ha, hl, hx, by simp⟩, by simp [serialLeft, hs]; omega⟩
    · have hk : clkloStep s = { drive (.clk 0#1) s with scnt := s.scnt - 1#4, sstate := .drive } := by
        simp [clkloStep, h0]
      have h3 : 1 ≤ (s.scnt - 1#4).toNat := by
        by_contra hlt
        exact h0 (BitVec.eq_of_toNat_eq (by simpa using (by omega : (s.scnt - 1#4).toNat = 0)))
      simp only [hk]
      exact ⟨⟨hp, hw, hd, ha, hl, hx, fun _ => h3⟩, by simp [serialLeft, hs]; omega⟩

theorem Streaming.noCommand (h : Streaming s) : pEnabled s = false := by
  have := h.done
  simp [PrimaryDone] at this
  simp [pEnabled, fetchCommand, commandAt, this]

theorem Streaming.someEnabled (h : Streaming s) : ∃ a, enabled s a = true := by
  by_cases hr : rEnabled s = true
  · exact ⟨.R, hr⟩
  · refine ⟨.S, ?_⟩
    have hd := ((paramsOk_iff _).1 h.params).1
    have hl := h.loop
    have hw := h.noWait
    have ha := h.active
    simp only [enabled]
    have hpush : ¬ s.fifo.length < s.cfg.fifoDepth := by
      intro hlt
      apply hr
      unfold rEnabled
      cases hrs : s.rstate <;> simp_all
    have hne : s.fifo ≠ [] := by
      intro hnil
      simp [hnil] at hpush
      omega
    unfold sEnabled
    cases s.sstate <;> simp [ha, hne]

/-- A step of a streaming state is a step of agent R or of agent S, and leaves a streaming state. -/
theorem Streaming.step (h : Streaming s) :
    ∃ t, Machine.step s = .next t ∧ Streaming t ∧
      ((Steps .R s ∧ refreshLeft t < refreshLeft s) ∨ (Steps .S s ∧ serialLeft t < serialLeft s)) := by
  obtain ⟨b, hb⟩ := h.someEnabled
  cases hsel : selectAgent s with
  | none => rw [selectAgent_none.1 hsel b] at hb; cases hb
  | some p =>
    obtain ⟨a, u⟩ := p
    have hstep : Machine.step s = agentStep a u := by unfold Machine.step; rw [if_pos h.params, hsel]
    obtain ⟨he, hu⟩ := selectAgent_some hsel
    have hus : Streaming u := by rcases hu with rfl | rfl <;> exact ⟨h.1, h.2, h.3, h.4, h.5, h.6, h.7⟩
    have hue : enabled u a = true := by rcases hu with rfl | rfl <;> simpa using he
    have hr : refreshLeft u = refreshLeft s := by rcases hu with rfl | rfl <;> rfl
    have hc : serialLeft u = serialLeft s := by rcases hu with rfl | rfl <;> rfl
    rw [hstep]
    cases a with
    | P => rw [show enabled u .P = pEnabled u from rfl, hus.noCommand] at hue; cases hue
    | R =>
      obtain ⟨t, ht, hs', hm⟩ := hus.refresh hue
      exact ⟨t, ht, hs', .inl ⟨⟨u, hsel⟩, hr ▸ hm⟩⟩
    | S => exact ⟨_, rfl, (hus.serial hue).1, .inr ⟨⟨u, hsel⟩, hc ▸ (hus.serial hue).2⟩⟩

/-- Agent P's step always answers a next state. -/
theorem commandStep_next (s : State) : ∃ t, commandStep s = .next t := by
  unfold commandStep
  cases s.pstate with
  | idle =>
    cases fetchCommand s with
    | none => exact ⟨_, rfl⟩
    | some w =>
      simp only [runWord]
      cases decode w with
      | error e => exact ⟨_, rfl⟩
      | ok i =>
        cases i with
        | strd g n => simp only [exec, execStrd]; split <;> exact ⟨_, rfl⟩
        | dim l => simp only [exec, execDim]; split <;> [skip; split] <;> exact ⟨_, rfl⟩
        | start => simp only [exec, execStart]; split <;> exact ⟨_, rfl⟩
        | pset ch x y b => exact ⟨_, rfl⟩
        | pget ch x y => exact ⟨_, rfl⟩
        | pclr ch => exact ⟨_, rfl⟩
        | blit => exact ⟨_, rfl⟩
        | stat => exact ⟨_, rfl⟩
  | blit => exact ⟨_, rfl⟩
  | dim => exact ⟨_, rfl⟩

/-- Any number of steps of agent P alone end in a state. -/
theorem agentRun_command (n : Nat) (s : State) : ∃ t, agentRun .P n s = .next t := by
  induction n generalizing s with
  | zero => exact ⟨s, rfl⟩
  | succ n ih =>
    obtain ⟨t, ht⟩ := commandStep_next s
    simpa [agentRun, agentStep, ht] using ih t

/-- The run of a state: each state answers the next, and a state that answers none stays. -/
def runOf (s : State) : Nat → State
  | 0 => s
  | n + 1 =>
    match Machine.step (runOf s n) with
    | .next t => t
    | .fault _ | .refused _ => runOf s n

/-- No quantity falls at every index. -/
theorem not_falls_forever (f : Nat → Nat) (n : Nat) : ¬ ∀ m, n ≤ m → f (m + 1) < f m := by
  intro h
  have : ∀ k, f (n + k) + k ≤ f n := by
    intro k
    induction k with
    | zero => simp
    | succ k ih => have h1 := h (n + k) (by omega); rw [Nat.add_assoc] at h1; omega
  have := this (f n + 1)
  omega

/-- The run of a streaming state is a run, and fair to agents R and S. -/
theorem Streaming.fairRun (h : Streaming s) :
    IsRun (runOf s) ∧ WeaklyFair .R (runOf s) ∧ WeaklyFair .S (runOf s) := by
  have hs : ∀ n, Streaming (runOf s n) := by
    intro n
    induction n with
    | zero => exact h
    | succ n ih =>
      obtain ⟨t, ht, hst, -⟩ := ih.step
      simpa [runOf, ht] using hst
  have hn : ∀ n, Machine.step (runOf s n) = .next (runOf s (n + 1)) ∧
      ((Steps .R (runOf s n) ∧ refreshLeft (runOf s (n + 1)) < refreshLeft (runOf s n)) ∨
        (Steps .S (runOf s n) ∧ serialLeft (runOf s (n + 1)) < serialLeft (runOf s n))) := by
    intro n
    obtain ⟨t, ht, -, hm⟩ := (hs n).step
    have : runOf s (n + 1) = t := by simp [runOf, ht]
    rw [this]
    exact ⟨ht, hm⟩
  refine ⟨fun n => (hn n).1, fun n _ => ?_, fun n _ => ?_⟩
  · by_contra hno
    push Not at hno
    refine not_falls_forever (fun m => serialLeft (runOf s m)) n fun m hm => ?_
    rcases (hn m).2 with ⟨hR, -⟩ | ⟨-, hf⟩
    · exact absurd hR (hno m hm)
    · exact hf
  · by_contra hno
    push Not at hno
    refine not_falls_forever (fun m => refreshLeft (runOf s m)) n fun m hm => ?_
    rcases (hn m).2 with ⟨-, hf⟩ | ⟨hS, -⟩
    · exact hf
    · exact absurd hS (hno m hm)

end Sys2Proof.Machine
end

