-- ==== Sys2Proof/Tests/Slice0.lean ====
section
/-! SUPPORT. Tests: words and values taken from the spec's worked examples (95_test_vectors) or worked out from its rules
by hand, and for each obligation with hypotheses a state and operands that meet them. -/

namespace Sys2Proof.Tests

open Sys2Proof.Machine

/-! ### Small states -/

/-- A machine with a queue of two items, in CONFIG, with these commands presented. -/
def conf (ws : List Word) : State := { State.resetFor (Params.default 2) with cmds := ws }

/-- The state after one step, the same state where there is none. -/
def next1 (s : State) : State :=
  match step s with
  | .next t => t
  | .fault _ | .refused _ => s

/-- ACTIVE at an iteration boundary, with these commands presented. -/
def active (ws : List Word) : State := { conf ws with phase := .active, rstate := .adv }

/-- ACTIVE with agent R waiting at the last push of an iteration, the queue full, and agent S at the first pair of an
item. -/
def pushing : State :=
  { active [] with
    rstate := .push, widx := 47#6, muxhold := 0xABCD#16, fifo := [1#32, 0xFFFF8001#32]
    sstate := .drive, osr := 0xE41B#16, scnt := 8#4 }

/-- Inside the last word of a BLIT pass; only pixel (blue, 0, 0) is lit. -/
def lastWord : State :=
  { conf [0x40000000#32] with pb := [(0, 1#1)], st := [(0, 0x8000#16)], pstate := .blit, ecur := 191#8 }

/-- At the last sub-step of the brightness sequence. -/
def lastSubstep : State :=
  { conf [0x60000025#32] with
    pstate := .dim, dlevel := 37#6, drep := 23#5, dbit := 16#5, dsub := .latclr
    pins := { Pins.reset with lat := 1#1, data := 3#2 }
    trace := [.data 3#2, .lat 1#1] }

/-! ### Well-formedness and decoding -/

theorem test_wf_strd_48_refused : (Instr.strd 0#2 48#6).wf = false := by decide
theorem test_wf_strd_47 : (Instr.strd 3#2 47#6).wf = true := by decide

/-- 95 section 2 and R95: opcode 0001, ch 10, b 1, mbz 0, x 000000101010, y 000000001011. -/
theorem test_decode_pset :
    decode 0b00011010000000101010000000001011#32 = .ok (.pset .red 42#12 11#12 1#1) := by decide
/-- 95 section 2: x = 0x800 is −2048; b 0 in the second word. -/
theorem test_decode_pset_signs :
    decode 0x12800000#32 = .ok (.pset .blue 0x800#12 0#12 1#1) ∧
    decode 0x10FFFFFF#32 = .ok (.pset .blue 0xFFF#12 0xFFF#12 0#1) := by decide
theorem test_decode_pget :
    decode 0b00100100000000001101000000000110#32 = .ok (.pget .green 13#12 6#12) := by decide
theorem test_decode_pclr : decode 0b00111000000000000000000000000000#32 = .ok (.pclr .red) := by decide
theorem test_decode_blit : decode 0b01000000000000000000000000000000#32 = .ok .blit := by decide
/-- 95 section 2: STRD 3, 34. -/
theorem test_decode_strd : decode 0b01010000000000000000000011100010#32 = .ok (.strd 3#2 34#6) := by decide
theorem test_decode_dim : decode 0b01100000000000000000000011111111#32 = .ok (.dim 255#8) := by decide
theorem test_decode_start : decode 0b01110000000000000000000000000000#32 = .ok .start := by decide
theorem test_decode_stat : decode 0b10000000000000000000000000000000#32 = .ok .stat := by decide
/-- The illegal words of 95 section 2. -/
theorem test_decode_illegal :
    ([0x00000000#32, 0x90000000#32, 0xF0000000#32, 0xFFFFFFFF#32, 0x1E000000#32, 0x13000000#32, 0x11000000#32,
      0x22000000#32, 0x2A000000#32, 0x30000001#32, 0x32000000#32, 0x3C000000#32, 0x40000001#32, 0x50000030#32,
      0x5000003F#32, 0x50000100#32, 0x60000100#32, 0x70000001#32, 0x80000001#32].all fun w =>
        (decode w).toOption.isNone) = true := by decide
theorem test_decode_reasons :
    decode 0x00000000#32 = .error .undefinedOpcode ∧ decode 0x11000000#32 = .error .nonzeroMbz ∧
    decode 0x1E000000#32 = .error .reservedChannel ∧ decode 0x50000030#32 = .error .wordIndex := by decide
/-- Two words that two rows of the opcode map select, each one row only. -/
theorem test_rows_select : rowPSET.selects 0x1A02A00B#32 = true ∧ rowSTRD.selects 0x500000EF#32 = true := by decide
/-- The table's numbering of a one-word command (decodeTableWord), and more bits than a command has. -/
theorem test_decodeTableWord :
    decodeTableWord 32 0x500000EF = some (.strd 3#2 47#6) ∧ decodeTableWord 32 0x50000030 = none ∧
    decodeTableWord 40 0x80000000 = none := by decide

/-! ### Assembly (R105, R106) -/

theorem test_assemble_pset :
    assembleLine "PSET G, -1, 5, 1 ; out of range".toList = some [0x16FFF005#32] := by decide
theorem test_assemble_clrall :
    assembleLine "CLRALL".toList = some [0x30000000#32, 0x34000000#32, 0x38000000#32] := by decide
theorem test_assemble_refuses :
    assembleLine "PSET R, 2048, 0, 1".toList = none ∧ assembleLine "STRD 0, 64".toList = none ∧
    assembleLine "STRD 0, 63".toList = some [0x5000003F#32] ∧ assembleLine "DIM 256".toList = none ∧
    assembleLine "WORD 0x1E000000".toList = some [0x1E000000#32] := by decide

/-! ### One step of each command -/

/-- 95 section 3: the last pixel in range. -/
theorem test_pset_last_pixel :
    pbRead (next1 (conf [0x1203F00F#32])).pb 0 63 15 = 1#1 ∧ (next1 (conf [0x1203F00F#32])).pb.length = 1 ∧
    (next1 (conf [0x1203F00F#32])).cp = 1 := by decide
/-- 95 section 3: x = 64, y = 16 and y = −1 leave PB and the flags. -/
theorem test_pset_out_of_range :
    ([0x12040000#32, 0x12000010#32, 0x12000FFF#32].all fun w =>
      decide ((next1 (conf [w])).pb = [] ∧ (next1 (conf [w])).flags = Flags.reset ∧ (next1 (conf [w])).cp = 1)) =
    true := by decide
/-- 95 section 3. -/
theorem test_pget :
    (next1 { conf [0x2400D006#32] with pb := pbWrite [] 1 13 6 1#1 }).rsp = [1#32] ∧
    (next1 { conf [0x2800D006#32] with pb := pbWrite [] 1 13 6 1#1 }).rsp = [0#32] := by decide
theorem test_pget_out_of_range :
    (next1 (conf [0x20FFFFFF#32])).rsp = [0#32] ∧ (next1 (conf [0x20FFFFFF#32])).flags = Flags.reset := by decide
/-- 95 section 3: PCLR touches one plane. -/
theorem test_pclr :
    (next1 { conf [0x34000000#32] with pb := pbWrite (pbWrite [] 1 13 6 1#1) 2 42 11 1#1 }).pb =
      pbWrite [] 2 42 11 1#1 := by decide
/-- R147: the first step writes word 0; blue (0, 0) is its bit 15 (95 section 4). -/
theorem test_blit_first_step :
    (next1 { conf [0x40000000#32] with pb := pbWrite [] 0 0 0 1#1 }).st = [(0, 0x8000#16)] ∧
    (next1 (conf [0x40000000#32])).ecur = 1#8 ∧ (next1 (conf [0x40000000#32])).cp = 0 := by decide
/-- R148, R146: the last word is ST[3][47], whose bit 0 is red (63, 15). -/
theorem test_blit_last_step :
    stRead (next1 { lastWord with pb := pbWrite [] 2 63 15 1#1 }).st 3 47 = some 0x0001#16 ∧
    (next1 lastWord).pstate = .idle ∧ (next1 lastWord).cp = 1 := by decide
theorem test_strd :
    (next1 { conf [0x500000EF#32] with st := [(191, 0xABCD#16)] }).rsp = [0x0000ABCD#32] := by decide
/-- 95 section 2: STRD 0, 48. -/
theorem test_strd_48 :
    (next1 (conf [0x50000030#32])).rsp = [] ∧ status (next1 (conf [0x50000030#32])) = 2#32 := by decide
theorem test_dim_accepted :
    (next1 (conf [0x60000025#32])).dlevel = 37#6 ∧ (next1 (conf [0x60000025#32])).pstate = .dim ∧
    (next1 (conf [0x60000025#32])).cp = 0 := by decide
/-- 95 section 8: DIM 64 in CONFIG, DIM 200 in ACTIVE. -/
theorem test_dim_rejected :
    status (next1 (conf [0x60000040#32])) = 4#32 ∧ (next1 (conf [0x60000040#32])).trace = [] ∧
    status (next1 { active [0x600000C8#32] with sched := [.P] }) = 9#32 := by decide
/-- 95 section 8: START, and START again. -/
theorem test_start :
    status (next1 (conf [0x70000000#32])) = 1#32 ∧ (next1 (conf [0x70000000#32])).rstate = .adv ∧
    status (next1 { active [0x70000000#32] with sched := [.P] }) = 9#32 := by decide
theorem test_stat :
    (next1 { conf [0x80000000#32] with flags := ⟨1#1, 1#1, 0#1⟩ }).rsp = [6#32] ∧
    (next1 { conf [0x80000000#32] with flags := ⟨1#1, 1#1, 0#1⟩ }).flags = ⟨1#1, 1#1, 0#1⟩ := by decide
/-- 95 section 8: an illegal word in ACTIVE. -/
theorem test_illegal :
    status (next1 { active [0x60000100#32] with sched := [.P] }) = 3#32 ∧
    (next1 { active [0x60000100#32] with sched := [.P] }).cp = 1 := by decide
/-- A word placed for the step after reset is run by it; also in an infinite list, beyond its written-out part. -/
theorem test_withFetchWord :
    (next1 (State.reset.withFetchWord 32 0x80000000)).rsp = [0#32] ∧
    (next1 (State.reset.withFetchWord 32 0x70000000)).phase = .active ∧
    status (next1 ((active []).withFetchWord 32 0x00000000)) = 3#32 ∧
    (next1 ({ conf [] with cmdsRest := some 7, cp := 2 }.withFetchWord 32 0x80000000)).rsp = [0#32] := by decide

/-! ### The written-out values -/

/-- 95 section 4, seven rows: the single word that holds the pixel. -/
theorem test_encWord :
    encWord (Params.default 1) (pbWrite [] 2 7 0 1#1) 0 4 = 0x0002#16 ∧
    encWord (Params.default 1) (pbWrite [] 2 63 0 1#1) 0 46 = 0x0002#16 ∧
    encWord (Params.default 1) (pbWrite [] 2 0 12 1#1) 0 5 = 0x4000#16 ∧
    encWord (Params.default 1) (pbWrite [] 0 63 15 1#1) 3 43 = 0x0001#16 ∧
    encWord (Params.default 1) (pbWrite [] 1 13 6 1#1) 2 9 = 0x0020#16 ∧
    encWord (Params.default 1) (pbWrite [] 2 42 11 1#1) 3 34 = 0x0400#16 ∧
    encWord (Params.default 1) (pbWrite [] 0 17 3 1#1) 3 12 = 0x2000#16 := by decide
/-- 95 section 4, the other settings of COL_REVERSE and SLOT_SWAP. -/
theorem test_encWord_parameters :
    encWord { Params.default 1 with colReverse := true, slotSwap := true } (pbWrite [] 2 0 0 1#1) 0 4 = 0x0001#16 ∧
    encWord { Params.default 1 with colReverse := true } (pbWrite [] 2 0 0 1#1) 0 4 = 0x0002#16 ∧
    encWord { Params.default 1 with slotSwap := true } (pbWrite [] 2 0 0 1#1) 0 4 = 0x4000#16 := by decide
/-- 95 section 7. -/
theorem test_dimFrame :
    dimFrame 0#6 = 0x7140#16 ∧ dimFrame 63#6 = 0x717F#16 ∧ dimFrame 37#6 = 0x7165#16 ∧ dimFrame 5#6 = 0x7145#16 := by
  decide
/-- 95 section 7: one repetition of DIM 37, the DATA values and the place of (LAT, 1). -/
theorem test_dimRepEvents :
    ((dimRepEvents 12 0x7165#16).filterMap fun e => match e with | .data v => some v.toNat | _ => none) =
      [0, 3, 3, 3, 0, 0, 0, 3, 0, 3, 3, 0, 0, 3, 0, 3] ∧
    (dimRepEvents 12 0x7165#16)[36]? = some (.lat 1#1) ∧ (dimRepEvents 11 0x7165#16)[33]? = some (.lat 1#1) ∧
    (dimRepEvents 12 0x7165#16).length = 50 := by decide
/-- 95 section 5: item 0xABCDE41B. -/
theorem test_itemEvents :
    ((itemEvents ((0xABCDE41B#32 : Word).extractLsb' 0 16)).filterMap fun e =>
      match e with | .data v => some v.toNat | _ => none) = [3, 2, 1, 0, 0, 1, 2, 3] := by decide

/-! ### States of the invariant -/

theorem test_inv_conf : Inv (conf [0x60000025#32]) := by constructor <;> decide
theorem test_inv_quiet : Inv (conf []) := by constructor <;> decide
theorem test_inv_active : Inv (active [0x40000000#32]) := by constructor <;> decide
theorem test_inv_pushing : Inv pushing := by constructor <;> decide
theorem test_inv_lastWord : Inv lastWord := by constructor <;> decide
theorem test_inv_lastSubstep : Inv lastSubstep := by constructor <;> decide

/-- The panel blanked, the address about to change. -/
def addressing : State :=
  { active [] with
    rstate := .setaddr, addr := 0#2, widx := 48#6, pins := { Pins.reset with a := 3#2 }
    trace := [.oe 1#1] }

/-- LAT high in the latcher's pulse. -/
def latched : State :=
  { active [] with rstate := .latlo, widx := 48#6, pins := { Pins.reset with lat := 1#1 } }

/-- The same after reset's address, visible and at the blank step, with nothing left to shift, DRAIN_WAIT on. -/
def blanking : State :=
  { active [] with
    cfg := { Params.default 2 with drainWait := true }, rstate := .blank, widx := 48#6
    pins := { Pins.reset with oe := 0#1 } }

theorem test_inv_addressing : Inv addressing := by constructor <;> decide
theorem test_inv_latched : Inv latched := by constructor <;> decide
theorem test_inv_blanking : Inv blanking := by constructor <;> decide

/-- A state in which agents R and S both have an enabled step that drives a pin. -/
def bothDrive : State := { addressing with sstate := .drive, osr := 0xE41B#16, scnt := 8#4 }

theorem test_inv_bothDrive : Inv bothDrive := by constructor <;> decide

/-! ### Hypotheses met: encoding -/

theorem test_meets_DecodeOfEncode : (Instr.strd 3#2 47#6).wf = true ∧ (Instr.pset .red 42#12 0x800#12 0#1).wf = true := by
  decide
theorem test_meets_EncodeOfDecode : decode 0x500000EF#32 = .ok (.strd 3#2 47#6) := by decide
theorem test_meets_OpcodeMapDecides : rowDIM ∈ opRows ∧ rowDIM.selects 0x600000FF#32 = true := by decide
theorem test_meets_IllegalWordsDropped : decode 0x50000030#32 = .error .wordIndex := by decide

/-! ### Hypotheses met: the step -/

/-- The only enabled agent; the wanted agent of two; an illegal word. -/
theorem test_meets_StepRunsDecodedCommand :
    (paramsOk (conf [0x40000000#32]).cfg = true ∧ (conf [0x40000000#32]).pstate = .idle ∧
      commandAt (conf [0x40000000#32]) (conf [0x40000000#32]).cp = some 0x40000000#32 ∧
      selectAgent (conf [0x40000000#32]) = some (.P, conf [0x40000000#32]) ∧ decode 0x40000000#32 = .ok .blit ∧
      rEnabled (conf [0x40000000#32]) = false ∧ sEnabled (conf [0x40000000#32]) = false) ∧
    (let s := { active [0x60000100#32] with sched := [.P] }
     paramsOk s.cfg = true ∧ s.pstate = .idle ∧ commandAt s s.cp = some 0x60000100#32 ∧
      selectAgent s = some (.P, choiceMade s) ∧ decode 0x60000100#32 = .error .nonzeroMbz) := by decide
theorem test_meets_AnyEnabledAgentMayStep :
    (∃ t, step (conf []) = .next t) ∧ (∃ t, step addressing = .next t) ∧
    paramsOk bothDrive.cfg = true ∧ enabled bothDrive .R = true ∧ enabled bothDrive .S = true :=
  ⟨⟨_, rfl⟩, ⟨_, rfl⟩, by decide, by decide, by decide⟩
theorem test_meets_InvariantAtReset : paramsOk (Params.default 1) = true := by decide
/-- A step of each agent from a state of the invariant, and the waiting step. -/
theorem test_meets_InvariantKept :
    (Inv lastWord ∧ ∃ t, step lastWord = .next t) ∧ (Inv lastSubstep ∧ ∃ t, step lastSubstep = .next t) ∧
    (Inv addressing ∧ ∃ t, step addressing = .next t) ∧ (Inv pushing ∧ ∃ t, step pushing = .next t) ∧
    (Inv (conf []) ∧ ∃ t, step (conf []) = .next t) :=
  ⟨⟨test_inv_lastWord, _, rfl⟩, ⟨test_inv_lastSubstep, _, rfl⟩, ⟨test_inv_addressing, _, rfl⟩,
    ⟨test_inv_pushing, _, rfl⟩, ⟨test_inv_quiet, _, rfl⟩⟩
theorem test_meets_NeverFaultsNorRefuses : Inv pushing := test_inv_pushing
/-- Each side of the refusal, at the boundary: LAT_ASSERT_BIT 16 and 15. -/
theorem test_meets_OnlyBadParametersRefused :
    step { conf [] with cfg := { Params.default 2 with latAssertBit := 16 } } = .refused .badParameters ∧
    step { conf [] with cfg := { Params.default 2 with latAssertBit := 15 } } =
      .next { conf [] with cfg := { Params.default 2 with latAssertBit := 15 } } ∧
    step { conf [] with cfg := Params.default 0 } = .refused .badParameters := ⟨rfl, rfl, rfl⟩
theorem test_meets_ResetFromAnyState : paramsOk pushing.cfg = true := by decide

/-! ### Hypotheses met: pixels -/

/-- In range at (63, 15), out of range at (64, 15), (63, 16) and (−1, 0), over a PB in canonical form. -/
theorem test_meets_PsetWritesOnePixel :
    Memory.wf lastWord.pb ∧ (0 ≤ (63#12).toInt ∧ (63#12).toInt < 64 ∧ 0 ≤ (15#12).toInt ∧ (15#12).toInt < 16) ∧
    ¬ ((64#12).toInt < 64) ∧ ¬ ((16#12).toInt < 16) ∧ ¬ (0 ≤ (0xFFF#12).toInt) ∧
    (0 : Nat) ≠ pixelKey (chanIndex .red) (63#12).toInt.toNat (15#12).toInt.toNat := by decide
theorem test_meets_PgetRespondsPixel :
    (0 ≤ (63#12).toInt ∧ (63#12).toInt < 64 ∧ 0 ≤ (15#12).toInt ∧ (15#12).toInt < 16) ∧
    ¬ ((64#12).toInt < 64) := by decide
theorem test_meets_PclrClearsOnePlane : (63 : Nat) < 64 ∧ (15 : Nat) < 16 := by decide
theorem test_meets_PixelFamilyLaws :
    Memory.wf lastWord.pb ∧ inrange (63#12).toInt (15#12).toInt = true ∧
    (Channel.red, 63#12, 15#12) ≠ (Channel.red, 64#12, 15#12) ∧
    ∃ t, exec (.pset .red 63#12 15#12 1#1) lastWord = .next t :=
  ⟨by decide, by decide, by decide, _, rfl⟩

/-! ### Hypotheses met: encoder -/

/-- A plane of 1s reads as 1. -/
theorem read_ones (a n k : Nat) (h : a ≤ k ∧ k < a + n) :
    Memory.read ((List.range' a n).map fun j => (j, 1#1)) k = 1#1 := by
  induction n generalizing a with
  | zero => omega
  | succ n ih =>
    simp only [List.range'_succ, List.map_cons, Memory.read_cons]
    split
    · rfl
    · exact ih (a + 1) (by omega)

/-- Word (3, 47) with k = 7; the zero plane; and a plane of 1s. -/
theorem test_meets_EncWordDefaultBits :
    ((3 : Nat) < 4 ∧ (47 : Nat) < 48 ∧ (7 : Nat) < 8) ∧
    (∀ x y, x < 64 → y < 16 → pbRead [] (47 % 6 / 2) x y = 0#1) ∧
    (∀ x y, x < 64 → y < 16 → pbRead ((List.range' 2048 1024).map fun j => (j, 1#1)) (47 % 6 / 2) x y = 1#1) :=
  ⟨by decide, fun _ _ _ _ => rfl, fun x y hx hy => read_ones 2048 1024 _ (by simp only [pixelKey]; omega)⟩
/-- The same planes serve, with every parameter off its default. -/
theorem test_meets_EncWordGeneralPairs :
    paramsOk { Params.default 2 with
      rowSel := ⟨12, 4, 8, 0⟩, colReverse := true, colbyteReverse := true, slotSwap := true } = true ∧
    (3 : Nat) < 4 ∧ (47 : Nat) < 48 ∧ (7 : Nat) < 8 := by decide
theorem test_meets_PixelAtOneBitOfTable :
    ((2 : Nat) < 3 ∧ (63 : Nat) < 64 ∧ (15 : Nat) < 16) ∧ ((3 : Nat) < 4 ∧ (47 : Nat) < 48 ∧ (15 : Nat) < 16) := by
  decide
/-- Two pixel buffers that agree on blue and differ on red; a buffer with only a blue pixel and a red word. -/
theorem test_meets_WordDependsOnOwnChannel :
    paramsOk { Params.default 2 with colReverse := true } = true ∧ chanIndex .blue = 42 % 6 / 2 ∧
    (∀ x y, x < 64 → y < 16 → pbRead [(1023, 1#1)] (chanIndex .blue) x y =
      pbRead [(1023, 1#1), (3071, 1#1)] (chanIndex .blue) x y) ∧
    (∀ ch x y, ch ≠ Channel.blue → x < 64 → y < 16 → pbRead [(1023, 1#1)] (chanIndex ch) x y = 0#1) ∧
    2 ≤ 47 % 6 := by
  refine ⟨by decide, by decide, fun x y hx hy => ?_, fun ch x y hch hx hy => ?_, by decide⟩
  · have : (3071 : Nat) ≠ pixelKey (chanIndex .blue) x y := by simp [pixelKey, chanIndex, Channel.code]; omega
    simp [pbRead, Memory.read, this]
  · have : (1023 : Nat) ≠ pixelKey (chanIndex ch) x y := by
      cases ch <;> simp_all [pixelKey, chanIndex, Channel.code] <;> omega
    simp [pbRead, Memory.read, this]
theorem test_meets_BlitTakesFirstWordStep : Memory.wf lastWord.st := by decide
/-- The last word step and one inside the pass. -/
theorem test_meets_BlitWordStep :
    (lastWord.pstate = .blit ∧ lastWord.ecur.toNat = 191 ∧ lastWord.ecur.toNat < 192 ∧ Memory.wf lastWord.st) ∧
    ({ lastWord with ecur := 190#8 } : State).ecur.toNat < 191 := by decide
theorem test_progress_lastWord : BlitProgress lastWord := fun _ => by decide +kernel
theorem test_meets_BlitProgressKept :
    Inv lastWord ∧ BlitProgress lastWord ∧ ∃ t, step lastWord = .next t :=
  ⟨test_inv_lastWord, test_progress_lastWord, _, rfl⟩
theorem test_meets_BlitEndsWithTableEncoded :
    Inv lastWord ∧ BlitProgress lastWord ∧ lastWord.pstate = .blit ∧ ∃ t, step lastWord = .next t ∧ t.pstate = .idle :=
  ⟨test_inv_lastWord, test_progress_lastWord, rfl, _, rfl, by decide⟩
theorem test_meets_BlitRunEncodesWholeTable :
    (active [0x40000000#32]).pstate = .idle ∧ commandAt (active [0x40000000#32]) (active [0x40000000#32]).cp =
      some 0x40000000#32 ∧ decode 0x40000000#32 = .ok .blit ∧ Memory.wf (active [0x40000000#32]).st := by decide
theorem test_meets_SecondBlitChangesNothing :
    let s := { conf [0x40000000#32, 0x40000000#32] with pb := [(0, 1#1)], st := [(5, 7#16)] }
    s.pstate = .idle ∧ Memory.wf s.st ∧ commandAt s s.cp = some 0x40000000#32 ∧
      commandAt s (s.cp + 1) = some 0x40000000#32 ∧ decode 0x40000000#32 = .ok .blit ∧
      ∃ t u, agentRun .P 192 s = .next t ∧ agentRun .P 192 t = .next u := by
  intro s
  obtain ⟨t, ht⟩ := agentRun_command 192 s
  obtain ⟨u, hu⟩ := agentRun_command 192 t
  exact ⟨rfl, by decide, rfl, rfl, rfl, t, u, ht, hu⟩
/-- The boundary of the index: 47 and 48. -/
theorem test_meets_StrdRespondsScanWord : (47#6).toNat < 48 ∧ 48 ≤ (48#6).toNat := by decide

/-! ### Hypotheses met: brightness -/

/-- Levels 63 and 64 in CONFIG, and ACTIVE. -/
theorem test_meets_DimRejections :
    (active []).phase = .active ∧ (conf []).phase = .config ∧ 64 ≤ (64#8).toNat := by decide
theorem test_meets_DimAccepted : (conf []).phase = .config ∧ (63#8).toNat ≤ 63 := by decide
theorem test_meets_DimRunMakesWholeTrace :
    (conf [0x6000003F#32]).cfg.latAssertBit ≤ 15 ∧ (conf [0x6000003F#32]).phase = .config ∧
    (conf [0x6000003F#32]).pstate = .idle ∧ commandAt (conf [0x6000003F#32]) (conf [0x6000003F#32]).cp =
      some 0x6000003F#32 ∧ decode 0x6000003F#32 = .ok (.dim 63#8) ∧ (63#8).toNat ≤ 63 := by decide
theorem test_meets_FrameBitsInOrder : (5 : Nat) < 6 ∧ (15 : Nat) < 16 := by decide

/-! ### Hypotheses met: START, flags, responses -/

theorem test_meets_StartEntersActive : (conf []).phase = .config ∧ (active []).phase = .active := by decide
/-- One word for each case of the flag rule. -/
theorem test_meets_OneFlagInOrder :
    (∃ t, runWord 0x60000100#32 (active []) = .next t) ∧ (∃ t, runWord 0x600000C8#32 (active []) = .next t) ∧
    (∃ t, runWord 0x60000040#32 (conf []) = .next t) ∧ (∃ t, runWord 0x70000000#32 (active []) = .next t) ∧
    (∃ t, runWord 0x80000000#32 (conf []) = .next t) :=
  ⟨⟨_, rfl⟩, ⟨_, rfl⟩, ⟨_, rfl⟩, ⟨_, rfl⟩, _, rfl⟩
/-- A step with all flags set in ACTIVE. -/
theorem test_meets_FlagsPhaseAndLoopStay :
    let s := { addressing with flags := ⟨1#1, 1#1, 1#1⟩ }
    (∃ t, step s = .next t) ∧ s.flags.errCmd = 1#1 ∧ s.flags.errLevel = 1#1 ∧ s.flags.errPhase = 1#1 ∧
      s.phase = .active ∧ s.rstate ≠ .idle :=
  ⟨⟨_, rfl⟩, by decide, by decide, by decide, by decide, by decide⟩
theorem test_meets_CommandPointerAdvancesByOne : ∃ t, step (conf [0x80000000#32]) = .next t ∧ t.cp = 1 := ⟨_, rfl, rfl⟩
theorem test_meets_ResponsesOnlyFromReads :
    (decode 0x28000000#32 = .ok (.pget .red 0#12 0#12) ∧ ∃ t, runWord 0x28000000#32 (conf []) = .next t) ∧
    (decode 0x500000EF#32 = .ok (.strd 3#2 47#6) ∧ ∃ t, runWord 0x500000EF#32 (conf []) = .next t) ∧
    (decode 0x80000000#32 = .ok .stat ∧ ∃ t, runWord 0x80000000#32 (conf []) = .next t) ∧
    (∃ t, runWord 0x00000000#32 (conf []) = .next t) ∧
    (lastWord.pstate ≠ .idle ∧ ∃ t, commandStep lastWord = .next t) ∧ (∃ t, refreshStep addressing = .next t) :=
  ⟨⟨by decide, _, rfl⟩, ⟨by decide, _, rfl⟩, ⟨by decide, _, rfl⟩, ⟨_, rfl⟩, ⟨by decide, _, rfl⟩, _, rfl⟩
/-- A push into the last free place, and a pop. -/
theorem test_meets_FifoIsPlainQueue :
    (∃ t, step { pushing with fifo := [1#32], sched := [.R] } = .next t ∧ t.fifo = [1#32, 0xABCD#32]) ∧
    (∃ t, step { pushing with sstate := .idle, scnt := 0#4 } = .next t ∧ t.fifo = [0xFFFF8001#32]) :=
  ⟨⟨_, rfl, rfl⟩, _, rfl, rfl⟩
theorem test_meets_AgentsChangeOnlyTheirOwn :
    (∃ t, refreshStep addressing = .next t) ∧ (∃ t, commandStep (conf [0x70000000#32]) = .next t ∧
      t.rstate ≠ (conf [0x70000000#32]).rstate) ∧ (conf [0x70000000#32]).pstate ≠ .dim :=
  ⟨⟨_, rfl⟩, ⟨_, rfl, by decide⟩, by decide⟩

/-! ### Hypotheses met: refresh -/

/-- Each RSTATE; WIDX 47 at the fetch. -/
theorem test_meets_RefreshStateTable :
    (conf []).rstate = .idle ∧ (active []).rstate = .adv ∧
    (({ pushing with rstate := .fetch } : State).rstate = .fetch ∧ pushing.widx.toNat < 48) ∧
    pushing.rstate = .push ∧ blanking.rstate = .blank ∧ addressing.rstate = .setaddr ∧
    ({ addressing with rstate := .lathi } : State).rstate = .lathi ∧ latched.rstate = .latlo ∧
    ({ addressing with rstate := .unblank } : State).rstate = .unblank := by decide
theorem test_meets_IterationStreamsOneRowGroup :
    let s := { active [] with cfg := Params.default 48 }
    s.rstate = .adv ∧ s.fifo.length + 48 ≤ s.cfg.fifoDepth ∧ s.cfg.drainWait = false := by decide
/-- The address step of the first iteration. -/
theorem test_meets_AddressSequenceKept :
    AddrSequence addressing ∧ Inv addressing ∧ ∃ t, step addressing = .next t ∧ addrEvents t.trace = [0#2] :=
  ⟨⟨0, by decide, by decide⟩, test_inv_addressing, _, rfl, by decide⟩
/-- The step that changes A, and the one that drops LAT. -/
theorem test_meets_LatchOnlyWhileBlanked :
    (Inv addressing ∧ ∃ t, step addressing = .next t ∧ t.pins.a ≠ addressing.pins.a) ∧
    (Inv latched ∧ ∃ t, step latched = .next t ∧ t.pins.lat ≠ latched.pins.lat) ∧
    (Inv blanking ∧ ∃ t, step { blanking with rstate := .adv } = .next t ∧ t.pins.oe = 0#1) :=
  ⟨⟨test_inv_addressing, _, rfl, by decide⟩, ⟨test_inv_latched, _, rfl, by decide⟩, test_inv_blanking, _, rfl, by decide⟩
theorem test_meets_CommandsNeverStopRefresh :
    rEnabled (active [0x70000000#32]) = true ∧ ∃ t, commandStep (active [0x70000000#32]) = .next t :=
  ⟨by decide, _, rfl⟩
theorem test_meets_ActiveNeverDeadlocks : Inv pushing ∧ pushing.phase = .active ∧ rEnabled pushing = false :=
  ⟨test_inv_pushing, by decide, by decide⟩
/-- Agent S finishes its item in 24 steps and pops in the 25th, which makes room. -/
theorem test_meets_PushRoomWithin25 :
    Inv pushing ∧ pushing.rstate = .push ∧ Agent.R ∉ List.replicate 25 Agent.S ∧
    (List.replicate 25 Agent.S).count .S = 25 ∧ rEnabled pushing = false ∧
    (∃ t, runAgents (List.replicate 25 .S) pushing = some t) ∧
    (∃ t, runAgents [.S] { pushing with fifo := [] } = some t) ∧ rEnabled { pushing with fifo := [] } = true :=
  ⟨test_inv_pushing, by decide, by decide, by decide, by decide, ⟨_, rfl⟩, ⟨_, rfl⟩, by decide⟩
/-- A run from a full queue that is fair whatever the schedule chooses. -/
theorem test_meets_PushWaitEnds :
    IsRun (runOf pushing) ∧ Inv (runOf pushing 0) ∧ WeaklyFair .R (runOf pushing) ∧ WeaklyFair .S (runOf pushing) ∧
    (runOf pushing 0).rstate = .push := by
  have h : Streaming pushing :=
    ⟨by decide, by decide, ⟨rfl, rfl, rfl⟩, by decide, by decide, by decide, by decide⟩
  exact ⟨h.fairRun.1, test_inv_pushing, h.fairRun.2.1, h.fairRun.2.2, rfl⟩
/-- The blank step with DRAIN_WAIT. -/
theorem test_meets_DrainWaitEnforcesMargin :
    blanking.cfg.drainWait = true ∧ blanking.rstate = .blank ∧ Steps .R blanking :=
  ⟨by decide, by decide, _, rfl⟩

/-! ### Hypotheses met: serializer, pins, quiet block -/

/-- Each SSTATE, an item at the head of the queue, the last pair of an item. -/
theorem test_meets_SerializerStateTable :
    (conf []).sstate = .idle ∧ pushing.fifo = 1#32 :: [0xFFFF8001#32] ∧ pushing.sstate = .drive ∧
    ({ pushing with sstate := .clkhi } : State).sstate = .clkhi ∧
    ({ pushing with sstate := .clklo, scnt := 1#4 } : State).scnt - 1#4 = 0#4 := by decide
theorem test_meets_ItemMakesItsTrace :
    let s := { pushing with sstate := .idle, scnt := 0#4, osr := 0#16, fifo := [0xABCDE41B#32] }
    s.sstate = .idle ∧ s.fifo = 0xABCDE41B#32 :: [] := by decide
theorem test_meets_UpperHalfIgnored :
    (0xABCDE41B#32 : Word).extractLsb' 0 16 = (0x0000E41B#32 : Word).extractLsb' 0 16 ∧ (active []).sstate = .idle := by
  decide
theorem test_meets_SerializerIdleWithin24 : Inv pushing ∧ pushing.sstate ≠ .idle := ⟨test_inv_pushing, by decide⟩
/-- Agent R about to drive A, agent S about to drive DATA. -/
theorem test_meets_PinOwnershipExclusive :
    Inv bothDrive ∧ Agent.R ≠ .S ∧ enabled bothDrive .R = true ∧ enabled bothDrive .S = true ∧
    nextPin bothDrive .R = some .a ∧ nextPin bothDrive .S = some .data ∧ nextPin (conf [0x80000000#32]) .P = none ∧
    (∃ t, agentStep .R bothDrive = .next t) ∧ (∃ t, agentStep .P (conf [0x80000000#32]) = .next t) :=
  ⟨test_inv_bothDrive, by decide, by decide, by decide, by decide, by decide, by decide, ⟨_, rfl⟩, _, rfl⟩
theorem test_meets_PinsFollowTraceKept :
    PinsFollowTrace lastSubstep ∧ ∃ t, step lastSubstep = .next t ∧ t.pins.lat = 0#1 :=
  ⟨rfl, _, rfl, by decide⟩
theorem test_meets_QuietBlockStays : Inv (conf []) ∧ Quiet (conf []) := ⟨test_inv_quiet, ⟨rfl, rfl, rfl⟩, rfl⟩

/-- At the end of a finite list, on its last word, and inside an infinite list with nothing written out. -/
theorem test_meets_CommandListDecidesWaiting :
    ((conf []).pstate = .idle ∧ pEnabled (conf []) = false ∧ pEnabled (conf [0x80000000#32]) = true) ∧
    Inv { conf [] with cmdsRest := some 0 } ∧ ({ conf [] with cmdsRest := some 0 } : State).cmdsRest ≠ none :=
  ⟨by decide, by constructor <;> decide, by decide⟩

/-! ### Hypotheses met: observer -/

/-- A panel that holds 1s everywhere, at the pins' reset levels; LAT_ASSERT_BIT 15 and 0. -/
theorem test_meets_ObserverSeesBrightnessFrames :
    (15 : Nat) ≤ 15 ∧ (Panel.initial ⟨-1, -1⟩ ⟨-1, -1⟩).pins.clk = 0#1 ∧
    (Panel.initial ⟨-1, -1⟩ ⟨-1, -1⟩).pins.lat = 0#1 := by decide
theorem test_meets_PanelShowsLatchedGroup :
    (Panel.initial ⟨-1, -1⟩ ⟨-1, -1⟩).pins.clk = 0#1 ∧ (Panel.initial ⟨-1, -1⟩ ⟨-1, -1⟩).pins.lat = 0#1 ∧
    (2 : Nat) < 3 ∧ (63 : Nat) < 64 ∧ (15 : Nat) < 16 := by decide

end Sys2Proof.Tests
end

/-! PROOFS. What every step of the block has in common, packaged once: a relation between a state and its successor holds of
every step when it holds of each agent's step. Then what no step takes back (O37, O38), and where the command list lets
agent P wait (O60). -/

namespace Sys2Proof.Machine

variable {s t : State}

/-- A relation that waiting satisfies, that every enabled agent's step satisfies, and that does not see the count of
scheduling choices holds between a state and its successor. -/
theorem step_rel {Rel : State → State → Prop} (wait : ∀ s, Rel s s)
    (agent : ∀ a s t, enabled s a = true → agentStep a s = .next t → Rel s t)
    (choice : ∀ s t, Rel (choiceMade s) t → Rel s t) (h : step s = .next t) : Rel s t := by
  obtain ⟨-, ⟨-, rfl⟩ | ⟨a, u, -, he, hu, ha⟩⟩ := step_cases h
  · exact wait _
  · rcases hu with rfl | rfl
    · exact agent a _ t he ha
    · exact choice s t (agent a _ t (by simpa using he) ha)

/-! ### What no step takes back -/

/-- What a step keeps, or moves in one direction only: the host's fields, CP, the sticky flags, PHASE, the refresh
loop. -/
structure StepKeeps (s t : State) : Prop where
  cfg : t.cfg = s.cfg
  cmds : t.cmds = s.cmds
  cmdsRest : t.cmdsRest = s.cmdsRest
  cp : t.cp = s.cp ∨ t.cp = s.cp + 1
  errCmd : s.flags.errCmd = 1#1 → t.flags.errCmd = 1#1
  errLevel : s.flags.errLevel = 1#1 → t.flags.errLevel = 1#1
  errPhase : s.flags.errPhase = 1#1 → t.flags.errPhase = 1#1
  phase : s.phase = .active → t.phase = .active
  loop : s.rstate ≠ .idle → t.rstate ≠ .idle

theorem StepKeeps.refl (s : State) : StepKeeps s s :=
  ⟨rfl, rfl, rfl, .inl rfl, id, id, id, id, id⟩

theorem StepKeeps.nextCommand (s : State) : StepKeeps s (nextCommand s) :=
  { StepKeeps.refl s with cp := .inr rfl }

/-- Dropping a command sets one flag and clears none. -/
theorem StepKeeps.dropCommand (f : ErrFlag) (s : State) : StepKeeps s (dropCommand f s) := by
  cases f with
  | cmd => exact { StepKeeps.nextCommand s with errCmd := fun _ => rfl }
  | level => exact { StepKeeps.nextCommand s with errLevel := fun _ => rfl }
  | phase => exact { StepKeeps.nextCommand s with errPhase := fun _ => rfl }

theorem StepKeeps.blitWord (s : State) (e : BitVec 8) (p : PState) :
    StepKeeps s (blitWord { s with ecur := e, pstate := p }) := by
  rw [blitWord_eq]
  refine { StepKeeps.refl s with cp := ?_ }
  dsimp only
  split
  · exact .inr rfl
  · exact .inl rfl

theorem StepKeeps.dimStep (s : State) : StepKeeps s (dimStep s) := by
  cases hd : s.dsub with
  | lat =>
    rw [dimStep_lat s hd]
    split <;> exact { StepKeeps.refl s with }
  | data => rw [dimStep_data s hd]; exact { StepKeeps.refl s with }
  | clkhi => rw [dimStep_clkhi s hd]; exact { StepKeeps.refl s with }
  | clklo => rw [dimStep_clklo s hd]; exact { StepKeeps.refl s with }
  | latclr =>
    rw [dimStep_latclr s hd]
    refine { StepKeeps.refl s with cp := ?_ }
    dsimp only
    split
    · exact .inr rfl
    · exact .inl rfl

theorem StepKeeps.exec {i : Instr} (h : exec i s = .next t) : StepKeeps s t := by
  rcases exec_cases h with ⟨ch, x, y, b, -, rfl⟩ | ⟨ch, x, y, -, v, rfl⟩ | ⟨ch, -, rfl⟩ | ⟨-, rfl⟩ | hstrd | hdim | hstart |
    ⟨-, rfl⟩
  · split <;> exact { StepKeeps.nextCommand s with }
  · exact { StepKeeps.nextCommand s with }
  · exact { StepKeeps.nextCommand s with }
  · exact .blitWord s 0#8 .blit
  · obtain ⟨g, n, -, ⟨v, rfl⟩ | rfl⟩ := hstrd
    · exact { StepKeeps.nextCommand s with }
    · exact .dropCommand .cmd s
  · obtain ⟨l, -, ⟨-, rfl⟩ | ⟨-, -, rfl⟩ | ⟨-, -, rfl⟩⟩ := hdim
    · exact .dropCommand .phase s
    · exact .dropCommand .level s
    · exact { StepKeeps.refl s with }
  · obtain ⟨-, ⟨-, rfl⟩ | ⟨-, rfl⟩⟩ := hstart
    · exact .dropCommand .phase s
    · exact { StepKeeps.nextCommand s with phase := fun _ => rfl, loop := fun _ => by simp }
  · exact { StepKeeps.nextCommand s with }

theorem StepKeeps.command (h : commandStep s = .next t) : StepKeeps s t := by
  rcases commandStep_cases h with ⟨-, -, rfl⟩ | ⟨-, w, -, ⟨i, -, hi⟩ | ⟨e, -, rfl⟩⟩ | ⟨-, rfl⟩ | ⟨-, rfl⟩
  · exact .refl _
  · exact .exec hi
  · exact .dropCommand .cmd s
  · exact .blitWord s s.ecur s.pstate
  · exact .dimStep s

/-- No step of agent R's loop leads out of it (R176). -/
theorem StepKeeps.refresh (h : refreshStep s = .next t) : StepKeeps s t := by
  rcases refreshStep_cases h with ⟨-, rfl⟩ | ⟨-, rfl⟩ | ⟨-, v, -, rfl⟩ | ⟨-, rfl⟩ | ⟨-, rfl⟩ | ⟨-, rfl⟩ | ⟨-, rfl⟩ |
    ⟨-, rfl⟩ | ⟨-, rfl⟩
  case inl => exact .refl _
  case inr.inr.inr.inl =>
    refine { StepKeeps.refl s with loop := fun _ => ?_ }
    unfold pushStep
    split <;> simp
  all_goals exact { StepKeeps.refl s with loop := fun _ => nofun }

/-- The pop leaves all but the queue and agent S's registers, also where the queue is empty. -/
theorem StepKeeps.popStep (s : State) : StepKeeps s (popStep s) := by
  cases hf : s.fifo with
  | nil => simpa [Machine.popStep, hf] using StepKeeps.refl s
  | cons item rest => rw [popStep_cons s hf]; exact { StepKeeps.refl s with }

theorem StepKeeps.serializer (s : State) : StepKeeps s (serializerStep s) := by
  rcases serializerStep_cases s with ⟨-, h⟩ | ⟨-, h⟩ | ⟨-, h⟩ | ⟨-, h⟩ <;> rw [h]
  · exact .popStep s
  all_goals exact { StepKeeps.refl s with }

theorem StepKeeps.agent {a : Agent} (h : agentStep a s = .next t) : StepKeeps s t := by
  cases a with
  | P => exact .command h
  | R => exact .refresh h
  | S => cases h; exact .serializer s

theorem StepKeeps.step (h : step s = .next t) : StepKeeps s t :=
  step_rel .refl (fun _ _ _ _ ha => .agent ha) (fun _ _ hc => { hc with }) h

/-- Settles O37: read off what a step keeps. -/
theorem flagsPhaseAndLoopStay : Obligations.FlagsPhaseAndLoopStay := fun _ _ h =>
  let k := StepKeeps.step h
  ⟨k.errCmd, k.errLevel, k.errPhase, k.phase, k.loop⟩

/-- Settles O38: read off what a step keeps. -/
theorem commandPointerAdvancesByOne : Obligations.CommandPointerAdvancesByOne := fun _ _ h =>
  let k := StepKeeps.step h
  ⟨k.cp, k.cmds, k.cmdsRest, k.cfg⟩

/-! ### Where agent P waits -/

/-- Between commands agent P has a step exactly where CMDS has a word at CP (R24, R90). -/
theorem pEnabled_iff_of_idle (hp : s.pstate = .idle) :
    pEnabled s = true ↔ s.cp < s.cmds.length ∨ s.cmdsRest ≠ none := by
  have he : pEnabled s = (fetchCommand s).isSome := by simp [pEnabled, hp]
  rw [he]
  exact commandAt_isSome s s.cp

/-- Inside a pass or a brightness sequence agent P always has a step (R148, R233). -/
theorem pEnabled_of_busy (h : Inv s) (hp : s.pstate ≠ .idle) : pEnabled s = true := by
  cases hs : s.pstate with
  | idle => exact absurd hs hp
  | blit => simpa [pEnabled, hs] using (h.blitCursor hs).2
  | dim => simp [pEnabled, hs]

/-- Settles O60: between commands the list decides, inside a command the invariant does. -/
theorem commandListDecidesWaiting : Obligations.CommandListDecidesWaiting := by
  refine ⟨fun s hp => pEnabled_iff_of_idle hp, fun s h hr => ⟨?_, fun ⟨⟨hnone, _⟩, _⟩ => hr hnone⟩⟩
  by_cases hp : s.pstate = .idle
  · exact (pEnabled_iff_of_idle hp).2 (.inr hr)
  · exact pEnabled_of_busy h hp

end Sys2Proof.Machine

/-! PROOFS. The pins and the trace: a step drives the pin `nextPin` names, by one event, or none (O55); so the pins follow
the trace (O56); and the invariant leaves no pin to two agents (O55). -/

namespace Sys2Proof.Machine

variable {s t : State}

/-! ### What a step drives -/

/-- From `s` to `t` one event on pin `p` went out, or none where `p` is `none`. -/
def Drove (p : Option PinName) (s t : State) : Prop :=
  match p with
  | none => t.pins = s.pins ∧ t.trace = s.trace
  | some n => ∃ e, PinEvent.name e = n ∧ t.trace = s.trace ++ [e] ∧ t.pins = s.pins.after e

/-- The two readings of `Drove` that O55 states. -/
theorem drove_iff {p : Option PinName} :
    Drove p s t ↔ (p = none → t.pins = s.pins ∧ t.trace = s.trace) ∧
      ∀ n, p = some n → ∃ e, PinEvent.name e = n ∧ t.trace = s.trace ++ [e] ∧ t.pins = s.pins.after e := by
  cases p <;> simp [Drove]

/-- No command drives a pin in its decode step. -/
theorem exec_drove {i : Instr} (h : exec i s = .next t) : Drove none s t := by
  rcases exec_cases h with ⟨ch, x, y, b, -, rfl⟩ | ⟨ch, x, y, -, v, rfl⟩ | ⟨ch, -, rfl⟩ | ⟨-, rfl⟩ | hstrd | hdim | hstart |
    ⟨-, rfl⟩
  · split <;> exact ⟨rfl, rfl⟩
  · exact ⟨rfl, rfl⟩
  · exact ⟨rfl, rfl⟩
  · rw [blitWord_eq]; exact ⟨rfl, rfl⟩
  · obtain ⟨g, n, -, ⟨v, rfl⟩ | rfl⟩ := hstrd <;> exact ⟨rfl, rfl⟩
  · obtain ⟨l, -, ⟨-, rfl⟩ | ⟨-, -, rfl⟩ | ⟨-, -, rfl⟩⟩ := hdim <;> exact ⟨rfl, rfl⟩
  · obtain ⟨-, ⟨-, rfl⟩ | ⟨-, rfl⟩⟩ := hstart <;> exact ⟨rfl, rfl⟩
  · exact ⟨rfl, rfl⟩

/-- The sub-steps of the brightness sequence drive LAT, DATA, CLK, CLK, LAT; the first only at bit LAT_ASSERT_BIT (R233). -/
theorem dimStep_drove (hp : s.pstate = .dim) : Drove (nextPin s .P) s (dimStep s) := by
  cases hd : s.dsub with
  | lat =>
    rw [dimStep_lat s hd]
    by_cases hb : s.dbit.toNat = s.cfg.latAssertBit
    · simp only [nextPin, hp, hd, hb, if_true]
      exact ⟨_, rfl, rfl, rfl⟩
    · simp only [nextPin, hp, hd, hb, if_false]
      exact ⟨rfl, rfl⟩
  | data =>
    simp only [dimStep_data s hd, nextPin, hp, hd]
    exact ⟨_, rfl, rfl, rfl⟩
  | clkhi =>
    simp only [dimStep_clkhi s hd, nextPin, hp, hd]
    exact ⟨_, rfl, rfl, rfl⟩
  | clklo =>
    simp only [dimStep_clklo s hd, nextPin, hp, hd]
    exact ⟨_, rfl, rfl, rfl⟩
  | latclr =>
    simp only [dimStep_latclr s hd, nextPin, hp, hd]
    exact ⟨_, rfl, rfl, rfl⟩

theorem commandStep_drove (h : commandStep s = .next t) : Drove (nextPin s .P) s t := by
  rcases commandStep_cases h with ⟨hp, -, rfl⟩ | ⟨hp, w, -, ⟨i, -, hi⟩ | ⟨e, -, rfl⟩⟩ | ⟨hp, rfl⟩ | ⟨hp, rfl⟩
  · simp only [nextPin, hp]; exact ⟨rfl, rfl⟩
  · simp only [nextPin, hp]; exact exec_drove hi
  · simp only [nextPin, hp]; exact ⟨rfl, rfl⟩
  · simp only [nextPin, hp, blitWord_eq]; exact ⟨rfl, rfl⟩
  · exact dimStep_drove hp

theorem refreshStep_drove (h : refreshStep s = .next t) : Drove (nextPin s .R) s t := by
  rcases refreshStep_cases h with ⟨hr, rfl⟩ | ⟨hr, rfl⟩ | ⟨hr, v, -, rfl⟩ | ⟨hr, rfl⟩ | ⟨hr, rfl⟩ | ⟨hr, rfl⟩ |
    ⟨hr, rfl⟩ | ⟨hr, rfl⟩ | ⟨hr, rfl⟩ <;> simp only [nextPin, hr]
  case inl | inr.inl | inr.inr.inl | inr.inr.inr.inl => exact ⟨rfl, rfl⟩
  all_goals exact ⟨_, rfl, rfl, rfl⟩

theorem serializerStep_drove (s : State) : Drove (nextPin s .S) s (serializerStep s) := by
  rcases serializerStep_cases s with ⟨hs, h⟩ | ⟨hs, h⟩ | ⟨hs, h⟩ | ⟨hs, h⟩ <;> simp only [h, nextPin, hs]
  case inl =>
    cases hf : s.fifo with
    | nil => simp [Drove, popStep, hf]
    | cons item rest => rw [popStep_cons s hf]; exact ⟨rfl, rfl⟩
  all_goals exact ⟨_, rfl, rfl, rfl⟩

/-- Each agent drives the pin it is said to drive, by one event, and no other. -/
theorem agentStep_drove {a : Agent} (h : agentStep a s = .next t) : Drove (nextPin s a) s t := by
  cases a with
  | P => exact commandStep_drove h
  | R => exact refreshStep_drove h
  | S => cases h; exact serializerStep_drove s

/-! ### The pins follow the trace -/

theorem PinsFollowTrace.drove {p : Option PinName} (hs : PinsFollowTrace s) (h : Drove p s t) : PinsFollowTrace t := by
  unfold PinsFollowTrace at *
  cases p with
  | none =>
    obtain ⟨hpins, htrace⟩ := h
    rw [hpins, htrace, hs]
  | some n =>
    obtain ⟨e, -, htrace, hpins⟩ := h
    rw [hpins, htrace, List.foldl_append, ← hs, List.foldl_cons, List.foldl_nil]

/-- Settles O56: each step drives at most one pin, by an event that the trace gets. -/
theorem pinsFollowTraceKept : Obligations.PinsFollowTraceKept :=
  ⟨rfl, fun _ _ hs h =>
    step_rel (Rel := fun s t => PinsFollowTrace s → PinsFollowTrace t) (fun _ hs => hs)
      (fun _ _ _ _ ha hs => hs.drove (agentStep_drove ha)) (fun _ _ hc => hc) h hs⟩

/-! ### No pin has two drivers -/

/-- While the brightness sequence runs, agents R and S drive nothing: the phase is CONFIG (R238). -/
theorem Inv.nextPin_of_dim (h : Inv s) (hp : s.pstate = .dim) : nextPin s .R = none ∧ nextPin s .S = none := by
  have hc := h.dimPhase hp
  simp [nextPin, h.phaseIdle.1 hc, (h.configQuiet hc).1]

/-- Agent P drives a pin only inside the brightness sequence. -/
theorem pstate_of_nextPin {p : PinName} (h : nextPin s .P = some p) : s.pstate = .dim := by
  cases hp : s.pstate with
  | dim => rfl
  | idle => simp [nextPin, hp] at h
  | blit => simp [nextPin, hp] at h

/-- Agent R drives OE, A and LAT. -/
theorem nextPin_R {p : PinName} (h : nextPin s .R = some p) : p = .oe ∨ p = .a ∨ p = .lat := by
  cases hr : s.rstate <;> simp_all [nextPin]

/-- Agent S drives DATA and CLK. -/
theorem nextPin_S {p : PinName} (h : nextPin s .S = some p) : p = .data ∨ p = .clk := by
  cases hs : s.sstate <;> simp_all [nextPin]

/-- Agents R and S own different pins in every state. -/
theorem nextPin_R_ne_S {p : PinName} (hR : nextPin s .R = some p) : nextPin s .S ≠ some p := fun hS => by
  rcases nextPin_R hR with rfl | rfl | rfl <;> simpa using nextPin_S hS

/-- Two agents never have a next step on the same pin. -/
theorem Inv.nextPin_exclusive (h : Inv s) {a b : Agent} (hab : a ≠ b) {p : PinName} (ha : nextPin s a = some p) :
    nextPin s b ≠ some p := by
  intro hb
  have alone : ∀ c, c ≠ .P → nextPin s .P = some p → nextPin s c ≠ some p := fun c hc hP => by
    obtain ⟨hR, hS⟩ := h.nextPin_of_dim (pstate_of_nextPin hP)
    cases c with
    | P => exact absurd rfl hc
    | R => simp [hR]
    | S => simp [hS]
  cases a with
  | P => exact alone b hab.symm ha hb
  | R =>
    cases b with
    | P => exact alone .R hab hb ha
    | R => exact hab rfl
    | S => exact nextPin_R_ne_S ha hb
  | S =>
    cases b with
    | P => exact alone .S hab hb ha
    | R => exact nextPin_R_ne_S hb ha
    | S => exact hab rfl

/-- Settles O55: agent P drives only while the others drive nothing, and agents R and S own different pins. -/
theorem pinOwnershipExclusive : Obligations.PinOwnershipExclusive :=
  ⟨fun _ _ _ _ h hab _ _ ha => h.nextPin_exclusive hab ha, fun _ _ _ _ h => drove_iff.1 (agentStep_drove h)⟩

end Sys2Proof.Machine

/-! PROOFS. The invariant holds at reset (O9) and every step keeps it (O10). Each named step of an agent has its own lemma,
which proves the fields of the invariant whose registers the step writes; every other field is the one before. -/

namespace Sys2Proof.Machine

variable {s t : State}

/-! ### After reset -/

theorem inv_resetFor {c : Params} (hc : paramsOk c = true) : Inv (State.resetFor c) where
  params := hc
  pbWf := Memory.wf_nil
  pbBelow := nofun
  stWf := Memory.wf_nil
  stBelow := nofun
  fifoRoom := Nat.zero_le _
  cpBound := fun _ => le_rfl
  busyCp := fun h => absurd rfl h
  ecurMax := Nat.zero_le _
  blitCursor := nofun
  phaseIdle := ⟨fun _ => rfl, fun _ => rfl⟩
  configQuiet := fun _ => ⟨rfl, rfl, rfl⟩
  dimPhase := nofun
  dimRange := nofun
  widxMax := Nat.zero_le _
  widxStream := by simp [State.resetFor]
  scntRange := ⟨Nat.zero_le _, fun _ => rfl, fun _ => rfl⟩
  osrLeft := rfl
  clkLevel := by simp [State.resetFor, Pins.reset]
  latLevel := rfl
  oeBlank := fun _ => rfl

/-- Settles O9. -/
theorem invariantAtReset : Obligations.InvariantAtReset :=
  ⟨inv_resetFor (paramsOk_default (Nat.le_add_left 1 _)), fun _ hc => inv_resetFor hc⟩

/-! ### What the invariant says together -/

theorem phase_active_iff : s.phase = .active ↔ s.phase ≠ .config := by cases s.phase <;> simp

/-- In the refresh loop the phase is ACTIVE. -/
theorem Inv.active_of_loop (h : Inv s) (hr : s.rstate ≠ .idle) : s.phase = .active :=
  phase_active_iff.2 fun hc => hr (h.phaseIdle.1 hc)

/-- In ACTIVE the refresh loop runs. -/
theorem Inv.loop_of_active (h : Inv s) (ha : s.phase = .active) : s.rstate ≠ .idle :=
  fun hr => phase_active_iff.1 ha (h.phaseIdle.2 hr)

/-- In ACTIVE no brightness sequence runs (R238). -/
theorem Inv.not_dim_of_active (h : Inv s) (ha : s.phase = .active) : s.pstate ≠ .dim :=
  fun hp => phase_active_iff.1 ha (h.dimPhase hp)

/-- Agent S has a step in ACTIVE only. -/
theorem Inv.active_of_sEnabled (h : Inv s) (he : sEnabled s = true) : s.phase = .active :=
  phase_active_iff.2 fun hc => by simp [sEnabled, (h.configQuiet hc).1, hc] at he

/-- With no brightness sequence LAT is the latcher's (R203, R204). -/
theorem Inv.lat_of_not_dim (h : Inv s) (hp : s.pstate ≠ .dim) :
    s.pins.lat = if s.rstate = .latlo then 1#1 else 0#1 := by
  rw [h.latLevel, if_neg hp]

/-- With no brightness sequence CLK is agent S's (R216). -/
theorem Inv.clk_of_not_dim (h : Inv s) (hp : s.pstate ≠ .dim) : s.pins.clk = 1#1 ↔ s.sstate = .clklo := by
  rw [h.clkLevel]
  simp [hp]

/-- A finite list has a word at CP before its end only (R90). -/
theorem cp_lt_of_fetch (hf : (fetchCommand s).isSome = true) (hr : s.cmdsRest = none) : s.cp < s.cmds.length :=
  ((commandAt_isSome s s.cp).1 hf).resolve_right (· hr)

/-- Adding 1 without wrap. -/
theorem toNat_add_one {w : Nat} {v : BitVec w} (h : v.toNat + 1 < 2 ^ w) : (v + 1#w).toNat = v.toNat + 1 := by
  rw [BitVec.toNat_add, BitVec.toNat_ofNat, Nat.add_mod_mod, Nat.mod_eq_of_lt h]

/-! ### Agent P: commands done in one step -/

/-- The count of scheduling choices is in no field of the invariant. -/
theorem Inv.choiceMade (h : Inv s) : Inv (choiceMade s) := { h with }

/-- CP goes on from a command that is there. -/
theorem Inv.nextCommand (h : Inv s) (hp : s.pstate = .idle) (hf : (fetchCommand s).isSome = true) :
    Inv (nextCommand s) :=
  { h with
    cpBound := fun hr => cp_lt_of_fetch hf hr
    busyCp := fun hb => absurd hp hb }

theorem Inv.respond (h : Inv s) (v : Word) : Inv (respond v s) := { h with }

theorem Inv.dropCommand (h : Inv s) (hp : s.pstate = .idle) (hf : (fetchCommand s).isSome = true) (f : ErrFlag) :
    Inv (dropCommand f s) :=
  have hflags : Inv { s with flags := setFlag f s.flags } := { h with }
  hflags.nextCommand hp hf

/-- A pixel in range is inside PB (R121, R28). -/
theorem Inv.pbWrite (h : Inv s) (ch : Channel) {x y : Int} (hin : inrange x y = true) (b : Bit) :
    Inv { s with pb := pbWrite s.pb (chanIndex ch) x.toNat y.toNat b } :=
  have ⟨_, hx, _, hy⟩ := (inrange_iff x y).1 hin
  { h with
    pbWf := Memory.wf_write h.pbWf _ b
    pbBelow := Memory.below_write h.pbBelow (pixelKey_lt (chanIndex_lt ch) (by omega) (by omega)) b }

theorem Inv.pbClear (h : Inv s) (c : Nat) : Inv { s with pb := pbClear s.pb c } :=
  { h with
    pbWf := Memory.wf_clear h.pbWf _ _
    pbBelow := Memory.below_clear h.pbBelow _ _ }

/-- START out of CONFIG (R171): LAT is low and no other agent has begun. -/
theorem Inv.start (h : Inv s) (hp : s.pstate = .idle) (hc : s.phase = .config) :
    Inv { s with phase := .active, rstate := .adv } :=
  { h with
    phaseIdle := by simp
    configQuiet := nofun
    dimPhase := by simp [hp]
    widxStream := by simp
    latLevel := by simp [h.latLevel, hp, h.phaseIdle.1 hc]
    oeBlank := by simp }

/-! ### Agent P: the pass -/

/-- One scan word more in ST. -/
theorem Inv.stWrite (h : Inv s) (g i : Nat) (v : ScanWord) : Inv { s with eacc := v, st := stWrite s.st g i v } :=
  { h with
    stWf := wf_stWrite h.stWf g i v
    stBelow := below_stWrite h.stBelow g i v }

/-- Where no brightness sequence runs, agent P may be between commands, with any cursor of R22. -/
theorem Inv.toIdle (h : Inv s) (hd : s.pstate ≠ .dim) {e : BitVec 8} (he : e.toNat ≤ 192) :
    Inv { s with ecur := e, pstate := .idle } :=
  { h with
    busyCp := fun hb => absurd rfl hb
    ecurMax := he
    blitCursor := nofun
    dimPhase := nofun
    dimRange := nofun
    clkLevel := by simp [h.clk_of_not_dim hd]
    latLevel := by simp [h.lat_of_not_dim hd] }

/-- Where no brightness sequence runs and a command waits, agent P may be inside a pass, between words. -/
theorem Inv.toBlit (h : Inv s) (hd : s.pstate ≠ .dim) (hf : (fetchCommand s).isSome = true) {e : BitVec 8}
    (he : 1 ≤ e.toNat ∧ e.toNat < 192) : Inv { s with ecur := e, pstate := .blit } :=
  { h with
    busyCp := fun _ => hf
    ecurMax := he.2.le
    blitCursor := fun _ => he
    dimPhase := nofun
    dimRange := nofun
    clkLevel := by simp [h.clk_of_not_dim hd]
    latLevel := by simp [h.lat_of_not_dim hd] }

/-- The word step, from the decode step of BLIT (cursor 0) as from inside the pass (R147, R148). -/
theorem Inv.blitWord (h : Inv s) (hd : s.pstate ≠ .dim) (hf : (fetchCommand s).isSome = true) {e : BitVec 8}
    (he : e.toNat < 192) : Inv (blitWord { s with ecur := e, pstate := .blit }) := by
  have hs : (e + 1#8).toNat = e.toNat + 1 := toNat_add_one (by omega)
  have hw := h.stWrite (e.toNat / 48) (e.toNat % 48) (encWord s.cfg s.pb (e.toNat / 48) (e.toNat % 48))
  rw [blitWord_eq]
  by_cases hend : e + 1#8 = 192#8
  · simp only [hend, if_true]
    exact (hw.toIdle hd (e := 192#8) (by decide)).nextCommand rfl hf
  · have hne : (e + 1#8).toNat ≠ 192 := fun hn => hend (BitVec.eq_of_toNat_eq hn)
    simp only [hend, if_false]
    exact hw.toBlit hd hf ⟨by omega, by omega⟩

/-! ### Agent P: the brightness sequence -/

/-- The decode step of an accepted DIM: LAT is low and LAT_ASSERT_BIT is still to come (R231, R234). -/
theorem Inv.dimAccepted (h : Inv s) (hp : s.pstate = .idle) (hf : (fetchCommand s).isSome = true)
    (hc : s.phase = .config) (l : BitVec 6) :
    Inv { s with dlevel := l, drep := 0#5, dbit := 0#5, dsub := .lat, pstate := .dim } :=
  { h with
    busyCp := fun _ => hf
    blitCursor := nofun
    dimPhase := fun _ => hc
    dimRange := fun _ => by simp
    clkLevel := by simp [h.clkLevel, hp]
    latLevel := by simp [dimLatLevel, h.latLevel, hp, h.phaseIdle.1 hc] }

/-- In the brightness sequence agents R and S are idle, so CLK is up at D_CLKLO only. -/
theorem Inv.clk_of_dim (h : Inv s) (hp : s.pstate = .dim) : s.pins.clk = 1#1 ↔ s.dsub = .clklo := by
  simp [h.clkLevel, hp, (h.configQuiet (h.dimPhase hp)).1]

theorem Inv.lat_of_dim (h : Inv s) (hp : s.pstate = .dim) : s.pins.lat = dimLatLevel s := by
  rw [h.latLevel, if_pos hp]

/-- Before D_LATCLR a bit of the frame is in transmission (R233). -/
theorem Inv.dbit_lt (h : Inv s) (hp : s.pstate = .dim) (hd : s.dsub ≠ .latclr) : s.dbit.toNat < 16 := by
  obtain ⟨-, hmax, hclr⟩ := h.dimRange hp
  have : s.dbit.toNat ≠ 16 := fun h16 => hd (hclr.2 h16)
  omega

/-- The ranges of R23 stay where a sub-step before D_LATCLR goes to another one and leaves the counters. -/
theorem Inv.dimRange_of_sub (h : Inv s) (hp : s.pstate = .dim) (hd : s.dsub ≠ .latclr) {d : DSub} (hd' : d ≠ .latclr) :
    s.drep.toNat < 24 ∧ s.dbit.toNat ≤ 16 ∧ (d = .latclr ↔ s.dbit.toNat = 16) :=
  have hlt := h.dbit_lt hp hd
  ⟨(h.dimRange hp).1, hlt.le, iff_of_false hd' hlt.ne⟩

/-- LAT goes up at bit LAT_ASSERT_BIT and stays where it is at every other (R234). -/
theorem Inv.dimStep_lat (h : Inv s) (hp : s.pstate = .dim) (hd : s.dsub = .lat) : Inv (dimStep s) := by
  have hclk : ¬ s.pins.clk = 1#1 := by simp [h.clk_of_dim hp, hd]
  have hidle := (h.configQuiet (h.dimPhase hp)).1
  have hlat := h.lat_of_dim hp
  rw [Machine.dimStep_lat s hd]
  by_cases hb : s.dbit.toNat = s.cfg.latAssertBit
  · simp only [hb, if_true]
    exact { h with
      dimRange := fun _ => h.dimRange_of_sub hp (by simp [hd]) (by simp)
      clkLevel := by simp [Pins.after, hclk, hidle]
      latLevel := by simp [Pins.after, dimLatLevel, hp, hb] }
  · simp only [hb, if_false]
    exact { h with
      dimRange := fun _ => h.dimRange_of_sub hp (by simp [hd]) (by simp)
      clkLevel := by simp [hclk, hidle]
      latLevel := by simp [hlat, dimLatLevel, hp, hd, Ne.symm hb] }

theorem Inv.dimStep_data (h : Inv s) (hp : s.pstate = .dim) (hd : s.dsub = .data) : Inv (dimStep s) := by
  have hclk : ¬ s.pins.clk = 1#1 := by simp [h.clk_of_dim hp, hd]
  have hidle := (h.configQuiet (h.dimPhase hp)).1
  have hlat := h.lat_of_dim hp
  rw [Machine.dimStep_data s hd]
  exact { h with
    dimRange := fun _ => h.dimRange_of_sub hp (by simp [hd]) (by simp)
    clkLevel := by simp [Pins.after, hclk, hidle]
    latLevel := by simp [Pins.after, hlat, dimLatLevel, hp, hd] }

theorem Inv.dimStep_clkhi (h : Inv s) (hp : s.pstate = .dim) (hd : s.dsub = .clkhi) : Inv (dimStep s) := by
  have hlat := h.lat_of_dim hp
  rw [Machine.dimStep_clkhi s hd]
  exact { h with
    dimRange := fun _ => h.dimRange_of_sub hp (by simp [hd]) (by simp)
    clkLevel := by simp [Pins.after, hp]
    latLevel := by simp [Pins.after, hlat, dimLatLevel, hp, hd] }

/-- The next bit begins, or after bit 15 the repetition ends; LAT is up from LAT_ASSERT_BIT on (R233, R234). -/
theorem Inv.dimStep_clklo (h : Inv s) (hp : s.pstate = .dim) (hd : s.dsub = .clklo) : Inv (dimStep s) := by
  have hlt := h.dbit_lt hp (by simp [hd])
  have hs : (s.dbit + 1#5).toNat = s.dbit.toNat + 1 := toNat_add_one (by omega)
  have h15 : s.dbit = 15#5 ↔ s.dbit.toNat = 15 := ⟨fun e => by simp [e], fun e => BitVec.eq_of_toNat_eq e⟩
  have hidle := (h.configQuiet (h.dimPhase hp)).1
  have hlat := h.lat_of_dim hp
  have hbit := ((paramsOk_iff _).1 h.params).2.2
  rw [Machine.dimStep_clklo s hd]
  exact { h with
    dimRange := fun _ => ⟨(h.dimRange hp).1, by simp only [hs]; omega, by simp only [hs, h15]; split <;> simp <;> omega⟩
    clkLevel := by simp only [h15]; split <;> simp [Pins.after, hidle]
    latLevel := by
      have hup : s.cfg.latAssertBit ≤ s.dbit.toNat ∨ s.cfg.latAssertBit = s.dbit.toNat + 1 ∧ s.dbit.toNat = 15 ↔
          s.cfg.latAssertBit < s.dbit.toNat ∨ s.cfg.latAssertBit = s.dbit.toNat := by omega
      simp [Pins.after, hlat, dimLatLevel, hp, hd, hs, h15, hup] }

/-- LAT falls and the next repetition begins; after the last one agent P is between commands again (R233, R234). -/
theorem Inv.dimStep_latclr (h : Inv s) (hp : s.pstate = .dim) (hd : s.dsub = .latclr) : Inv (dimStep s) := by
  have hrep := (h.dimRange hp).1
  have hs : (s.drep + 1#5).toNat = s.drep.toNat + 1 := toNat_add_one (by omega)
  have hc := h.dimPhase hp
  have hf := h.busyCp (by simp [hp])
  have hidle := (h.configQuiet hc).1
  have hclk : ¬ s.pins.clk = 1#1 := by simp [h.clk_of_dim hp, hd]
  rw [Machine.dimStep_latclr s hd]
  by_cases hend : s.drep + 1#5 = 24#5
  · simp only [hend, if_true]
    exact { h with
      cpBound := fun hr => cp_lt_of_fetch hf hr
      busyCp := fun hb => absurd rfl hb
      blitCursor := nofun
      dimPhase := nofun
      dimRange := nofun
      clkLevel := by simp [Pins.after, hclk, hidle]
      latLevel := by simp [Pins.after, h.phaseIdle.1 hc] }
  · have hne : (s.drep + 1#5).toNat ≠ 24 := fun hn => hend (BitVec.eq_of_toNat_eq hn)
    simp only [hend, if_false]
    exact { h with
      dimRange := fun _ => ⟨by dsimp only; omega, by simp, by simp⟩
      clkLevel := by simp [Pins.after, hclk, hidle]
      latLevel := by simp [Pins.after, dimLatLevel, hp] }

theorem Inv.dimStep (h : Inv s) (hp : s.pstate = .dim) : Inv (dimStep s) := by
  cases hd : s.dsub with
  | lat => exact h.dimStep_lat hp hd
  | data => exact h.dimStep_data hp hd
  | clkhi => exact h.dimStep_clkhi hp hd
  | clklo => exact h.dimStep_clklo hp hd
  | latclr => exact h.dimStep_latclr hp hd

/-! ### Agent P -/

theorem Inv.exec (h : Inv s) (hp : s.pstate = .idle) (hf : (fetchCommand s).isSome = true) {i : Instr}
    (hx : exec i s = .next t) : Inv t := by
  rcases exec_cases hx with ⟨ch, x, y, b, -, rfl⟩ | ⟨ch, x, y, -, v, rfl⟩ | ⟨ch, -, rfl⟩ | ⟨-, rfl⟩ | hstrd | hdim |
    hstart | ⟨-, rfl⟩
  · split
    · next hin => exact (h.pbWrite ch hin b).nextCommand hp hf
    · exact h.nextCommand hp hf
  · exact (h.respond v).nextCommand hp hf
  · exact (h.pbClear (chanIndex ch)).nextCommand hp hf
  · exact h.blitWord (by simp [hp]) hf (by decide)
  · obtain ⟨g, n, -, ⟨v, rfl⟩ | rfl⟩ := hstrd
    · exact (h.respond v).nextCommand hp hf
    · exact h.dropCommand hp hf .cmd
  · obtain ⟨l, -, ⟨-, rfl⟩ | ⟨-, -, rfl⟩ | ⟨hc, -, rfl⟩⟩ := hdim
    · exact h.dropCommand hp hf .phase
    · exact h.dropCommand hp hf .level
    · exact h.dimAccepted hp hf hc _
  · obtain ⟨-, ⟨-, rfl⟩ | ⟨hc, rfl⟩⟩ := hstart
    · exact h.dropCommand hp hf .phase
    · exact (h.start hp hc).nextCommand hp hf
  · exact (h.respond (status s)).nextCommand hp hf

theorem Inv.command (h : Inv s) (ht : commandStep s = .next t) : Inv t := by
  rcases commandStep_cases ht with ⟨-, -, rfl⟩ | ⟨hp, w, hw, hrun⟩ | ⟨hp, rfl⟩ | ⟨hp, rfl⟩
  · exact h
  · have hf : (fetchCommand s).isSome = true := by simp [hw]
    obtain ⟨i, -, hx⟩ | ⟨e, -, rfl⟩ := hrun
    · exact h.exec hp hf hx
    · exact h.dropCommand hp hf .cmd
  · have hs : s = { s with ecur := s.ecur, pstate := .blit } := by rw [← hp]
    rw [hs]
    exact h.blitWord (by simp [hp]) (h.busyCp (by simp [hp])) (h.blitCursor hp).2
  · exact h.dimStep hp

/-! ### Agent R -/

theorem Inv.advStep (h : Inv s) (hr : s.rstate = .adv) : Inv (advStep s) :=
  have ha := h.active_of_loop (by simp [hr])
  have hd := h.not_dim_of_active ha
  { h with
    phaseIdle := by simp [Machine.advStep, ha]
    widxMax := by simp [Machine.advStep]
    widxStream := by simp [Machine.advStep]
    latLevel := by simp [Machine.advStep, h.lat_of_not_dim hd, hd, hr]
    oeBlank := by simp [Machine.advStep] }

theorem Inv.fetched (h : Inv s) (hr : s.rstate = .fetch) (v : ScanWord) : Inv { s with muxhold := v, rstate := .push } :=
  have ha := h.active_of_loop (by simp [hr])
  have hd := h.not_dim_of_active ha
  { h with
    phaseIdle := by simp [ha]
    widxStream := fun _ => h.widxStream (.inl hr)
    latLevel := by simp [h.lat_of_not_dim hd, hd, hr]
    oeBlank := by simp }

/-- The push finds room (R211), and after word 47 the blank step follows (R192). -/
theorem Inv.pushStep (h : Inv s) (hr : s.rstate = .push) (hroom : s.fifo.length < s.cfg.fifoDepth) :
    Inv (pushStep s) := by
  have ha := h.active_of_loop (by simp [hr])
  have hd := h.not_dim_of_active ha
  have hw := h.widxStream (.inr hr)
  have hs : (s.widx + 1#6).toNat = s.widx.toNat + 1 := toNat_add_one (by omega)
  have hnext : (Machine.pushStep s).rstate = .fetch ∧ s.widx.toNat + 1 < 48 ∨ (Machine.pushStep s).rstate = .blank := by
    by_cases hlt : s.widx.toNat + 1 < 48 <;> simp [Machine.pushStep, hs, hlt]
  exact { h with
    fifoRoom := by simpa [Machine.pushStep] using hroom
    phaseIdle := by
      have : (Machine.pushStep s).phase = .active := ha
      rcases hnext with ⟨hn, -⟩ | hn <;> simp [hn, this]
    configQuiet := fun hc => absurd hc (phase_active_iff.1 ha)
    widxMax := by simp only [Machine.pushStep, hs]; omega
    widxStream := fun hstream => by
      rcases hnext with ⟨-, hlt⟩ | hn
      · simpa only [Machine.pushStep, hs] using hlt
      · simp [hn] at hstream
    latLevel := by
      have hlat : (Machine.pushStep s).pins.lat = 0#1 := by simp [Machine.pushStep, h.lat_of_not_dim hd, hr]
      have hd' : (Machine.pushStep s).pstate ≠ .dim := hd
      rcases hnext with ⟨hn, -⟩ | hn <;> simp [hlat, hd', hn]
    oeBlank := by rcases hnext with ⟨hn, -⟩ | hn <;> simp [hn] }

/-- A step of the latcher goes to another RSTATE of the loop, sets OE, A and LAT as the invariant wants them there, and
leaves CLK. -/
theorem Inv.latcher (h : Inv s) (hr : s.rstate ≠ .idle) {e : PinEvent} {r : RState} (hi : r ≠ .idle)
    (hstream : ¬ (r = .fetch ∨ r = .push)) (hclk : (s.pins.after e).clk = s.pins.clk)
    (hlat : (s.pins.after e).lat = if r = .latlo then 1#1 else 0#1)
    (hoe : r = .setaddr ∨ r = .lathi ∨ r = .latlo ∨ r = .unblank → (s.pins.after e).oe = 1#1) :
    Inv { drive e s with rstate := r } :=
  have ha := h.active_of_loop hr
  have hd := h.not_dim_of_active ha
  { h with
    phaseIdle := by simp [ha, hi]
    configQuiet := fun hc => absurd hc (phase_active_iff.1 ha)
    widxStream := fun hs => absurd hs hstream
    clkLevel := by simpa [hclk] using h.clkLevel
    latLevel := by simp [hlat, hd]
    oeBlank := hoe }

/-- The four streaming cases, then the latcher's five: LAT was low but in R_LATLO, and OE up from R_SETADDR on. -/
theorem Inv.refresh (h : Inv s) (he : rEnabled s = true) (ht : refreshStep s = .next t) : Inv t := by
  have hlat : s.rstate ≠ .idle → s.pins.lat = if s.rstate = .latlo then 1#1 else 0#1 := fun hr =>
    h.lat_of_not_dim (h.not_dim_of_active (h.active_of_loop hr))
  rcases refreshStep_cases ht with ⟨-, rfl⟩ | ⟨hr, rfl⟩ | ⟨hr, v, -, rfl⟩ | ⟨hr, rfl⟩ | ⟨hr, rfl⟩ | ⟨hr, rfl⟩ |
    ⟨hr, rfl⟩ | ⟨hr, rfl⟩ | ⟨hr, rfl⟩
  · exact h
  · exact h.advStep hr
  · exact h.fetched hr v
  · exact h.pushStep hr (by simpa [rEnabled, hr] using he)
  all_goals
    refine h.latcher (by simp [hr]) (by simp) (by simp) rfl ?_ ?_ <;> simp [Pins.after, hlat, h.oeBlank, hr]

/-! ### Agent S -/

/-- Inside an item the counter is 1 to 8 (R27). -/
theorem Inv.scnt_pos (h : Inv s) (hs : s.sstate ≠ .idle) : 1 ≤ s.scnt.toNat := by
  have : s.scnt.toNat ≠ 0 := fun h0 => hs (h.scntRange.2.1 (BitVec.eq_of_toNat_eq h0))
  omega

/-- The pop loads 8 pairs (R212). -/
theorem Inv.popStep (h : Inv s) (hs : s.sstate = .idle) (ha : s.phase = .active) : Inv (popStep s) := by
  have hd := h.not_dim_of_active ha
  cases hf : s.fifo with
  | nil => simpa [Machine.popStep, hf] using h
  | cons item rest =>
    rw [popStep_cons s hf]
    exact { h with
      fifoRoom := Nat.le_of_succ_le (by simpa [hf] using h.fifoRoom)
      configQuiet := fun hc => absurd hc (phase_active_iff.1 ha)
      scntRange := by simp
      osrLeft := by simp [pairsLeft]
      clkLevel := by simp [h.clk_of_not_dim hd, hs, hd] }

theorem Inv.driveStep (h : Inv s) (hs : s.sstate = .drive) (ha : s.phase = .active) : Inv (driveStep s) := by
  have hd := h.not_dim_of_active ha
  have hpos := h.scnt_pos (by simp [hs])
  exact { h with
      configQuiet := fun hc => absurd hc (phase_active_iff.1 ha)
      scntRange := by simpa [Machine.driveStep, hs] using h.scntRange
      osrLeft := by
        have := h.osrLeft
        simp only [pairsLeft, hs] at this
        simp only [Machine.driveStep, pairsLeft, drive_scnt, ← BitVec.shiftLeft_add]
        rwa [show 2 + 2 * (s.scnt.toNat - 1) = 2 * s.scnt.toNat by omega]
      clkLevel := by simp [Machine.driveStep, Pins.after, h.clk_of_not_dim hd, hs, hd] }

theorem Inv.clkhiStep (h : Inv s) (hs : s.sstate = .clkhi) (ha : s.phase = .active) : Inv (clkhiStep s) :=
  { h with
    configQuiet := fun hc => absurd hc (phase_active_iff.1 ha)
    scntRange := by simpa [Machine.clkhiStep, hs] using h.scntRange
    osrLeft := by simpa [Machine.clkhiStep, pairsLeft, hs] using h.osrLeft
    clkLevel := by simp [Machine.clkhiStep, Pins.after] }

/-- CLK falls and the pair is done; the item with the last of them (R216). -/
theorem Inv.clkloStep (h : Inv s) (hs : s.sstate = .clklo) (ha : s.phase = .active) : Inv (clkloStep s) := by
  have hd := h.not_dim_of_active ha
  have hpos := h.scnt_pos (by simp [hs])
  have hmax := h.scntRange.1
  have hsub : (s.scnt - 1#4).toNat = s.scnt.toNat - 1 := BitVec.toNat_sub_of_le hpos
  have hosr : s.osr <<< (2 * (s.scnt.toNat - 1)) = 0#16 := by simpa [pairsLeft, hs] using h.osrLeft
  exact { h with
    configQuiet := fun hc => absurd hc (phase_active_iff.1 ha)
    scntRange := by
      refine ⟨by simp only [Machine.clkloStep, hsub]; omega, ?_⟩
      by_cases hend : s.scnt - 1#4 = 0#4 <;> simp [Machine.clkloStep, hend]
    osrLeft := by
      have hleft : pairsLeft (Machine.clkloStep s) = s.scnt.toNat - 1 := by
        by_cases hend : s.scnt - 1#4 = 0#4 <;> simp [Machine.clkloStep, pairsLeft, hend, ← hsub]
      rw [hleft]
      exact hosr
    clkLevel := by
      by_cases hend : s.scnt - 1#4 = 0#4 <;> simp [Machine.clkloStep, Pins.after, hend, hd] }

/-- Agent S has a step in ACTIVE only, so CLK is its own (R220, R238). -/
theorem Inv.serializer (h : Inv s) (he : sEnabled s = true) : Inv (serializerStep s) := by
  have ha := h.active_of_sEnabled he
  rcases serializerStep_cases s with ⟨hs, hst⟩ | ⟨hs, hst⟩ | ⟨hs, hst⟩ | ⟨hs, hst⟩ <;> rw [hst]
  · exact h.popStep hs ha
  · exact h.driveStep hs ha
  · exact h.clkhiStep hs ha
  · exact h.clkloStep hs ha

/-! ### The step -/

theorem Inv.agent (h : Inv s) {a : Agent} (he : enabled s a = true) (ht : agentStep a s = .next t) : Inv t := by
  cases a with
  | P => exact h.command ht
  | R => exact h.refresh he ht
  | S => cases ht; exact h.serializer he

/-- Settles O10: each agent's enabled step keeps the invariant, and the count of choices is not in it. -/
theorem invariantKept : Obligations.InvariantKept := fun _ _ h ht =>
  step_rel (Rel := fun s t => Inv s → Inv t) (fun _ h => h) (fun _ _ _ he ha h => h.agent he ha)
    (fun _ _ hc h => hc h.choiceMade) ht h

end Sys2Proof.Machine

/-! PROOFS. The queue (O40): of all steps only agent R's push and agent S's pop touch it. -/

namespace Sys2Proof.Machine

variable {s t : State}

/-! ### Agent P leaves the queue -/

theorem blitWord_fifo (s : State) : (blitWord s).fifo = s.fifo := by rw [blitWord_eq]

theorem dimStep_fifo (s : State) : (dimStep s).fifo = s.fifo := by
  cases hd : s.dsub with
  | lat => rw [dimStep_lat s hd]; split <;> rfl
  | data => rw [dimStep_data s hd]; rfl
  | clkhi => rw [dimStep_clkhi s hd]; rfl
  | clklo => rw [dimStep_clklo s hd]; rfl
  | latclr => rw [dimStep_latclr s hd]; rfl

theorem exec_fifo {i : Instr} (h : exec i s = .next t) : t.fifo = s.fifo := by
  rcases exec_cases h with ⟨ch, x, y, b, -, rfl⟩ | ⟨ch, x, y, -, v, rfl⟩ | ⟨ch, -, rfl⟩ | ⟨-, rfl⟩ | hstrd | hdim | hstart |
    ⟨-, rfl⟩
  · split <;> rfl
  · rfl
  · rfl
  · exact blitWord_fifo _
  · obtain ⟨g, n, -, ⟨v, rfl⟩ | rfl⟩ := hstrd <;> rfl
  · obtain ⟨l, -, ⟨-, rfl⟩ | ⟨-, -, rfl⟩ | ⟨-, -, rfl⟩⟩ := hdim <;> rfl
  · obtain ⟨-, ⟨-, rfl⟩ | ⟨-, rfl⟩⟩ := hstart <;> rfl
  · rfl

/-- Agent P neither pushes nor pops (R211). -/
theorem commandStep_fifo (h : commandStep s = .next t) : t.fifo = s.fifo := by
  rcases commandStep_cases h with ⟨-, -, rfl⟩ | ⟨-, w, -, ⟨i, -, hi⟩ | ⟨e, -, rfl⟩⟩ | ⟨-, rfl⟩ | ⟨-, rfl⟩
  · rfl
  · exact exec_fifo hi
  · rfl
  · exact blitWord_fifo s
  · exact dimStep_fifo s

/-! ### The push and the pop -/

/-- From `s` to `t` the queue stayed, agent R appended an item where there was room, or agent S took the head. -/
def QueueStep (s t : State) : Prop :=
  t.fifo = s.fifo ∨
  (s.rstate = .push ∧ s.fifo.length < s.cfg.fifoDepth ∧ t.fifo = s.fifo ++ [s.muxhold.setWidth 32]) ∨
  (s.sstate = .idle ∧ s.phase = .active ∧ ∃ item, s.fifo = item :: t.fifo ∧ t.osr = item.extractLsb' 0 16)

/-- Agent R's only step on the queue is the push, whose guard is the room (R192). -/
theorem QueueStep.refresh (he : rEnabled s = true) (h : refreshStep s = .next t) : QueueStep s t := by
  rcases refreshStep_cases h with ⟨-, rfl⟩ | ⟨-, rfl⟩ | ⟨-, v, -, rfl⟩ | ⟨hr, rfl⟩ | ⟨-, rfl⟩ | ⟨-, rfl⟩ | ⟨-, rfl⟩ |
    ⟨-, rfl⟩ | ⟨-, rfl⟩
  case inr.inr.inr.inl =>
    have hroom : s.fifo.length < s.cfg.fifoDepth := by simpa [rEnabled, hr] using he
    exact .inr (.inl ⟨hr, hroom, rfl⟩)
  all_goals exact .inl rfl

/-- The pop takes the head and keeps the rest in order (R212). -/
theorem QueueStep.popStep (hs : s.sstate = .idle) (ha : s.phase = .active) : QueueStep s (popStep s) := by
  cases hf : s.fifo with
  | nil => exact .inl (by simp [Machine.popStep, hf])
  | cons item rest =>
    rw [popStep_cons s hf]
    exact .inr (.inr ⟨hs, ha, item, hf, rfl⟩)

/-- Agent S's only step on the queue is the pop, whose guard holds in ACTIVE only. -/
theorem QueueStep.serializer (he : sEnabled s = true) : QueueStep s (serializerStep s) := by
  rcases serializerStep_cases s with ⟨hs, h⟩ | ⟨-, h⟩ | ⟨-, h⟩ | ⟨-, h⟩ <;> rw [h]
  case inl =>
    have hguard : s.phase = .active ∧ s.fifo ≠ [] := by simpa [sEnabled, hs] using he
    exact .popStep hs hguard.1
  all_goals exact .inl rfl

theorem QueueStep.agent {a : Agent} (he : enabled s a = true) (h : agentStep a s = .next t) : QueueStep s t := by
  cases a with
  | P => exact .inl (commandStep_fifo h)
  | R => exact .refresh he h
  | S => cases h; exact .serializer he

/-- Settles O40: each agent's enabled step is a queue step, and the count of choices is not in it. -/
theorem fifoIsPlainQueue : Obligations.FifoIsPlainQueue := fun _ _ h =>
  step_rel (Rel := QueueStep) (fun _ => .inl rfl) (fun _ _ _ he ha => .agent he ha) (fun _ _ hc => hc) h

end Sys2Proof.Machine

/-! PROOFS. Decoding and encoding (O1, O2, O3, O5). What decode answers is said once: a command exactly where the
command's row selects the word, the command is well-formed and its operands are the word's fields. -/

namespace Sys2Proof

variable {w : Word} {i : Instr}

/-! ### The rows of the opcode map, field by field -/

theorem OpRow.selects_iff {r : OpRow} : r.selects w = true ↔ w &&& r.mask = r.pattern := decide_eq_true_iff

/-- Every row's mask covers the opcode bits, so a selected word has the row's opcode. -/
theorem opcodeOf_of_selects {r : OpRow} (hr : r ∈ opRows) (h : r.selects w = true) :
    opcodeOf w = opcodeOf r.pattern := by
  have hmask : ∀ q ∈ opRows, opcodeOf q.mask = BitVec.allOnes 4 := by decide
  calc opcodeOf w = opcodeOf w &&& opcodeOf r.mask := by rw [hmask r hr, BitVec.and_allOnes]
    _ = opcodeOf (w &&& r.mask) := BitVec.extractLsb'_and.symm
    _ = opcodeOf r.pattern := by rw [OpRow.selects_iff.1 h]

theorem row_eq_of_opcode {r q : OpRow} (hr : r ∈ opRows) (hq : q ∈ opRows)
    (h : opcodeOf r.pattern = opcodeOf q.pattern) : r = q := by
  have hinj : ∀ r ∈ opRows, ∀ q ∈ opRows, opcodeOf r.pattern = opcodeOf q.pattern → r = q := by decide
  exact hinj r hr q hq h

theorem Instr.row_mem (i : Instr) : i.row ∈ opRows := by cases i <;> simp [Instr.row, opRows]

theorem formatP_eq_iff {op op' : BitVec 4} {c c' : BitVec 2} {b b' z z' : Bit} {x x' y y' : BitVec 12} :
    formatP op c b z x y = formatP op' c' b' z' x' y' ↔
      op = op' ∧ c = c' ∧ b = b' ∧ z = z' ∧ x = x' ∧ y = y' :=
  ⟨formatP_inj, by rintro ⟨rfl, rfl, rfl, rfl, rfl, rfl⟩; rfl⟩

theorem selects_rowPSET : rowPSET.selects w = true ↔ opcodeOf w = 1#4 ∧ w.extractLsb' 24 1 = 0#1 := by
  have hmask : w &&& rowPSET.mask = formatP (opcodeOf w) 0 0 (w.extractLsb' 24 1) 0 0 := by
    conv_lhs => rw [eq_formatP w]
    exact maskPSET_formatP ..
  have hpat : rowPSET.pattern = formatP 1#4 0 0 0 0 0 := by decide
  simp [OpRow.selects_iff, hmask, hpat, formatP_eq_iff]

theorem selects_rowPGET :
    rowPGET.selects w = true ↔ opcodeOf w = 2#4 ∧ bOf w = 0#1 ∧ w.extractLsb' 24 1 = 0#1 := by
  have hmask : w &&& rowPGET.mask = formatP (opcodeOf w) 0 (bOf w) (w.extractLsb' 24 1) 0 0 := by
    conv_lhs => rw [eq_formatP w]
    exact maskPGET_formatP ..
  have hpat : rowPGET.pattern = formatP 2#4 0 0 0 0 0 := by decide
  simp [OpRow.selects_iff, hmask, hpat, formatP_eq_iff]

theorem selects_rowPCLR :
    rowPCLR.selects w = true ↔
      opcodeOf w = 3#4 ∧ bOf w = 0#1 ∧ w.extractLsb' 24 1 = 0#1 ∧ xOf w = 0#12 ∧ yOf w = 0#12 := by
  have hmask : w &&& rowPCLR.mask = formatP (opcodeOf w) 0 (bOf w) (w.extractLsb' 24 1) (xOf w) (yOf w) := by
    conv_lhs => rw [eq_formatP w]
    exact maskPCLR_formatP ..
  have hpat : rowPCLR.pattern = formatP 3#4 0 0 0 0 0 := by decide
  simp [OpRow.selects_iff, hmask, hpat, formatP_eq_iff]

/-- A row of format N fixes the whole word. -/
theorem selects_formatN {r : OpRow} {op : BitVec 4} (hmask : r.mask = BitVec.allOnes 32)
    (hpat : r.pattern = formatN op 0#28) :
    r.selects w = true ↔ opcodeOf w = op ∧ w.extractLsb' 0 28 = 0#28 := by
  rw [OpRow.selects_iff, hmask, BitVec.and_allOnes, hpat]
  constructor
  · intro h
    rw [eq_formatN w] at h
    exact formatN_inj h
  · rintro ⟨hop, hz⟩
    rw [eq_formatN w, hop, hz]

theorem selects_rowBLIT : rowBLIT.selects w = true ↔ opcodeOf w = 4#4 ∧ w.extractLsb' 0 28 = 0#28 :=
  selects_formatN (by decide) (by decide)

theorem selects_rowSTART : rowSTART.selects w = true ↔ opcodeOf w = 7#4 ∧ w.extractLsb' 0 28 = 0#28 :=
  selects_formatN (by decide) (by decide)

theorem selects_rowSTAT : rowSTAT.selects w = true ↔ opcodeOf w = 8#4 ∧ w.extractLsb' 0 28 = 0#28 :=
  selects_formatN (by decide) (by decide)

/-- A row of format L or T fixes all but the low byte. -/
theorem selects_formatL {r : OpRow} {op : BitVec 4} (hmask : r.mask = 0xFFFFFF00#32)
    (hpat : r.pattern = formatL op 0#20 0#8) :
    r.selects w = true ↔ opcodeOf w = op ∧ w.extractLsb' 8 20 = 0#20 := by
  have hw : w &&& 0xFFFFFF00#32 = formatL (opcodeOf w) (w.extractLsb' 8 20) 0 := by
    conv_lhs => rw [eq_formatL w]
    exact maskDIM_formatL ..
  rw [OpRow.selects_iff, hmask, hw, hpat]
  constructor
  · intro h
    obtain ⟨hop, hz, -⟩ := formatL_inj h
    exact ⟨hop, hz⟩
  · rintro ⟨hop, hz⟩
    rw [hop, hz]
    rfl

theorem selects_rowSTRD : rowSTRD.selects w = true ↔ opcodeOf w = 5#4 ∧ w.extractLsb' 8 20 = 0#20 :=
  selects_formatL rfl (by decide)

theorem selects_rowDIM : rowDIM.selects w = true ↔ opcodeOf w = 6#4 ∧ w.extractLsb' 8 20 = 0#20 :=
  selects_formatL rfl (by decide)

/-! ### Must-be-zero fields of several parts (R101) -/

/-- A field is zero exactly where its two parts are. -/
theorem extractLsb'_eq_zero_iff (w : Word) (lo n m : Nat) :
    w.extractLsb' lo (n + m) = 0#(n + m) ↔ w.extractLsb' (lo + n) m = 0#m ∧ w.extractLsb' lo n = 0#n := by
  simp only [BitVec.eq_of_getLsbD_eq_iff, BitVec.getLsbD_extractLsb', BitVec.getLsbD_zero]
  constructor
  · intro h
    constructor
    · intro k hk
      simpa [hk, Nat.add_assoc] using h (n + k) (by omega)
    · intro k hk
      simpa [hk, Nat.lt_add_right m hk] using h k (by omega)
  · rintro ⟨hhi, hlo⟩ k hk
    by_cases hn : k < n
    · simpa [hk, hn] using hlo k hn
    · obtain ⟨d, rfl⟩ := Nat.exists_eq_add_of_le (Nat.le_of_not_lt hn)
      have hd : d < m := by omega
      simpa [hd, Nat.add_assoc] using hhi d hd

/-- PGET's must-be-zero field is b and bit 24 (R101). -/
theorem mbzPGET_iff : w.extractLsb' 24 2 = 0#2 ↔ bOf w = 0#1 ∧ w.extractLsb' 24 1 = 0#1 :=
  extractLsb'_eq_zero_iff w 24 1 1

/-- PCLR's must-be-zero field is b, bit 24, x and y (R101). -/
theorem mbzPCLR_iff :
    w.extractLsb' 0 26 = 0#26 ↔ bOf w = 0#1 ∧ w.extractLsb' 24 1 = 0#1 ∧ xOf w = 0#12 ∧ yOf w = 0#12 := by
  have hxy : w.extractLsb' 0 24 = 0#24 ↔ xOf w = 0#12 ∧ yOf w = 0#12 := extractLsb'_eq_zero_iff w 0 12 12
  rw [← and_assoc, ← mbzPGET_iff, ← hxy]
  exact extractLsb'_eq_zero_iff w 0 24 2

/-! ### The stages of decoding -/

theorem Channel.ofCode_eq_some {c : BitVec 2} {ch : Channel} : Channel.ofCode c = some ch ↔ ch.code = c :=
  ⟨Channel.code_of_ofCode, by rintro rfl; exact Channel.ofCode_code ch⟩

theorem Channel.exists_code_iff {c : BitVec 2} : (∃ ch : Channel, ch.code = c) ↔ c ≠ 3#2 := by
  rw [← not_iff_not, not_not, ← Channel.ofCode_eq_none, Option.eq_none_iff_forall_ne_some, not_exists]
  exact forall_congr' fun ch => by rw [Ne, Channel.ofCode_eq_some]

theorem ifSelected_ok {r : OpRow} {k : Except DecodeError Instr} :
    ifSelected r w k = .ok i ↔ r.selects w = true ∧ k = .ok i := by
  unfold ifSelected
  split <;> simp [*]

theorem ifSelected_error {r : OpRow} {k : Except DecodeError Instr} :
    (∃ e, ifSelected r w k = .error e) ↔ ¬ r.selects w = true ∨ ∃ e, k = .error e := by
  unfold ifSelected
  split <;> simp [*]

theorem withChannel_ok {k : Channel → Instr} :
    withChannel w k = .ok i ↔ ∃ ch : Channel, ch.code = chOf w ∧ k ch = i := by
  simp only [← Channel.ofCode_eq_some]
  unfold withChannel
  split <;> simp [*]

theorem withChannel_error {k : Channel → Instr} : (∃ e, withChannel w k = .error e) ↔ chOf w = 3#2 := by
  rw [← Channel.ofCode_eq_none]
  unfold withChannel
  split <;> simp [*]

/-- The eight opcodes of R100 and the undefined ones (R102). -/
theorem opcode_cases (op : BitVec 4) :
    op = 1#4 ∨ op = 2#4 ∨ op = 3#4 ∨ op = 4#4 ∨ op = 5#4 ∨ op = 6#4 ∨ op = 7#4 ∨ op = 8#4 ∨
      op.toNat = 0 ∨ 9 ≤ op.toNat := by
  revert op
  decide

/-! ### Decoding by opcode (R107) -/

theorem decode_pset (h : opcodeOf w = 1#4) :
    decode w = ifSelected rowPSET w (withChannel w fun ch => .pset ch (xOf w) (yOf w) (bOf w)) := by
  simp [decode, h]

theorem decode_pget (h : opcodeOf w = 2#4) :
    decode w = ifSelected rowPGET w (withChannel w fun ch => .pget ch (xOf w) (yOf w)) := by
  simp [decode, h]

theorem decode_pclr (h : opcodeOf w = 3#4) :
    decode w = ifSelected rowPCLR w (withChannel w fun ch => .pclr ch) := by
  simp [decode, h]

theorem decode_blit (h : opcodeOf w = 4#4) : decode w = ifSelected rowBLIT w (.ok .blit) := by
  simp [decode, h]

theorem decode_strd (h : opcodeOf w = 5#4) :
    decode w = ifSelected rowSTRD w
      (if (iOf w).toNat < 48 then .ok (.strd (gOf w) (iOf w)) else .error .wordIndex) := by
  simp [decode, h]

theorem decode_dim (h : opcodeOf w = 6#4) : decode w = ifSelected rowDIM w (.ok (.dim (levelOf w))) := by
  simp [decode, h]

theorem decode_start (h : opcodeOf w = 7#4) : decode w = ifSelected rowSTART w (.ok .start) := by
  simp [decode, h]

theorem decode_stat (h : opcodeOf w = 8#4) : decode w = ifSelected rowSTAT w (.ok .stat) := by
  simp [decode, h]

theorem decode_undefined (h : (opcodeOf w).toNat = 0 ∨ 9 ≤ (opcodeOf w).toNat) :
    decode w = .error .undefinedOpcode := by
  have hne : ∀ op : BitVec 4, op.toNat = 0 ∨ 9 ≤ op.toNat →
      op ≠ 1#4 ∧ op ≠ 2#4 ∧ op ≠ 3#4 ∧ op ≠ 4#4 ∧ op ≠ 5#4 ∧ op ≠ 6#4 ∧ op ≠ 7#4 ∧ op ≠ 8#4 := by decide
  obtain ⟨h1, h2, h3, h4, h5, h6, h7, h8⟩ := hne _ h
  simp [decode, h1, h2, h3, h4, h5, h6, h7, h8]

/-! ### What decode answers -/

/-- The operands of the command are the word's fields, by the command's format (R95). -/
def Instr.HasFields : Instr → Word → Prop
  | .pset ch x y b, w => ch.code = chOf w ∧ x = xOf w ∧ y = yOf w ∧ b = bOf w
  | .pget ch x y, w => ch.code = chOf w ∧ x = xOf w ∧ y = yOf w
  | .pclr ch, w => ch.code = chOf w
  | .strd g n, w => g = gOf w ∧ n = iOf w
  | .dim l, w => l = levelOf w
  | .blit, _ | .start, _ | .stat, _ => True

theorem Instr.hasFields_encode (i : Instr) : i.HasFields (encode i) := by
  cases i with
  | pset ch x y b => simp [Instr.HasFields, encode_pset]
  | pget ch x y => simp [Instr.HasFields, encode_pget]
  | pclr ch => simp [Instr.HasFields, encode_pclr]
  | strd g n => simp [Instr.HasFields, encode_strd]
  | dim l => simp [Instr.HasFields, encode_dim]
  | blit | start | stat => trivial

theorem Instr.row_selects_encode (i : Instr) : i.row.selects (encode i) = true := by
  have h : Laws.RowSelects.Statement i := by
    cases i with
    | pset ch x y b => exact Laws.RowSelects.pset ch x y b
    | pget ch x y => exact Laws.RowSelects.pget ch x y
    | pclr ch => exact Laws.RowSelects.pclr ch
    | blit => exact Laws.RowSelects.blit
    | strd g n => exact Laws.RowSelects.strd g n
    | dim l => exact Laws.RowSelects.dim l
    | start => exact Laws.RowSelects.start
    | stat => exact Laws.RowSelects.stat
  exact OpRow.selects_iff.2 h.1

/-- A word that the command's row selects and whose fields are the operands is the command's word: the mask leaves no
other bit free (R101). -/
theorem encode_of_selects (hs : i.row.selects w = true) (hf : i.HasFields w) : encode i = w := by
  cases i with
  | pset ch x y b =>
    obtain ⟨hch, rfl, rfl, rfl⟩ := hf
    obtain ⟨hop, hz⟩ := selects_rowPSET.1 hs
    rw [encode_pset, hch, ← hop, ← hz, ← eq_formatP]
  | pget ch x y =>
    obtain ⟨hch, rfl, rfl⟩ := hf
    obtain ⟨hop, hb, hz⟩ := selects_rowPGET.1 hs
    rw [encode_pget, hch, ← hop]
    conv_rhs => rw [eq_formatP w, hb, hz]
  | pclr ch =>
    obtain ⟨hop, hb, hz, hx, hy⟩ := selects_rowPCLR.1 hs
    rw [eq_formatP w, encode_pclr, hf, hop, hb, hz, hx, hy]
  | blit =>
    obtain ⟨hop, hz⟩ := selects_rowBLIT.1 hs
    rw [eq_formatN w, encode_blit, hop, hz]
  | strd g n =>
    obtain ⟨rfl, rfl⟩ := hf
    obtain ⟨hop, hz⟩ := selects_rowSTRD.1 hs
    rw [encode_strd, ← hop, ← hz, ← eq_formatT]
  | dim l =>
    obtain rfl := hf
    obtain ⟨hop, hz⟩ := selects_rowDIM.1 hs
    rw [encode_dim, ← hop, ← hz, ← eq_formatL]
  | start =>
    obtain ⟨hop, hz⟩ := selects_rowSTART.1 hs
    rw [eq_formatN w, encode_start, hop, hz]
  | stat =>
    obtain ⟨hop, hz⟩ := selects_rowSTAT.1 hs
    rw [eq_formatN w, encode_stat, hop, hz]

theorem fields_of_decode (h : decode w = .ok i) : i.row.selects w = true ∧ i.wf = true ∧ i.HasFields w := by
  rcases opcode_cases (opcodeOf w) with hop | hop | hop | hop | hop | hop | hop | hop | hop
  · rw [decode_pset hop, ifSelected_ok, withChannel_ok] at h
    obtain ⟨hs, ch, hch, rfl⟩ := h
    exact ⟨hs, rfl, hch, rfl, rfl, rfl⟩
  · rw [decode_pget hop, ifSelected_ok, withChannel_ok] at h
    obtain ⟨hs, ch, hch, rfl⟩ := h
    exact ⟨hs, rfl, hch, rfl, rfl⟩
  · rw [decode_pclr hop, ifSelected_ok, withChannel_ok] at h
    obtain ⟨hs, ch, hch, rfl⟩ := h
    exact ⟨hs, rfl, hch⟩
  · rw [decode_blit hop, ifSelected_ok] at h
    obtain ⟨hs, ⟨⟩⟩ := h
    exact ⟨hs, rfl, trivial⟩
  · rw [decode_strd hop, ifSelected_ok] at h
    obtain ⟨hs, hk⟩ := h
    split at hk <;> cases hk
    exact ⟨hs, by simpa [Instr.wf], rfl, rfl⟩
  · rw [decode_dim hop, ifSelected_ok] at h
    obtain ⟨hs, ⟨⟩⟩ := h
    exact ⟨hs, rfl, rfl⟩
  · rw [decode_start hop, ifSelected_ok] at h
    obtain ⟨hs, ⟨⟩⟩ := h
    exact ⟨hs, rfl, trivial⟩
  · rw [decode_stat hop, ifSelected_ok] at h
    obtain ⟨hs, ⟨⟩⟩ := h
    exact ⟨hs, rfl, trivial⟩
  · rw [decode_undefined hop] at h
    cases h

theorem decode_of_fields (hs : i.row.selects w = true) (hwf : i.wf = true) (hf : i.HasFields w) :
    decode w = .ok i := by
  cases i with
  | pset ch x y b =>
    obtain ⟨hch, rfl, rfl, rfl⟩ := hf
    rw [decode_pset (selects_rowPSET.1 hs).1, ifSelected_ok, withChannel_ok]
    exact ⟨hs, ch, hch, rfl⟩
  | pget ch x y =>
    obtain ⟨hch, rfl, rfl⟩ := hf
    rw [decode_pget (selects_rowPGET.1 hs).1, ifSelected_ok, withChannel_ok]
    exact ⟨hs, ch, hch, rfl⟩
  | pclr ch =>
    rw [decode_pclr (selects_rowPCLR.1 hs).1, ifSelected_ok, withChannel_ok]
    exact ⟨hs, ch, hf, rfl⟩
  | blit =>
    rw [decode_blit (selects_rowBLIT.1 hs).1, ifSelected_ok]
    exact ⟨hs, rfl⟩
  | strd g n =>
    obtain ⟨rfl, rfl⟩ := hf
    rw [decode_strd (selects_rowSTRD.1 hs).1, ifSelected_ok]
    exact ⟨hs, if_pos (by simpa [Instr.wf] using hwf)⟩
  | dim l =>
    obtain rfl := hf
    rw [decode_dim (selects_rowDIM.1 hs).1, ifSelected_ok]
    exact ⟨hs, rfl⟩
  | start =>
    rw [decode_start (selects_rowSTART.1 hs).1, ifSelected_ok]
    exact ⟨hs, rfl⟩
  | stat =>
    rw [decode_stat (selects_rowSTAT.1 hs).1, ifSelected_ok]
    exact ⟨hs, rfl⟩

/-- A word is a command exactly where the command's row selects it, the extra condition on the index holds, and the
operands are its fields (R100, R107). -/
theorem decode_ok_iff : decode w = .ok i ↔ i.row.selects w = true ∧ i.wf = true ∧ i.HasFields w :=
  ⟨fields_of_decode, fun ⟨hs, hwf, hf⟩ => decode_of_fields hs hwf hf⟩

/-! ### Round trips -/

/-- Settles O1: the command's row selects its word, and the word's fields are the operands. -/
theorem decodeOfEncode : Obligations.DecodeOfEncode := fun i hwf =>
  decode_of_fields i.row_selects_encode hwf i.hasFields_encode

/-- Settles O2: the row's mask fixes every bit that is in no operand field. -/
theorem encodeOfDecode : Obligations.EncodeOfDecode := fun w i h => by
  obtain ⟨hs, hwf, hf⟩ := fields_of_decode h
  exact ⟨encode_of_selects hs hf, hwf⟩

/-! ### The opcode map -/

theorem opRows_disjoint {r q : OpRow} (hr : r ∈ opRows) (hq : q ∈ opRows) (hrw : r.selects w = true)
    (hqw : q.selects w = true) : r = q :=
  row_eq_of_opcode hr hq ((opcodeOf_of_selects hr hrw).symm.trans (opcodeOf_of_selects hq hqw))

/-- The extra conditions of R100 hold of a word that decodes. -/
theorem extra_of_decode (h : decode w = .ok i) :
    (i.row = rowPSET ∨ i.row = rowPGET ∨ i.row = rowPCLR → chOf w ≠ 3#2) ∧
      (i.row = rowSTRD → (iOf w).toNat < 48) := by
  obtain ⟨-, hwf, hf⟩ := fields_of_decode h
  cases i with
  | pset ch x y b => exact ⟨fun _ => Channel.exists_code_iff.1 ⟨ch, hf.1⟩, by simp [Instr.row, rowPSET, rowSTRD]⟩
  | pget ch x y => exact ⟨fun _ => Channel.exists_code_iff.1 ⟨ch, hf.1⟩, by simp [Instr.row, rowPGET, rowSTRD]⟩
  | pclr ch => exact ⟨fun _ => Channel.exists_code_iff.1 ⟨ch, hf⟩, by simp [Instr.row, rowPCLR, rowSTRD]⟩
  | strd g n =>
    obtain ⟨rfl, rfl⟩ := hf
    exact ⟨by simp [Instr.row, rowPSET, rowPGET, rowPCLR, rowSTRD], fun _ => by simpa [Instr.wf] using hwf⟩
  | blit | dim l | start | stat =>
    exact ⟨by simp [Instr.row, rowPSET, rowPGET, rowPCLR, rowBLIT, rowDIM, rowSTART, rowSTAT],
      by simp [Instr.row, rowSTRD, rowBLIT, rowDIM, rowSTART, rowSTAT]⟩

/-- A row of format P with its extra condition "ch ≠ 3": some channel has the code, and the word is that channel's
command. -/
theorem channelRow_iff {r : OpRow} {k : Channel → Instr}
    (hk : ∀ ch, decode w = .ok (k ch) ↔ r.selects w = true ∧ ch.code = chOf w) :
    w &&& r.mask = r.pattern ∧ chOf w ≠ 3#2 ↔ ∃ ch : Channel, ch.code = chOf w ∧ decode w = .ok (k ch) := by
  rw [← Channel.exists_code_iff, ← OpRow.selects_iff]
  constructor
  · rintro ⟨hs, ch, hch⟩
    exact ⟨ch, hch, (hk ch).2 ⟨hs, hch⟩⟩
  · rintro ⟨ch, hch, hd⟩
    exact ⟨((hk ch).1 hd).1, ch, hch⟩

/-- A row without an extra condition: selection alone decides. -/
theorem plainRow_iff (hwf : i.wf = true) (hf : i.HasFields w) :
    w &&& i.row.mask = i.row.pattern ↔ decode w = .ok i := by
  rw [decode_ok_iff, OpRow.selects_iff]
  exact ⟨fun hs => ⟨hs, hwf, hf⟩, fun h => h.1⟩

/-- STRD's row with its extra condition "i < 48". -/
theorem strdRow_iff :
    w &&& rowSTRD.mask = rowSTRD.pattern ∧ (iOf w).toNat < 48 ↔ decode w = .ok (.strd (gOf w) (iOf w)) := by
  rw [decode_ok_iff, ← OpRow.selects_iff]
  simp [Instr.row, Instr.wf, Instr.HasFields]

/-- Settles O3: rows have different opcodes, and what decode answers is read off row by row. -/
theorem opcodeMapDecides : Obligations.OpcodeMapDecides := by
  refine ⟨fun w r hr q hq => opRows_disjoint hr hq,
    fun w i h => ⟨i.row, i.row_mem, (fields_of_decode h).1, extra_of_decode h⟩, fun w => ⟨?_, ?_, ?_,
    plainRow_iff (i := .blit) rfl trivial, strdRow_iff, plainRow_iff (i := .dim (levelOf w)) rfl rfl,
    plainRow_iff (i := .start) rfl trivial, plainRow_iff (i := .stat) rfl trivial⟩⟩
  · exact channelRow_iff (r := rowPSET) fun ch => decode_ok_iff.trans (by simp [Instr.row, Instr.wf, Instr.HasFields])
  · exact channelRow_iff (r := rowPGET) fun ch => decode_ok_iff.trans (by simp [Instr.row, Instr.wf, Instr.HasFields])
  · exact channelRow_iff (r := rowPCLR) fun ch => decode_ok_iff.trans (by simp [Instr.row, Instr.wf, Instr.HasFields])

/-! ### The word formulas of R105 -/

/-- A format P word as the OR of its fields, each shifted to its place. -/
theorem formatP_eq_or (op : BitVec 4) (c : BitVec 2) (b z : Bit) (x y : BitVec 12) :
    formatP op c b z x y =
      zext32 op <<< 28 ||| zext32 c <<< 26 ||| zext32 b <<< 25 ||| zext32 z <<< 24 ||| zext32 x <<< 12 |||
        zext32 y := by
  apply BitVec.eq_of_getLsbD_eq
  intro k hk
  simp only [getLsbD_formatP, zext32, BitVec.getLsbD_or, BitVec.getLsbD_shiftLeft, BitVec.getLsbD_setWidth]
  interval_cases k <;> simp

/-- A format T word as the OR of its fields, each shifted to its place. -/
theorem formatT_eq_or (op : BitVec 4) (z : BitVec 20) (g : BitVec 2) (i : BitVec 6) :
    formatT op z g i = zext32 op <<< 28 ||| zext32 z <<< 8 ||| zext32 g <<< 6 ||| zext32 i := by
  apply BitVec.eq_of_getLsbD_eq
  intro k hk
  simp only [getLsbD_formatT, zext32, BitVec.getLsbD_or, BitVec.getLsbD_shiftLeft, BitVec.getLsbD_setWidth]
  interval_cases k <;> simp

/-- A format L word as the OR of its fields, each shifted to its place. -/
theorem formatL_eq_or (op : BitVec 4) (z : BitVec 20) (l : BitVec 8) :
    formatL op z l = zext32 op <<< 28 ||| zext32 z <<< 8 ||| zext32 l := by
  apply BitVec.eq_of_getLsbD_eq
  intro k hk
  simp only [getLsbD_formatL, zext32, BitVec.getLsbD_or, BitVec.getLsbD_shiftLeft, BitVec.getLsbD_setWidth]
  interval_cases k <;> simp

/-- Settles O5: each word is the OR of its fields, of which the zero ones fall away. -/
theorem assemblyFormulasGiveWords : Obligations.AssemblyFormulasGiveWords := by
  refine ⟨fun ch x y b => ?_, fun ch x y => ?_, fun ch => ?_, by decide, fun g i => ?_, fun l => ?_, by decide,
    by decide⟩
  · rw [encode_pset, formatP_eq_or]
    simp [zext32]
  · rw [encode_pget, formatP_eq_or]
    simp [zext32]
  · rw [encode_pclr, formatP_eq_or]
    simp [zext32]
  · rw [encode_strd, formatT_eq_or]
    simp [zext32]
  · rw [encode_dim, formatL_eq_or]
    simp [zext32]

end Sys2Proof

/-! PROOFS. The word at CP when agent P takes it (O4, O7), and the responses (O39). -/

namespace Sys2Proof.Machine

variable {s t : State} {w : Word} {i : Instr}

theorem runWord_ok (h : decode w = .ok i) (s : State) : runWord w s = exec i s := by simp [runWord, h]

theorem runWord_error {e : DecodeError} (h : decode w = .error e) (s : State) :
    runWord w s = .next (illegalWord s) := by
  simp [runWord, h]

/-- Settles O4: each opcode's row and extra condition fail in the ways R102 lists, and the drop of an illegal word sets
one flag and advances CP. -/
theorem illegalWordsDropped : Obligations.IllegalWordsDropped := by
  refine ⟨fun w => ?_, fun _ _ s h => runWord_error h s⟩
  rcases opcode_cases (opcodeOf w) with hop | hop | hop | hop | hop | hop | hop | hop | hop
  · rw [decode_pset hop, ifSelected_error, withChannel_error, selects_rowPSET]
    simp [hop]
  · rw [decode_pget hop, ifSelected_error, withChannel_error, selects_rowPGET, ← mbzPGET_iff]
    simp [hop]
  · rw [decode_pclr hop, ifSelected_error, withChannel_error, selects_rowPCLR, ← mbzPCLR_iff]
    simp [hop]
  · rw [decode_blit hop, ifSelected_error, selects_rowBLIT]
    simp [hop]
  · rw [decode_strd hop, ifSelected_error, selects_rowSTRD]
    rcases Nat.lt_or_ge (iOf w).toNat 48 with hi | hi
    · simp [hop, hi]
    · simp [hop, hi, Nat.not_lt.2 hi]
  · rw [decode_dim hop, ifSelected_error, selects_rowDIM]
    simp [hop]
  · rw [decode_start hop, ifSelected_error, selects_rowSTART]
    simp [hop]
  · rw [decode_stat hop, ifSelected_error, selects_rowSTAT]
    simp [hop]
  · rw [decode_undefined hop]
    simp [hop]

/-! ### The word at CP -/

theorem step_of_selectAgent {a : Agent} (hc : paramsOk s.cfg = true) (h : selectAgent s = some (a, t)) :
    step s = agentStep a t := by
  simp [step, hc, h]

theorem commandStep_of_fetch (hp : s.pstate = .idle) (hf : fetchCommand s = some w) : commandStep s = runWord w s := by
  simp [commandStep, hp, hf]

@[simp] theorem fetchCommand_choiceMade (s : State) : fetchCommand (choiceMade s) = fetchCommand s := rfl

/-- Selected between commands, agent P runs the word at CP. -/
theorem step_eq_runWord (hc : paramsOk s.cfg = true) (hp : s.pstate = .idle) (hf : fetchCommand s = some w)
    (h : selectAgent s = some (.P, t)) : step s = runWord w t := by
  rw [step_of_selectAgent hc h]
  obtain ⟨-, rfl | rfl⟩ := selectAgent_some h
  · exact commandStep_of_fetch hp hf
  · exact commandStep_of_fetch hp ((fetchCommand_choiceMade s).trans hf)

theorem selectAgent_P_alone (hP : pEnabled s = true) (hR : rEnabled s = false) (hS : sEnabled s = false) :
    selectAgent s = some (.P, s) :=
  selectAgent_single (by simp [enabledAgents, enabled, hP, hR, hS])

/-- Settles O7: the selected agent P runs the word at CP, and it is selected where it is the only enabled agent. -/
theorem stepRunsDecodedCommand : Obligations.StepRunsDecodedCommand := by
  intro s w hc hp hf
  refine ⟨fun t ht => ?_, selectAgent_P_alone (by simp [pEnabled, hp, fetchCommand, hf])⟩
  have hstep : step s = runWord w t := step_eq_runWord hc hp hf ht
  exact ⟨(selectAgent_some ht).2, fun i hi => hstep.trans (runWord_ok hi t),
    fun e he => hstep.trans (runWord_error he t)⟩

/-! ### Responses (R92) -/

/-- The commands that respond: PGET, STRD and STAT. -/
def Responds (i : Instr) : Prop := (∃ ch x y, i = .pget ch x y) ∨ (∃ g n, i = .strd g n) ∨ i = .stat

/-- STRD inside the table responds with the scan word (R154). -/
theorem exec_strd_eq {g : BitVec 2} {n : BitVec 6} (hn : n.toNat < 48) (s : State) :
    exec (.strd g n) s = .next (nextCommand (respond (zext32 (Memory.read s.st (g.toNat * 48 + n.toNat))) s)) := by
  change execStrd g n s = _
  rw [execStrd, stRead_eq s.st (by omega) hn]

/-- A well-formed command that responds appends one value and finishes. -/
theorem exec_responds (hr : Responds i) (hwf : i.wf = true) (h : exec i s = .next t) :
    (∃ v, t.rsp = s.rsp ++ [v]) ∧ t.cp = s.cp + 1 := by
  rcases hr with ⟨ch, x, y, rfl⟩ | ⟨g, n, rfl⟩ | rfl
  · cases h
    exact ⟨⟨_, rfl⟩, rfl⟩
  · rw [exec_strd_eq (by simpa [Instr.wf] using hwf)] at h
    cases h
    exact ⟨⟨_, rfl⟩, rfl⟩
  · cases h
    exact ⟨⟨_, rfl⟩, rfl⟩

theorem blitWord_rsp (s : State) : (blitWord s).rsp = s.rsp := by rw [blitWord_eq]

theorem dimStep_rsp (s : State) : (dimStep s).rsp = s.rsp := by
  cases hd : s.dsub with
  | lat => rw [dimStep_lat s hd]; split <;> rfl
  | data => rw [dimStep_data s hd]; rfl
  | clkhi => rw [dimStep_clkhi s hd]; rfl
  | clklo => rw [dimStep_clklo s hd]; rfl
  | latclr => rw [dimStep_latclr s hd]; rfl

/-- Every other command leaves the responses. -/
theorem exec_silent (hr : ¬ Responds i) (h : exec i s = .next t) : t.rsp = s.rsp := by
  rcases exec_cases h with ⟨ch, x, y, b, -, rfl⟩ | ⟨ch, x, y, rfl, -⟩ | ⟨ch, -, rfl⟩ | ⟨-, rfl⟩ | ⟨g, n, rfl, -⟩ |
    hdim | hstart | ⟨rfl, -⟩
  · split <;> rfl
  · exact absurd (.inl ⟨ch, x, y, rfl⟩) hr
  · rfl
  · exact blitWord_rsp _
  · exact absurd (.inr (.inl ⟨g, n, rfl⟩)) hr
  · obtain ⟨l, -, ⟨-, rfl⟩ | ⟨-, -, rfl⟩ | ⟨-, -, rfl⟩⟩ := hdim <;> rfl
  · obtain ⟨-, ⟨-, rfl⟩ | ⟨-, rfl⟩⟩ := hstart <;> rfl
  · exact absurd (.inr (.inr rfl)) hr

/-- A pass and a brightness sequence do not respond. -/
theorem commandStep_busy_rsp (hp : s.pstate ≠ .idle) (h : commandStep s = .next t) : t.rsp = s.rsp := by
  rcases commandStep_cases h with ⟨hi, -⟩ | ⟨hi, -⟩ | ⟨-, rfl⟩ | ⟨-, rfl⟩
  · exact absurd hi hp
  · exact absurd hi hp
  · exact blitWord_rsp s
  · exact dimStep_rsp s

theorem refreshStep_rsp (h : refreshStep s = .next t) : t.rsp = s.rsp := by
  rcases refreshStep_cases h with ⟨-, rfl⟩ | ⟨-, rfl⟩ | ⟨-, v, -, rfl⟩ | ⟨-, rfl⟩ | ⟨-, rfl⟩ | ⟨-, rfl⟩ | ⟨-, rfl⟩ |
    ⟨-, rfl⟩ | ⟨-, rfl⟩ <;> rfl

theorem serializerStep_rsp (s : State) : (serializerStep s).rsp = s.rsp := by
  rcases serializerStep_cases s with ⟨-, h⟩ | ⟨-, h⟩ | ⟨-, h⟩ | ⟨-, h⟩ <;> rw [h]
  case inl =>
    cases hf : s.fifo with
    | nil => simp [popStep, hf]
    | cons item rest => rw [popStep_cons s hf]
  all_goals rfl

/-- Settles O39: agent P responds only by the word it runs, where that is a command that responds; agents R and S never
do. -/
theorem responsesOnlyFromReads : Obligations.ResponsesOnlyFromReads := by
  refine ⟨fun w s t h => ?_, fun _ _ => commandStep_busy_rsp, fun _ _ => refreshStep_rsp, serializerStep_rsp⟩
  cases hd : decode w with
  | ok i =>
    rw [runWord_ok hd] at h
    simp only [Except.ok.injEq]
    exact ⟨fun hr => exec_responds hr (encodeOfDecode w i hd).2 h, fun hr => exec_silent hr h⟩
  | error e =>
    rw [runWord_error hd] at h
    cases h
    exact ⟨by simp, fun _ => rfl⟩

end Sys2Proof.Machine

/-! PROOFS. The pixel buffer commands (O15 to O18). PB is written and read at the signed coordinates of a command; each
command has one equation over these two accesses, and its statement is what a read after a write, or after a clear, gives. -/

namespace Sys2Proof.Machine

variable {m : Memory 1} {c ch : Channel} {x y x' y' : BitVec 12} {X Y : Nat} {b : Bit}

/-! ### PB at signed coordinates (R121) -/

/-- PB with the bit at the coordinates of a command: out of range, PB as it is. -/
def pbSet (m : Memory 1) (ch : Channel) (x y : BitVec 12) (b : Bit) : Memory 1 :=
  if inrange x.toInt y.toInt then pbWrite m (chanIndex ch) x.toInt.toNat y.toInt.toNat b else m

/-- The bit of PB at the coordinates of a command: out of range, 0. -/
def pbGet (m : Memory 1) (ch : Channel) (x y : BitVec 12) : Bit :=
  if inrange x.toInt y.toInt then pbRead m (chanIndex ch) x.toInt.toNat y.toInt.toNat else 0#1

theorem pbSet_inrange (h : inrange x.toInt y.toInt = true) :
    pbSet m ch x y b = pbWrite m (chanIndex ch) x.toInt.toNat y.toInt.toNat b := if_pos h

theorem pbSet_outside (h : ¬ inrange x.toInt y.toInt = true) : pbSet m ch x y b = m := if_neg h

theorem pbGet_inrange (h : inrange x.toInt y.toInt = true) :
    pbGet m ch x y = pbRead m (chanIndex ch) x.toInt.toNat y.toInt.toNat := if_pos h

theorem pbGet_outside (h : ¬ inrange x.toInt y.toInt = true) : pbGet m ch x y = 0#1 := if_neg h

/-! ### The commands by these accesses -/

theorem exec_pset (ch : Channel) (x y : BitVec 12) (b : Bit) (s : State) :
    exec (.pset ch x y b) s = .next (nextCommand { s with pb := pbSet s.pb ch x y b }) := by
  change Host.Outcome.next (nextCommand (if inrange x.toInt y.toInt then _ else s)) = _
  by_cases h : inrange x.toInt y.toInt = true
  · rw [if_pos h, pbSet_inrange h]
    rfl
  · rw [if_neg h, pbSet_outside h]

theorem exec_pget (ch : Channel) (x y : BitVec 12) (s : State) :
    exec (.pget ch x y) s = .next (nextCommand (respond ((pbGet s.pb ch x y).setWidth 32) s)) := by
  change Host.Outcome.next (nextCommand (respond (if inrange x.toInt y.toInt then _ else 0#32) s)) = _
  by_cases h : inrange x.toInt y.toInt = true
  · rw [if_pos h, pbGet_inrange h]
    rfl
  · rw [if_neg h, pbGet_outside h]
    rfl

theorem exec_pclr (ch : Channel) (s : State) :
    exec (.pclr ch) s = .next (nextCommand { s with pb := pbClear s.pb (chanIndex ch) }) := rfl

/-! ### Reads after a write and after a clear -/

/-- Other keys than the written pixel's read as before. -/
theorem read_pbSet_other {k : Nat} (hk : k ≠ pixelKey (chanIndex ch) x.toInt.toNat y.toInt.toNat) :
    Memory.read (pbSet m ch x y b) k = Memory.read m k := by
  by_cases h : inrange x.toInt y.toInt = true
  · rw [pbSet_inrange h]
    exact Memory.read_write_other m b hk
  · rw [pbSet_outside h]

/-- Any pixel after a write: it is the written one where its coordinates are those of the command, which puts them in
range. -/
theorem pbRead_pbSet (hm : Memory.wf m) (hX : X < 64) (hY : Y < 16) :
    pbRead (pbSet m ch x y b) (chanIndex c) X Y =
      if c = ch ∧ (X : Int) = x.toInt ∧ (Y : Int) = y.toInt then b else pbRead m (chanIndex c) X Y := by
  by_cases h : inrange x.toInt y.toInt = true
  · obtain ⟨hx0, hx, hy0, hy⟩ := (inrange_iff _ _).1 h
    have hXx : X = x.toInt.toNat ↔ (X : Int) = x.toInt := by omega
    have hYy : Y = y.toInt.toNat ↔ (Y : Int) = y.toInt := by omega
    rw [pbSet_inrange h, pbRead_pbWrite hm b (by omega) (by omega) hX hY]
    simp only [chanIndex_inj, hXx, hYy]
  · have hne : ¬ (c = ch ∧ (X : Int) = x.toInt ∧ (Y : Int) = y.toInt) := by
      rintro ⟨-, hXx, hYy⟩
      exact h ((inrange_iff _ _).2 (by omega))
    rw [pbSet_outside h, if_neg hne]

/-- A command's read after a command's write (R125 a, b). -/
theorem pbGet_pbSet (hm : Memory.wf m) (h' : inrange x'.toInt y'.toInt = true) :
    pbGet (pbSet m ch x y b) c x' y' = if (c, x', y') = (ch, x, y) then b else pbGet m c x' y' := by
  obtain ⟨hx0, hx, hy0, hy⟩ := (inrange_iff _ _).1 h'
  rw [pbGet_inrange h', pbGet_inrange h', pbRead_pbSet hm (by omega) (by omega)]
  simp only [Int.toNat_of_nonneg hx0, Int.toNat_of_nonneg hy0, BitVec.toInt_inj, Prod.mk.injEq]

/-- A write leaves what a command reads anywhere else, in range or not (R125 b). -/
theorem pbGet_pbSet_other (hm : Memory.wf m) (hne : (c, x', y') ≠ (ch, x, y)) :
    pbGet (pbSet m ch x y b) c x' y' = pbGet m c x' y' := by
  by_cases h' : inrange x'.toInt y'.toInt = true
  · rw [pbGet_pbSet hm h', if_neg hne]
  · rw [pbGet_outside h', pbGet_outside h']

/-- Any pixel after its plane or another one was cleared (R124). -/
theorem pbRead_pbClear_channel (hX : X < 64) (hY : Y < 16) :
    pbRead (pbClear m (chanIndex ch)) (chanIndex c) X Y = if c = ch then 0#1 else pbRead m (chanIndex c) X Y := by
  rw [pbRead_pbClear m hX hY]
  simp only [chanIndex_inj]
  rfl

/-- In a cleared plane a command reads 0 everywhere (R125 c). -/
theorem pbGet_pbClear_same : pbGet (pbClear m (chanIndex ch)) ch x y = 0#1 := by
  by_cases h : inrange x.toInt y.toInt = true
  · obtain ⟨-, hx, -, hy⟩ := (inrange_iff _ _).1 h
    rw [pbGet_inrange h, pbRead_pbClear_channel (by omega) (by omega), if_pos rfl]
  · exact pbGet_outside h

/-! ### The statements -/

/-- Settles O15: PSET is one write at signed coordinates. -/
theorem psetWritesOnePixel : Obligations.PsetWritesOnePixel := fun ch x y b s hwf =>
  ⟨_, exec_pset ch x y b s, rfl, rfl,
    fun hout => pbSet_outside (mt (inrange_iff _ _).1 hout),
    fun _ hk => read_pbSet_other hk,
    fun _ _ _ hX hY => pbRead_pbSet hwf hX hY⟩

/-- Settles O16: PGET responds with one read at signed coordinates. -/
theorem pgetRespondsPixel : Obligations.PgetRespondsPixel := by
  intro ch x y s
  rw [exec_pget]
  by_cases h : inrange x.toInt y.toInt = true
  · rw [pbGet_inrange h, if_pos ((inrange_iff _ _).1 h)]
    rfl
  · rw [pbGet_outside h, if_neg (mt (inrange_iff _ _).2 h)]
    rfl

/-- Settles O17: PCLR is the clear of one plane. -/
theorem pclrClearsOnePlane : Obligations.PclrClearsOnePlane := fun ch s =>
  ⟨_, exec_pclr ch s, rfl, rfl, fun _ _ _ hX hY => pbRead_pbClear_channel hX hY⟩

/-- R125 d, e: a pixel buffer command touches PB, RSP and CP only. -/
theorem exec_pixel_frame {i : Instr} {s t : State}
    (hi : (∃ ch x y b, i = .pset ch x y b) ∨ (∃ ch x y, i = .pget ch x y) ∨ (∃ ch, i = .pclr ch))
    (h : exec i s = .next t) : { t with pb := s.pb, rsp := s.rsp, cp := s.cp } = s := by
  rcases hi with ⟨ch, x, y, b, rfl⟩ | ⟨ch, x, y, rfl⟩ | ⟨ch, rfl⟩
  · rw [exec_pset] at h
    cases h
    rfl
  · rw [exec_pget] at h
    cases h
    rfl
  · rw [exec_pclr] at h
    cases h
    rfl

/-- Settles O18: each law is what PGET reads of the PB that the command before it left. -/
theorem pixelFamilyLaws : Obligations.PixelFamilyLaws := by
  intro s hwf
  refine ⟨fun ch x y b hin => ?_, fun ch c x y x' y' b hne => ?_, fun ch x y => ?_, fun i t hi h => ?_⟩
  · refine ⟨_, _, exec_pset ch x y b s, exec_pget .., ?_⟩
    have hread : pbGet (pbSet s.pb ch x y b) ch x y = b := by rw [pbGet_pbSet hwf hin, if_pos rfl]
    simp [hread]
  · refine ⟨_, _, _, exec_pset ch x y b s, exec_pget .., exec_pget .., ?_⟩
    simp [pbGet_pbSet_other hwf hne]
  · refine ⟨_, _, exec_pclr ch s, exec_pget .., ?_⟩
    simp [pbGet_pbClear_same]
  · have hframe := exec_pixel_frame hi h
    have hflags := congrArg State.flags hframe
    exact ⟨hflags, hframe⟩

end Sys2Proof.Machine

/-! PROOFS. The scan encoder (O19 to O22). A pair's bits are two selected pixels of the word's own channel, inside PB for
every admitted ROWSEL; all four statements are read off these bits. -/

namespace Sys2Proof.Machine

variable {c : Params} {pb : Memory 1} {g i k n : Nat}

/-! ### The selected pixels of a pair -/

/-- An admitted ROWSEL is an arrangement of the four row offsets (R144). -/
theorem rowSelOk_perm {r : RowSel} (h : rowSelOk r = true) :
    [0, 4, 8, 12].Perm [r.first0, r.second0, r.first1, r.second1] := by
  have hsub : [0, 4, 8, 12] ⊆ [r.first0, r.second0, r.first1, r.second1] := fun o ho =>
    List.count_pos_iff.1 (by simpa using Nat.le_of_eq (beq_iff_eq.1 (List.all_eq_true.1 h o ho)).symm)
  exact (List.subperm_of_subset (by decide) hsub).perm_of_length_le (by simp)

/-- Each offset of an admitted ROWSEL is at most 12. -/
theorem rowSel_le {r : RowSel} (h : rowSelOk r = true) :
    r.first0 ≤ 12 ∧ r.second0 ≤ 12 ∧ r.first1 ≤ 12 ∧ r.second1 ≤ 12 := by
  have hle : ∀ o ∈ [r.first0, r.second0, r.first1, r.second1], o ≤ 12 := fun o ho =>
    (by decide : ∀ o ∈ [0, 4, 8, 12], o ≤ 12) o ((rowSelOk_perm h).mem_iff.2 ho)
  simpa using hle

theorem firstOffset_le (h : rowSelOk c.rowSel = true) (w : Nat) : firstOffset c w ≤ 12 := by
  obtain ⟨h0, -, h1, -⟩ := rowSel_le h
  unfold firstOffset
  split
  · exact h0
  · exact h1

theorem secondOffset_le (h : rowSelOk c.rowSel = true) (w : Nat) : secondOffset c w ≤ 12 := by
  obtain ⟨-, h0, -, h1⟩ := rowSel_le h
  unfold secondOffset
  split
  · exact h0
  · exact h1

theorem pairColumn_le {p : Nat} (hp : p < 8) (hk : k < 8) : pairColumn c p k ≤ 63 := by
  unfold pairColumn
  split <;> split <;> omega

/-- The pixel of the first selection of pair k (R144). -/
def firstPixel (c : Params) (pb : Memory 1) (g i k : Nat) : Bit :=
  pbRead pb (wordChan i) (pairColumn c (wordPos i) k) (g + firstOffset c (wordSel i))

/-- The pixel of the second selection of pair k (R144). -/
def secondPixel (c : Params) (pb : Memory 1) (g i k : Nat) : Bit :=
  pbRead pb (wordChan i) (pairColumn c (wordPos i) k) (g + secondOffset c (wordSel i))

/-- The two bits of a pair (R143, R145). -/
theorem getLsbD_encPair :
    (encPair c pb g i k).getLsbD 1 = (if c.slotSwap then secondPixel c pb g i k else firstPixel c pb g i k).getLsbD 0 ∧
    (encPair c pb g i k).getLsbD 0 =
      (if c.slotSwap then firstPixel c pb g i k else secondPixel c pb g i k).getLsbD 0 := by
  cases h : c.slotSwap with
  | false => rw [encPair_plain h, getLsbD_joinBits_one, getLsbD_joinBits_zero]; exact ⟨rfl, rfl⟩
  | true => rw [encPair_swapped h, getLsbD_joinBits_one, getLsbD_joinBits_zero]; exact ⟨rfl, rfl⟩

/-- The upper bit of pair k of a scan word (R143). -/
theorem getLsbD_encWord_upper (hk : k < 8) :
    (encWord c pb g i).getLsbD (15 - 2 * k) =
      (if c.slotSwap then secondPixel c pb g i k else firstPixel c pb g i k).getLsbD 0 := by
  have hpair : (15 - (15 - 2 * k)) / 2 = k := by omega
  have hbit : (15 - 2 * k) % 2 = 1 := by omega
  rw [getLsbD_encWord c pb g i _ (by omega), hpair, hbit, getLsbD_encPair.1]

/-- The lower bit of pair k of a scan word (R143). -/
theorem getLsbD_encWord_lower (hk : k < 8) :
    (encWord c pb g i).getLsbD (14 - 2 * k) =
      (if c.slotSwap then firstPixel c pb g i k else secondPixel c pb g i k).getLsbD 0 := by
  have hpair : (15 - (14 - 2 * k)) / 2 = k := by omega
  have hbit : (14 - 2 * k) % 2 = 0 := by omega
  rw [getLsbD_encWord c pb g i _ (by omega), hpair, hbit, getLsbD_encPair.2]

/-! ### A word is made of pixels of its own channel -/

/-- Every bit of a scan word is a copy of one pixel of the word's channel, the same for every PB (R145). -/
theorem encWord_bit_is_pixel (hr : rowSelOk c.rowSel = true) (hg : g < 4) (hi : i < 48) (hn : n < 16) :
    ∃ x y, x < 64 ∧ y < 16 ∧
      ∀ pb, (encWord c pb g i).getLsbD n = (pbRead pb (wordChan i) x y).getLsbD 0 := by
  obtain ⟨k, hk, hbit⟩ : ∃ k, k < 8 ∧ (n = 15 - 2 * k ∨ n = 14 - 2 * k) := ⟨(15 - n) / 2, by omega⟩
  have hx : pairColumn c (wordPos i) k ≤ 63 := pairColumn_le (by unfold wordPos; omega) hk
  have hfirst := firstOffset_le hr (wordSel i)
  have hsecond := secondOffset_le hr (wordSel i)
  have first : ∃ x y, x < 64 ∧ y < 16 ∧
      ∀ pb, (firstPixel c pb g i k).getLsbD 0 = (pbRead pb (wordChan i) x y).getLsbD 0 :=
    ⟨_, _, by omega, by omega, fun _ => rfl⟩
  have second : ∃ x y, x < 64 ∧ y < 16 ∧
      ∀ pb, (secondPixel c pb g i k).getLsbD 0 = (pbRead pb (wordChan i) x y).getLsbD 0 :=
    ⟨_, _, by omega, by omega, fun _ => rfl⟩
  rcases hbit with rfl | rfl <;> by_cases hs : c.slotSwap = true
  · simpa only [getLsbD_encWord_upper hk, if_pos hs] using second
  · simpa only [getLsbD_encWord_upper hk, if_neg hs] using first
  · simpa only [getLsbD_encWord_lower hk, if_pos hs] using first
  · simpa only [getLsbD_encWord_lower hk, if_neg hs] using second

/-- A word depends on no channel but its own (R152). -/
theorem encWord_congr {pb' : Memory 1} (hr : rowSelOk c.rowSel = true) (hg : g < 4) (hi : i < 48)
    (h : ∀ x y, x < 64 → y < 16 → pbRead pb (wordChan i) x y = pbRead pb' (wordChan i) x y) :
    encWord c pb g i = encWord c pb' g i :=
  BitVec.eq_of_getLsbD_eq fun _ hn => by
    obtain ⟨x, y, hx, hy, hbit⟩ := encWord_bit_is_pixel hr hg hi hn
    rw [hbit, hbit, h x y hx hy]

/-- A plane of 0s gives words of 0s (R145). -/
theorem encWord_of_zeros (hr : rowSelOk c.rowSel = true) (hg : g < 4) (hi : i < 48)
    (h : ∀ x y, x < 64 → y < 16 → pbRead pb (wordChan i) x y = 0#1) : encWord c pb g i = 0x0000#16 :=
  BitVec.eq_of_getLsbD_eq fun _ hn => by
    obtain ⟨x, y, hx, hy, hbit⟩ := encWord_bit_is_pixel hr hg hi hn
    simp [hbit, h x y hx hy]

/-- A plane of 1s gives words of 1s (R145). -/
theorem encWord_of_ones (hr : rowSelOk c.rowSel = true) (hg : g < 4) (hi : i < 48)
    (h : ∀ x y, x < 64 → y < 16 → pbRead pb (wordChan i) x y = 1#1) : encWord c pb g i = 0xFFFF#16 :=
  BitVec.eq_of_getLsbD_eq (y := BitVec.allOnes 16) fun _ hn => by
    obtain ⟨x, y, hx, hy, hbit⟩ := encWord_bit_is_pixel hr hg hi hn
    rw [hbit, h x y hx hy, BitVec.getLsbD_allOnes, decide_eq_true hn]
    rfl

/-! ### Pair by pair, bit by bit (R145) -/

theorem wordChan_le (i : Nat) : wordChan i ≤ 2 := by
  unfold wordChan
  omega

/-- Settles O20: the bits of each pair are the selected pixels, and an admitted ROWSEL keeps the rows inside PB. -/
theorem encWordGeneralPairs : Obligations.EncWordGeneralPairs := by
  intro c pb g i hc hg hi
  obtain ⟨-, hr, -⟩ := (paramsOk_iff c).1 hc
  refine ⟨fun k hk => ?_, encWord_of_zeros hr hg hi, encWord_of_ones hr hg hi⟩
  have hy1 := firstOffset_le hr (wordSel i)
  have hy2 := secondOffset_le hr (wordSel i)
  exact ⟨getLsbD_encWord_upper hk, getLsbD_encWord_lower hk, pairColumn_le (p := i / 6) (by omega) hk,
    (by omega : g + firstOffset c (wordSel i) ≤ 15), (by omega : g + secondOffset c (wordSel i) ≤ 15), wordChan_le i⟩

theorem firstPixel_default (d : Nat) :
    firstPixel (Params.default d) pb g i k = pbRead pb (i % 6 / 2) (8 * (i / 6) + k) (g + 4 * (i % 2)) := by
  have hrow : firstOffset (Params.default d) (wordSel i) = 4 * (i % 2) := by
    rcases Nat.mod_two_eq_zero_or_one i with h | h <;> simp [firstOffset, wordSel, Params.default, h]
  rw [firstPixel, hrow]
  rfl

theorem secondPixel_default (d : Nat) :
    secondPixel (Params.default d) pb g i k = pbRead pb (i % 6 / 2) (8 * (i / 6) + k) (g + 8 + 4 * (i % 2)) := by
  have hrow : secondOffset (Params.default d) (wordSel i) = 8 + 4 * (i % 2) := by
    rcases Nat.mod_two_eq_zero_or_one i with h | h <;> simp [secondOffset, wordSel, Params.default, h]
  rw [secondPixel, hrow, ← Nat.add_assoc]
  rfl

/-- Settles O19: the general bits at the default offsets; no bit reads FIFO_DEPTH, so a depth of 0 is covered too. -/
theorem encWordDefaultBits : Obligations.EncWordDefaultBits := by
  intro d pb g i hg hi
  refine ⟨fun k hk => ⟨?_, ?_, by omega, by omega, wordChan_le i⟩, encWord_of_zeros rfl hg hi,
    encWord_of_ones rfl hg hi⟩
  · rw [getLsbD_encWord_upper hk, ← firstPixel_default d]
    rfl
  · rw [getLsbD_encWord_lower hk, ← secondPixel_default d]
    rfl

/-! ### The inverse map and the channels (R146, R152) -/

/-- Where a pixel's bit stands in its scan word with default parameters: rows 0 to 7 in the upper bit of the pair, rows 8
to 15 in the lower (R146). -/
theorem getLsbD_encWord_pixel (d : Nat) {ch x y : Nat} (hch : ch < 3) (hx : x < 64) (hy : y < 16) :
    (encWord (Params.default d) pb (y % 4) (6 * (x / 8) + 2 * ch + y / 4 % 2)).getLsbD
      (15 - 2 * (x % 8) - y / 4 / 2) = (pbRead pb ch x y).getLsbD 0 := by
  obtain ⟨hbits, -⟩ := encWordDefaultBits d pb (y % 4) (6 * (x / 8) + 2 * ch + y / 4 % 2) (by omega) (by omega)
  obtain ⟨hupper, hlower, -⟩ := hbits (x % 8) (by omega)
  have hchan : (6 * (x / 8) + 2 * ch + y / 4 % 2) % 6 / 2 = ch := by omega
  have hcol : 8 * ((6 * (x / 8) + 2 * ch + y / 4 % 2) / 6) + x % 8 = x := by omega
  rw [hchan, hcol] at hupper hlower
  rcases Nat.lt_or_ge y 8 with h8 | h8
  · have hbit : 15 - 2 * (x % 8) - y / 4 / 2 = 15 - 2 * (x % 8) := by omega
    have hrow : y % 4 + 4 * ((6 * (x / 8) + 2 * ch + y / 4 % 2) % 2) = y := by omega
    rw [hbit, hupper, hrow]
  · have hbit : 15 - 2 * (x % 8) - y / 4 / 2 = 14 - 2 * (x % 8) := by omega
    have hrow : y % 4 + 8 + 4 * ((6 * (x / 8) + 2 * ch + y / 4 % 2) % 2) = y := by omega
    rw [hbit, hlower, hrow]

/-- Settles O21: the bit's place gives the pixel's channel, column and row back by division. -/
theorem pixelAtOneBitOfTable : Obligations.PixelAtOneBitOfTable := by
  refine ⟨fun d pb ch x y => getLsbD_encWord_pixel d, fun g i bit hg hi hbit => ?_, fun ch x y hch hx hy => ?_⟩
  · refine ⟨(i % 6 / 2, 8 * (i / 6) + (15 - bit) / 2, g + 4 * (i % 2) + 8 * ((15 - bit) % 2)), ?_, ?_⟩
    · dsimp only
      omega
    · rintro ⟨ch, x, y⟩ ⟨⟨hch, hx, hy⟩, rfl, rfl, rfl⟩
      dsimp only at hch hx hy ⊢
      rw [Prod.mk.injEq, Prod.mk.injEq]
      omega
  · omega

/-- Settles O22: a word is made of its own channel's pixels, and a word index of 2 or more modulo 6 is not blue. -/
theorem wordDependsOnOwnChannel : Obligations.WordDependsOnOwnChannel := by
  intro c g i hc hg hi
  obtain ⟨-, hr, -⟩ := (paramsOk_iff c).1 hc
  refine ⟨fun ch pb pb' hch h => ?_, fun pb h h2 => ?_⟩
  · rw [hch] at h
    exact encWord_congr hr hg hi h
  · obtain ⟨ch, hne, hch⟩ : ∃ ch, ch ≠ Channel.blue ∧ chanIndex ch = wordChan i := by
      rcases (by unfold wordChan; omega : wordChan i = 1 ∨ wordChan i = 2) with hw | hw
      · exact ⟨.green, nofun, hw.symm⟩
      · exact ⟨.red, nofun, hw.symm⟩
    exact encWord_of_zeros hr hg hi fun x y => hch ▸ h ch x y hne

end Sys2Proof.Machine

/-! PROOFS. The commands STRD (O29) and BLIT (O23 to O28). A pass is the word step iterated: the words below the cursor
encode PB, every word step adds one, and no other agent's step touches what a pass works on. -/

namespace Sys2Proof.Machine

variable {s t u : State}

/-! ### STRD -/

/-- Settles O29: inside the table STRD is one read and one response; outside there is no word, and the command is
dropped. -/
theorem strdRespondsScanWord : Obligations.StrdRespondsScanWord := by
  refine fun g i s => ⟨fun hi => exec_strd_eq hi s, fun hi => ?_⟩
  change execStrd g i s = _
  rw [execStrd, stRead, scanKey_none hi]
  rfl

/-! ### The word step -/

/-- The scan word at flat index k (R148). -/
def flatWord (c : Params) (pb : Memory 1) (k : Nat) : ScanWord :=
  encWord c pb (k / Config.NWORD) (k % Config.NWORD)

/-- State `t` with the fields a pass changes put back to what they are in `s`. -/
def passPutBack (s t : State) : State :=
  { t with eacc := s.eacc, ecur := s.ecur, st := s.st, pstate := s.pstate, cp := s.cp }

/-- The word step touches the fields of a pass only (R148). -/
theorem blitWord_frame (s : State) : passPutBack s (blitWord s) = s := by
  rw [blitWord_eq]
  rfl

theorem blitWord_eacc (s : State) : (blitWord s).eacc = flatWord s.cfg s.pb s.ecur.toNat := by
  rw [blitWord_eq]
  rfl

/-- The word written is the one at the cursor, and its value is EACC. -/
theorem blitWord_st (he : s.ecur.toNat < 192) :
    (blitWord s).st = Memory.write s.st s.ecur.toNat (blitWord s).eacc := by
  have hkey : s.ecur.toNat / 48 * 48 + s.ecur.toNat % 48 = s.ecur.toNat := by omega
  rw [blitWord_eq]
  dsimp only
  rw [stWrite_eq s.st (by omega) (by omega), hkey]

theorem blitWord_wf (h : Memory.wf s.st) : Memory.wf (blitWord s).st := by
  rw [blitWord_eq]
  exact wf_stWrite h _ _ _

/-- ST after the word step, at every key. -/
theorem blitWord_read (h : Memory.wf s.st) (he : s.ecur.toNat < 192) (k : Nat) :
    Memory.read (blitWord s).st k = if k = s.ecur.toNat then (blitWord s).eacc else Memory.read s.st k := by
  rw [blitWord_st he, Memory.read_write h]

theorem blitWord_ecur (he : s.ecur.toNat < 192) : (blitWord s).ecur.toNat = s.ecur.toNat + 1 := by
  rw [blitWord_eq]
  exact toNat_add_one (by omega)

/-- After the last word the pass ends and CP goes on (R148). -/
theorem blitWord_last (he : s.ecur.toNat = 191) : (blitWord s).pstate = .idle ∧ (blitWord s).cp = s.cp + 1 := by
  have hend : s.ecur + 1#8 = 192#8 := BitVec.eq_of_toNat_eq (by rw [toNat_add_one (by omega), he]; rfl)
  rw [blitWord_eq]
  exact ⟨if_pos hend, if_pos hend⟩

/-- Before the last word the pass goes on (R148). -/
theorem blitWord_inside (he : s.ecur.toNat < 191) : (blitWord s).pstate = s.pstate ∧ (blitWord s).cp = s.cp := by
  have hne : s.ecur + 1#8 ≠ 192#8 := fun heq => by
    have := congrArg BitVec.toNat heq
    rw [toNat_add_one (by omega)] at this
    exact absurd this (Nat.ne_of_lt (Nat.succ_lt_succ he))
  rw [blitWord_eq]
  exact ⟨if_neg hne, if_neg hne⟩

/-- The state in which BLIT's decode step takes its word step (R147). -/
def passStart (s : State) : State := { s with ecur := 0#8, pstate := .blit }

/-- BLIT's first step is the word step from cursor 0 (R147). -/
theorem exec_blit (s : State) : exec .blit s = .next (blitWord (passStart s)) := rfl

/-- Inside a pass agent P's step is the word step (R148). -/
theorem commandStep_of_blit (hp : s.pstate = .blit) : commandStep s = .next (blitWord s) := by
  simp [commandStep, hp]

/-- Settles O23: the word step at cursor 0. -/
theorem blitTakesFirstWordStep : Obligations.BlitTakesFirstWordStep := by
  intro s hwf
  have hcursor : (passStart s).ecur.toNat = 0 := rfl
  have hword : (blitWord (passStart s)).eacc = encWord s.cfg s.pb 0 0 := by rw [blitWord_eacc, hcursor]; rfl
  refine ⟨_, exec_blit s, (blitWord_inside (by omega)).1, BitVec.eq_of_toNat_eq (blitWord_ecur (by omega)), hword, ?_,
    fun k => ?_⟩
  · rw [blitWord_eq]
    rfl
  · rw [blitWord_read (s := passStart s) hwf (by omega), hword, hcursor]
    rfl

/-- Settles O24: ST by group and index is ST by flat index; the cursor decides whether the pass ends. -/
theorem blitWordStep : Obligations.BlitWordStep := by
  intro s hp he hwf
  refine ⟨_, commandStep_of_blit hp, by simpa [pEnabled, hp] using he, blitWord_eacc s, blitWord_ecur he,
    fun g i hg hi => ?_, blitWord_read hwf he, blitWord_last, fun hlt => hp ▸ blitWord_inside hlt, blitWord_frame s⟩
  have hkey : g * 48 + i = s.ecur.toNat ↔ g = s.ecur.toNat / 48 ∧ i = s.ecur.toNat % 48 := by omega
  rw [stRead_eq _ hg hi, stRead_eq _ hg hi, blitWord_read hwf he]
  simp only [hkey]
  split <;> rfl

/-! ### The words encoded so far -/

/-- The first `n` words of ST are the encoding of PB. -/
def EncodedTo (n : Nat) (s : State) : Prop := ∀ k, k < n → Memory.read s.st k = flatWord s.cfg s.pb k

theorem blitProgress_iff : BlitProgress s ↔ (s.pstate = .blit → EncodedTo s.ecur.toNat s) := Iff.rfl

/-- A table with all 192 words encoded (R149). -/
theorem EncodedTo.table (h : EncodedTo 192 s) : TableEncodes s := fun g i hg hi => by
  simp only [Config.NGROUP_eq, Config.NWORD_eq] at hg hi
  have hgroup : (g * 48 + i) / 48 = g := by omega
  have hword : (g * 48 + i) % 48 = i := by omega
  rw [stRead_eq _ hg hi, h _ (by omega), flatWord, Config.NWORD_eq, hgroup, hword]

theorem blitWord_cfg (s : State) : (blitWord s).cfg = s.cfg := by rw [blitWord_eq]

theorem blitWord_pb (s : State) : (blitWord s).pb = s.pb := by rw [blitWord_eq]

/-- The word step encodes one word more. -/
theorem EncodedTo.blitWord (h : EncodedTo s.ecur.toNat s) (hwf : Memory.wf s.st) (he : s.ecur.toNat < 192) :
    EncodedTo (s.ecur.toNat + 1) (blitWord s) := fun k hk => by
  rw [blitWord_read hwf he, blitWord_cfg, blitWord_pb]
  split
  · rename_i heq
    rw [heq, blitWord_eacc]
  · exact h k (by omega)

/-- The word step keeps the progress of the pass, in the pass and at its end. -/
theorem BlitProgress.blitWord (h : EncodedTo s.ecur.toNat s) (hwf : Memory.wf s.st) (he : s.ecur.toNat < 192) :
    BlitProgress (blitWord s) := blitProgress_iff.2 fun _ => by
  rw [blitWord_ecur he]
  exact h.blitWord hwf he

/-! ### What the other agents do meanwhile -/

/-- What a pass works on is the same in both states. -/
structure SamePass (s t : State) : Prop where
  cfg : t.cfg = s.cfg
  pb : t.pb = s.pb
  st : t.st = s.st
  pstate : t.pstate = s.pstate
  ecur : t.ecur = s.ecur

theorem SamePass.refresh (h : refreshStep s = .next t) : SamePass s t := by
  rcases refreshStep_cases h with ⟨-, rfl⟩ | ⟨-, rfl⟩ | ⟨-, v, -, rfl⟩ | ⟨-, rfl⟩ | ⟨-, rfl⟩ | ⟨-, rfl⟩ | ⟨-, rfl⟩ |
    ⟨-, rfl⟩ | ⟨-, rfl⟩ <;> exact ⟨rfl, rfl, rfl, rfl, rfl⟩

theorem SamePass.serializer (s : State) : SamePass s (serializerStep s) := by
  rcases serializerStep_cases s with ⟨-, h⟩ | ⟨-, h⟩ | ⟨-, h⟩ | ⟨-, h⟩ <;> rw [h]
  case inl =>
    cases hf : s.fifo with
    | nil => simp only [popStep, hf]; exact ⟨rfl, rfl, rfl, rfl, rfl⟩
    | cons item rest => rw [popStep_cons s hf]; exact ⟨rfl, rfl, rfl, rfl, rfl⟩
  all_goals exact ⟨rfl, rfl, rfl, rfl, rfl⟩

theorem SamePass.progress (h : SamePass s t) (hs : BlitProgress s) : BlitProgress t := fun hp => by
  rw [h.ecur, h.st, h.cfg, h.pb]
  exact hs (h.pstate ▸ hp)

/-- The only command that begins a pass is BLIT (R22). -/
theorem exec_begins_pass {i : Instr} (hp : s.pstate = .idle) (h : exec i s = .next t) (ht : t.pstate = .blit) :
    t = blitWord (passStart s) := by
  have stays : t.pstate ≠ s.pstate := by rw [ht, hp]; nofun
  rcases exec_cases h with ⟨ch, x, y, b, -, rfl⟩ | ⟨ch, x, y, -, v, rfl⟩ | ⟨ch, -, rfl⟩ | ⟨-, rfl⟩ | hstrd | hdim | hstart |
    ⟨-, rfl⟩
  · exact absurd (by split <;> rfl) stays
  · exact absurd rfl stays
  · exact absurd rfl stays
  · rfl
  · obtain ⟨g, n, -, ⟨v, rfl⟩ | rfl⟩ := hstrd <;> exact absurd rfl stays
  · obtain ⟨l, -, ⟨-, rfl⟩ | ⟨-, -, rfl⟩ | ⟨-, -, rfl⟩⟩ := hdim
    · exact absurd rfl stays
    · exact absurd rfl stays
    · cases ht
  · obtain ⟨-, ⟨-, rfl⟩ | ⟨-, rfl⟩⟩ := hstart <;> exact absurd rfl stays
  · exact absurd rfl stays

/-- The brightness sequence goes on or ends, and begins no pass (R233). -/
theorem dimStep_not_blit (hp : s.pstate = .dim) : (dimStep s).pstate ≠ .blit := by
  have hne : s.pstate ≠ .blit := by rw [hp]; nofun
  cases hd : s.dsub with
  | lat => rw [dimStep_lat s hd]; split <;> exact hne
  | data => rw [dimStep_data s hd]; exact hne
  | clkhi => rw [dimStep_clkhi s hd]; exact hne
  | clklo => rw [dimStep_clklo s hd]; exact hne
  | latclr =>
    rw [dimStep_latclr s hd]
    dsimp only
    split
    · nofun
    · exact hne

/-- Agent P keeps the progress: a pass begins with the first word and goes on word by word. -/
theorem BlitProgress.command (hI : Inv s) (hs : BlitProgress s) (h : commandStep s = .next t) : BlitProgress t := by
  rcases commandStep_cases h with ⟨-, -, rfl⟩ | ⟨hp, w, -, ⟨i, -, hi⟩ | ⟨e, -, rfl⟩⟩ | ⟨hp, rfl⟩ | ⟨hp, rfl⟩
  · exact hs
  · intro ht
    obtain rfl := exec_begins_pass hp hi ht
    exact BlitProgress.blitWord (s := passStart s) nofun hI.stWf (Nat.zero_lt_succ _) ht
  · exact fun ht => by cases hp.symm.trans ht
  · exact .blitWord (hs hp) hI.stWf (hI.blitCursor hp).2
  · exact fun ht => absurd ht (dimStep_not_blit hp)

theorem BlitProgress.agent {a : Agent} (hI : Inv s) (hs : BlitProgress s) (h : agentStep a s = .next t) :
    BlitProgress t := by
  cases a with
  | P => exact hs.command hI h
  | R => exact (SamePass.refresh h).progress hs
  | S => cases h; exact (SamePass.serializer s).progress hs

/-- Settles O25: each agent's step keeps the progress. -/
theorem blitProgressKept : Obligations.BlitProgressKept := fun _ _ hI hs h =>
  step_rel (Rel := fun s t => Inv s → BlitProgress s → BlitProgress t) (fun _ _ hs => hs)
    (fun _ _ _ _ ha hI hs => hs.agent hI ha) (fun _ _ hc hI hs => hc hI.choiceMade hs) h hI hs

/-! ### The end of a pass -/

/-- From `s` to `t` a pass ended, with the whole table encoded. -/
def PassEnds (s t : State) : Prop := TableEncodes t ∧ t.pb = s.pb ∧ t.cp = s.cp + 1

/-- The word step that ends a pass was the one of word 191. -/
theorem PassEnds.blitWord (h : EncodedTo s.ecur.toNat s) (hwf : Memory.wf s.st) (he : s.ecur.toNat < 192)
    (hp : s.pstate = .blit) (ht : (blitWord s).pstate = .idle) : PassEnds s (blitWord s) := by
  have hlast : s.ecur.toNat = 191 := by
    by_contra hne
    rw [(blitWord_inside (by omega)).1, hp] at ht
    cases ht
  have hall := h.blitWord hwf he
  rw [hlast] at hall
  exact ⟨hall.table, blitWord_pb s, (blitWord_last hlast).2⟩

/-- Agents R and S do not end a pass. -/
theorem PassEnds.agent {a : Agent} (hI : Inv s) (hs : BlitProgress s) (hp : s.pstate = .blit)
    (h : agentStep a s = .next t) (ht : t.pstate = .idle) : PassEnds s t := by
  have running : ¬ SamePass s t := fun hsame => by cases hp.symm.trans (hsame.pstate.symm.trans ht)
  cases a with
  | P =>
    change commandStep s = _ at h
    rw [commandStep_of_blit hp] at h
    cases h
    exact .blitWord (hs hp) hI.stWf (hI.blitCursor hp).2 hp ht
  | R => exact absurd (SamePass.refresh h) running
  | S => cases h; exact absurd (SamePass.serializer s) running

/-- Settles O26: only agent P's step of word 191 ends a pass. -/
theorem blitEndsWithTableEncoded : Obligations.BlitEndsWithTableEncoded := fun _ _ hI hs hp h ht =>
  step_rel (Rel := fun s t => Inv s → BlitProgress s → s.pstate = .blit → t.pstate = .idle → PassEnds s t)
    (fun _ _ _ hp ht => by cases hp.symm.trans ht)
    (fun _ _ _ _ ha hI hs hp ht => .agent hI hs hp ha ht)
    (fun _ _ hc hI hs hp ht => hc hI.choiceMade hs hp ht) h hI hs hp ht

/-! ### A whole pass by agent P alone -/

/-- What a finished pass has done, from any state inside it. -/
structure PassDone (s t : State) : Prop where
  encoded : EncodedTo 192 t
  wf : Memory.wf t.st
  idle : t.pstate = .idle
  cp : t.cp = s.cp + 1
  frame : passPutBack s t = s
  outside : ∀ k, 192 ≤ k → Memory.read t.st k = Memory.read s.st k

theorem agentRun_P_succ (n : Nat) (h : commandStep s = .next t) : agentRun .P (n + 1) s = agentRun .P n t := by
  simp [agentRun, agentStep, h]

/-- The last word step of a pass finishes it. -/
theorem PassDone.last (h : EncodedTo s.ecur.toNat s) (hwf : Memory.wf s.st) (he : s.ecur.toNat = 191) :
    PassDone s (blitWord s) where
  encoded := by
    have hall := h.blitWord hwf (by omega)
    rwa [he] at hall
  wf := blitWord_wf hwf
  idle := (blitWord_last he).1
  cp := (blitWord_last he).2
  frame := blitWord_frame s
  outside k hk := by rw [blitWord_read hwf (by omega), if_neg (by omega)]

/-- What the rest of a pass does after a word step, the pass does from before it. -/
theorem PassDone.of_blitWord (hwf : Memory.wf s.st) (he : s.ecur.toNat < 191) (h : PassDone (blitWord s) t) :
    PassDone s t where
  encoded := h.encoded
  wf := h.wf
  idle := h.idle
  cp := by rw [h.cp, (blitWord_inside he).2]
  frame := calc
    passPutBack s t = passPutBack s (passPutBack (Machine.blitWord s) t) := rfl
    _ = s := by rw [h.frame, blitWord_frame]
  outside k hk := by rw [h.outside k hk, blitWord_read hwf (by omega), if_neg (by omega)]

/-- Agent P alone, inside a pass with `n + 1` words to go, finishes it in as many steps (R148, R149). -/
theorem agentRun_pass (n : Nat) (s : State) (hp : s.pstate = .blit) (he : s.ecur.toNat + (n + 1) = 192)
    (hwf : Memory.wf s.st) (hs : EncodedTo s.ecur.toNat s) : ∃ t, agentRun .P (n + 1) s = .next t ∧ PassDone s t := by
  induction n generalizing s with
  | zero => exact ⟨_, agentRun_P_succ 0 (commandStep_of_blit hp), .last hs hwf (by omega)⟩
  | succ n ih =>
    have hinside : s.ecur.toNat < 191 := by omega
    have hcursor : (blitWord s).ecur.toNat = s.ecur.toNat + 1 := blitWord_ecur (by omega)
    obtain ⟨t, hrun, hdone⟩ := ih (blitWord s) ((blitWord_inside hinside).1.trans hp) (by omega) (blitWord_wf hwf)
      (hcursor ▸ hs.blitWord hwf (by omega))
    exact ⟨t, (agentRun_P_succ _ (commandStep_of_blit hp)).trans hrun, hdone.of_blitWord hwf hinside⟩

/-- A pass from cursor 0 does the same from before its start. -/
theorem PassDone.of_passStart (h : PassDone (passStart s) t) : PassDone s t :=
  { h with
    frame := calc
      passPutBack s t = passPutBack s (passPutBack (passStart s) t) := rfl
      _ = passPutBack s (passStart s) := by rw [h.frame]
      _ = s := rfl }

/-- A BLIT command run by agent P alone is a pass from cursor 0 in 192 steps: its decode step is the first (R147). -/
theorem agentRun_blit {w : Word} (hp : s.pstate = .idle) (hc : commandAt s s.cp = some w) (hd : decode w = .ok .blit)
    (hwf : Memory.wf s.st) : ∃ t, agentRun .P 192 s = .next t ∧ PassDone s t := by
  have hfirst : commandStep s = .next (blitWord (passStart s)) :=
    (commandStep_of_fetch hp hc).trans (runWord_ok hd s)
  obtain ⟨t, hrun, hdone⟩ := agentRun_pass 191 (passStart s) rfl rfl hwf nofun
  refine ⟨t, ?_, hdone.of_passStart⟩
  calc agentRun .P 192 s = agentRun .P 191 (blitWord (passStart s)) := agentRun_P_succ 191 hfirst
    _ = agentRun .P 192 (passStart s) := (agentRun_P_succ 191 (commandStep_of_blit rfl)).symm
    _ = .next t := hrun

/-- Settles O27: the pass from cursor 0, and agent P is between commands before it as after it. -/
theorem blitRunEncodesWholeTable : Obligations.BlitRunEncodesWholeTable := by
  intro s w hp hc hd hwf
  obtain ⟨t, hrun, h⟩ := agentRun_blit hp hc hd hwf
  have hframe : { t with st := s.st, ecur := s.ecur, eacc := s.eacc, cp := s.cp } = passPutBack s t := by
    rw [passPutBack, hp, ← h.idle]
  exact ⟨t, hrun, h.encoded.table, h.idle, h.cp, hframe.trans h.frame, h.outside⟩

/-! ### A second pass -/

/-- A pass reads the command list nowhere and keeps it. -/
theorem PassDone.commandAt (h : PassDone s t) (n : Nat) : commandAt t n = commandAt s n :=
  (congrArg (Machine.commandAt · n) h.frame :)

theorem PassDone.pb (h : PassDone s t) : t.pb = s.pb := (congrArg State.pb h.frame :)

theorem PassDone.cfg (h : PassDone s t) : t.cfg = s.cfg := (congrArg State.cfg h.frame :)

/-- Two passes over the same PB leave the same table, since a table in canonical form is what it reads as (R151). -/
theorem PassDone.st_eq (ht : PassDone s t) (hu : PassDone t u) : u.st = t.st :=
  Memory.ext_read hu.wf ht.wf fun k => by
    rcases Nat.lt_or_ge k 192 with hk | hk
    · rw [hu.encoded k hk, ht.encoded k hk, hu.cfg, hu.pb]
    · exact hu.outside k hk

/-- Settles O28: the first pass leaves the second BLIT at CP, and the second pass writes what is there. -/
theorem secondBlitChangesNothing : Obligations.SecondBlitChangesNothing := by
  intro s t u w w' hp hwf hc hd hc' hd' hst htu
  obtain ⟨_, hrun, ht⟩ := agentRun_blit hp hc hd hwf
  cases hst.symm.trans hrun
  have hnext : commandAt t t.cp = some w' := by rw [ht.commandAt, ht.cp, hc']
  obtain ⟨_, hrun', hu⟩ := agentRun_blit ht.idle hnext hd' ht.wf
  cases htu.symm.trans hrun'
  have heq : u.st = t.st := ht.st_eq hu
  exact ⟨hu.pb.trans ht.pb, heq, congrArg stByteImage heq⟩

end Sys2Proof.Machine

/-! PROOFS. Agent R by RSTATE (O42, O34), and one whole iteration of it alone (O43): the advance, 48 times a fetch and a
push, the latcher's five steps. -/

namespace Sys2Proof.Machine

variable {s t u : State}

/-! ### The step of each RSTATE (R172) -/

theorem refreshStep_adv (h : s.rstate = .adv) : refreshStep s = .next (advStep s) := by simp [refreshStep, h]

/-- The fetch reads the word at WIDX of row-group ADDR (R191). -/
theorem refreshStep_fetch (h : s.rstate = .fetch) (hw : s.widx.toNat < 48) :
    refreshStep s = .next { s with
      muxhold := Memory.read s.st (s.addr.toNat * 48 + s.widx.toNat), rstate := .push } := by
  simp [refreshStep, h, fetchStep_eq hw]

theorem refreshStep_push (h : s.rstate = .push) : refreshStep s = .next (pushStep s) := by simp [refreshStep, h]

theorem refreshStep_blank (h : s.rstate = .blank) : refreshStep s = .next (blankStep s) := by simp [refreshStep, h]

theorem refreshStep_setaddr (h : s.rstate = .setaddr) : refreshStep s = .next (setaddrStep s) := by
  simp [refreshStep, h]

theorem refreshStep_lathi (h : s.rstate = .lathi) : refreshStep s = .next (lathiStep s) := by simp [refreshStep, h]

theorem refreshStep_latlo (h : s.rstate = .latlo) : refreshStep s = .next (latloStep s) := by simp [refreshStep, h]

theorem refreshStep_unblank (h : s.rstate = .unblank) : refreshStep s = .next (unblankStep s) := by
  simp [refreshStep, h]

/-! ### The guard of each RSTATE (R172) -/

theorem rEnabled_idle (h : s.rstate = .idle) : rEnabled s = false := by simp [rEnabled, h]

/-- The push waits for room (R192). -/
theorem rEnabled_push (h : s.rstate = .push) : rEnabled s = true ↔ s.fifo.length < s.cfg.fifoDepth := by
  simp [rEnabled, h]

/-- The blank step waits only with DRAIN_WAIT, and then for the queue and agent S (R201). -/
theorem rEnabled_blank (h : s.rstate = .blank) :
    rEnabled s = true ↔ (s.cfg.drainWait = true → s.fifo = [] ∧ s.sstate = .idle) := by
  cases hd : s.cfg.drainWait <;> simp [rEnabled, drained, h, hd]

/-- The other steps of the loop have no guard. -/
theorem rEnabled_unguarded {r : RState} (h : s.rstate = r) (hr : r ≠ .idle ∧ r ≠ .push ∧ r ≠ .blank) :
    rEnabled s = true := by
  cases r <;> simp_all [rEnabled]

/-- The 2-bit increment is the one modulo 4 (R173). -/
theorem addr_add_one (a : BitVec 2) : a + 1#2 = BitVec.ofNat 2 ((a.toNat + 1) % 4) :=
  BitVec.eq_of_toNat_eq (by simp)

/-- Settles O42: the guard and the step of each RSTATE, side by side. -/
theorem refreshStateTable : Obligations.RefreshStateTable := by
  intro s
  refine ⟨rEnabled_idle, fun h => ?adv, fun h hw => ?fetch, fun h => ?push, fun h => ?blank, fun h => ?setaddr,
    fun h => ?lathi, fun h => ?latlo, fun h => ?unblank⟩
  case adv =>
    rw [← addr_add_one]
    exact ⟨rEnabled_unguarded h (by decide), refreshStep_adv h⟩
  case fetch => exact ⟨rEnabled_unguarded h (by decide), refreshStep_fetch h hw⟩
  case push => exact ⟨rEnabled_push h, refreshStep_push h⟩
  case blank => exact ⟨rEnabled_blank h, refreshStep_blank h⟩
  case setaddr => exact ⟨rEnabled_unguarded h (by decide), refreshStep_setaddr h⟩
  case lathi => exact ⟨rEnabled_unguarded h (by decide), refreshStep_lathi h⟩
  case latlo => exact ⟨rEnabled_unguarded h (by decide), refreshStep_latlo h⟩
  case unblank => exact ⟨rEnabled_unguarded h (by decide), refreshStep_unblank h⟩

/-! ### START -/

/-- Settles O34: PHASE decides which of START's two outcomes it is. -/
theorem startEntersActive : Obligations.StartEntersActive := by
  refine fun s => ⟨fun hc => ?_, fun ha => if_pos ha⟩
  have hna : s.phase ≠ .active := by simp [hc]
  exact if_neg hna

/-! ### One iteration of agent R alone -/

theorem agentRun_R_succ (n : Nat) (h : refreshStep s = .next t) : agentRun .R (n + 1) s = agentRun .R n t := by
  simp [agentRun, agentStep, h]

/-- Two runs of an agent, one after the other. -/
theorem agentRun_add {a : Agent} {m n : Nat} (h : agentRun a m s = .next t) (h' : agentRun a n t = .next u) :
    agentRun a (m + n) s = .next u := by
  induction m generalizing s with
  | zero =>
    cases h
    rwa [Nat.zero_add]
  | succ m ih =>
    rw [Nat.succ_add]
    unfold agentRun at h ⊢
    split at h
    · exact ih h
    · cases h
    · cases h

/-- Word `i` of the row-group at ADDR. -/
def groupWord (s : State) (i : Nat) : ScanWord := Memory.read s.st (s.addr.toNat * 48 + i)

/-- State `s` with the first `k` words of its row-group pushed, and `v` left in MUXHOLD. -/
def wordsPushed (s : State) (k : Nat) (v : ScanWord) : State :=
  { s with
    fifo := s.fifo ++ (List.range k).map fun i => zext32 (groupWord s i)
    widx := BitVec.ofNat 6 k
    muxhold := v
    rstate := if k < 48 then .fetch else .blank }

theorem toNat_ofNat_widx {k : Nat} (hk : k ≤ 48) : (BitVec.ofNat 6 k).toNat = k := Nat.mod_eq_of_lt (by omega)

/-- With `k` words pushed, word `k` is the next one fetched (R191). -/
theorem refreshStep_wordsPushed {k : Nat} (hk : k < 48) (v : ScanWord) :
    refreshStep (wordsPushed s k v) = .next { wordsPushed s k (groupWord s k) with rstate := .push } := by
  have hwidx : (wordsPushed s k v).widx.toNat = k := toNat_ofNat_widx hk.le
  rw [refreshStep_fetch (if_pos hk) (by omega), hwidx]
  rfl

/-- The push of the word just fetched (R192). -/
theorem pushStep_wordsPushed {k : Nat} (hk : k < 48) :
    pushStep { wordsPushed s k (groupWord s k) with rstate := .push } = wordsPushed s (k + 1) (groupWord s k) := by
  have hwidx : BitVec.ofNat 6 k + 1#6 = BitVec.ofNat 6 (k + 1) := (BitVec.ofNat_add k 1).symm
  simp [pushStep, fifoPush, wordsPushed, hwidx, toNat_ofNat_widx hk, List.range_succ]

/-- From R_FETCH with WIDX 0, agent R pushes `k` words of the row-group in two steps each (R190, R194). -/
theorem agentRun_words (hr : s.rstate = .fetch) (hw : s.widx = 0#6) {k : Nat} (hk : k ≤ 48) :
    ∃ v, agentRun .R (2 * k) s = .next (wordsPushed s k v) := by
  induction k with
  | zero =>
    have hs : wordsPushed s 0 s.muxhold = s := by simp [wordsPushed, ← hr, ← hw]
    exact ⟨s.muxhold, by rw [hs]; rfl⟩
  | succ k ih =>
    obtain ⟨v, hrun⟩ := ih (by omega)
    refine ⟨groupWord s k, agentRun_add hrun ?_⟩
    rw [agentRun_R_succ 1 (refreshStep_wordsPushed hk v), agentRun_R_succ 0 (refreshStep_push rfl),
      pushStep_wordsPushed hk]
    rfl

/-- State `s` after the latcher's five steps (R201 to R205). -/
def groupLatched (s : State) : State :=
  { s with
    pins := { s.pins with a := s.addr, lat := 0#1, oe := 0#1 }
    trace := s.trace ++ latchEvents s.addr
    rstate := .adv }

theorem agentRun_latcher (hr : s.rstate = .blank) : agentRun .R 5 s = .next (groupLatched s) := by
  rw [agentRun_R_succ 4 (refreshStep_blank hr), agentRun_R_succ 3 (refreshStep_setaddr rfl),
    agentRun_R_succ 2 (refreshStep_lathi rfl), agentRun_R_succ 1 (refreshStep_latlo rfl),
    agentRun_R_succ 0 (refreshStep_unblank rfl)]
  simp [agentRun, groupLatched, latchEvents, unblankStep, latloStep, lathiStep, setaddrStep, blankStep, drive, Pins.after]

/-- Settles O43: the advance, 48 words, the latcher. `agentRun` asks for no guard, so the room for the row-group is not
used. -/
theorem iterationStreamsOneRowGroup : Obligations.IterationStreamsOneRowGroup := by
  intro s hr _ _
  obtain ⟨v, hwords⟩ := agentRun_words (s := advStep s) rfl rfl (Nat.le_refl 48)
  refine ⟨groupLatched (wordsPushed (advStep s) 48 v), ?_, rfl, rfl, rfl, rfl, rfl, ?_⟩
  · exact (agentRun_R_succ 101 (refreshStep_adv hr)).trans (agentRun_add hwords (agentRun_latcher rfl))
  · have hframe : { s with rstate := .adv } = s := by rw [← hr]
    exact hframe

end Sys2Proof.Machine

/-! PROOFS. What agents P and S leave of the others' registers, and the sequence of addresses on the A pins (O44): of all
steps only agent R's address step makes an A event, and it moves the shown address on by one. -/

namespace Sys2Proof.Machine

variable {s t : State}

/-! ### What agents P and S leave -/

/-- From `s` to `t` the registers of agents R and S and the queue stayed, but that START may have begun the loop (R285). -/
structure LeavesLoops (s t : State) : Prop where
  rstate : t.rstate = s.rstate ∨ s.phase = .config ∧ t.rstate = .adv
  addr : t.addr = s.addr
  widx : t.widx = s.widx
  muxhold : t.muxhold = s.muxhold
  sstate : t.sstate = s.sstate
  osr : t.osr = s.osr
  scnt : t.scnt = s.scnt
  fifo : t.fifo = s.fifo

theorem LeavesLoops.refl (s : State) : LeavesLoops s s := ⟨.inl rfl, rfl, rfl, rfl, rfl, rfl, rfl, rfl⟩

theorem LeavesLoops.blitWord (s : State) : LeavesLoops s (blitWord s) := by
  rw [blitWord_eq]
  exact { LeavesLoops.refl s with }

theorem LeavesLoops.dimStep (s : State) : LeavesLoops s (dimStep s) := by
  cases hd : s.dsub with
  | lat => rw [dimStep_lat s hd]; split <;> exact { LeavesLoops.refl s with }
  | data => rw [dimStep_data s hd]; exact { LeavesLoops.refl s with }
  | clkhi => rw [dimStep_clkhi s hd]; exact { LeavesLoops.refl s with }
  | clklo => rw [dimStep_clklo s hd]; exact { LeavesLoops.refl s with }
  | latclr => rw [dimStep_latclr s hd]; exact { LeavesLoops.refl s with }

theorem LeavesLoops.exec {i : Instr} (h : exec i s = .next t) : LeavesLoops s t := by
  rcases exec_cases h with ⟨ch, x, y, b, -, rfl⟩ | ⟨ch, x, y, -, v, rfl⟩ | ⟨ch, -, rfl⟩ | ⟨-, rfl⟩ | hstrd | hdim | hstart |
    ⟨-, rfl⟩
  · split <;> exact { LeavesLoops.refl s with }
  · exact { LeavesLoops.refl s with }
  · exact { LeavesLoops.refl s with }
  · exact { LeavesLoops.blitWord (passStart s) with }
  · obtain ⟨g, n, -, ⟨v, rfl⟩ | rfl⟩ := hstrd <;> exact { LeavesLoops.refl s with }
  · obtain ⟨l, -, ⟨-, rfl⟩ | ⟨-, -, rfl⟩ | ⟨-, -, rfl⟩⟩ := hdim <;> exact { LeavesLoops.refl s with }
  · obtain ⟨-, ⟨-, rfl⟩ | ⟨hc, rfl⟩⟩ := hstart
    · exact { LeavesLoops.refl s with }
    · exact { LeavesLoops.refl s with rstate := .inr ⟨hc, rfl⟩ }
  · exact { LeavesLoops.refl s with }

theorem LeavesLoops.command (h : commandStep s = .next t) : LeavesLoops s t := by
  rcases commandStep_cases h with ⟨-, -, rfl⟩ | ⟨-, w, -, ⟨i, -, hi⟩ | ⟨e, -, rfl⟩⟩ | ⟨-, rfl⟩ | ⟨-, rfl⟩
  · exact .refl _
  · exact .exec hi
  · exact { LeavesLoops.refl s with }
  · exact .blitWord s
  · exact .dimStep s

/-- Agent S leaves agent R's position and address (R285). -/
theorem serializerStep_loop (s : State) : (serializerStep s).rstate = s.rstate ∧ (serializerStep s).addr = s.addr := by
  rcases serializerStep_cases s with ⟨-, h⟩ | ⟨-, h⟩ | ⟨-, h⟩ | ⟨-, h⟩ <;> rw [h]
  case inl =>
    cases hf : s.fifo with
    | nil => simp [popStep, hf]
    | cons item rest => rw [popStep_cons s hf]; exact ⟨rfl, rfl⟩
  all_goals exact ⟨rfl, rfl⟩

/-! ### The shown address -/

/-- How far ADDR is ahead of the A pins: by one from the advance step to the address step (R173, R202). -/
def addrLead (r : RState) : BitVec 2 :=
  if r = .fetch ∨ r = .push ∨ r = .blank ∨ r = .setaddr then 1#2 else 0#2

/-- The address of the last A event, and before the first one ADDR_RESET. -/
def shownAddr (s : State) : BitVec 2 := s.addr - addrLead s.rstate

/-- The sequence holds where the shown address is the `n`-th after ADDR_RESET after `n` A events. -/
theorem addrSequence_iff : AddrSequence s ↔
    ∃ n, addrEvents s.trace = addrCycle (s.cfg.addrReset + 1#2) n ∧
      shownAddr s = s.cfg.addrReset + BitVec.ofNat 2 n := by
  simp only [shownAddr, sub_eq_iff_eq_add]
  rfl

theorem addrCycle_succ (a : BitVec 2) (n : Nat) : addrCycle a (n + 1) = addrCycle a n ++ [a + BitVec.ofNat 2 n] := by
  simp [addrCycle, List.range_succ]

/-- From `s` to `t` no A event was made and the shown address stayed, or it moved on by one and is the new A event. -/
structure ShowsAddr (s t : State) : Prop where
  cfg : t.cfg = s.cfg
  shown : (addrEvents t.trace = addrEvents s.trace ∧ shownAddr t = shownAddr s) ∨
    (addrEvents t.trace = addrEvents s.trace ++ [shownAddr t] ∧ shownAddr t = shownAddr s + 1#2)

theorem AddrSequence.shows (h : AddrSequence s) (hst : ShowsAddr s t) : AddrSequence t := by
  obtain ⟨n, hev, hsh⟩ := addrSequence_iff.1 h
  rw [addrSequence_iff, hst.cfg]
  rcases hst.shown with ⟨hev', hsh'⟩ | ⟨hev', hsh'⟩
  · exact ⟨n, hev'.trans hev, hsh'.trans hsh⟩
  · have hnext : shownAddr t = s.cfg.addrReset + BitVec.ofNat 2 (n + 1) := by
      rw [hsh', hsh, add_assoc, BitVec.ofNat_add]
    refine ⟨n + 1, ?_, hnext⟩
    rw [hev', hev, addrCycle_succ, hnext, Nat.add_comm n 1, BitVec.ofNat_add, add_assoc]

/-! ### The steps of the agents -/

/-- Only an event on A enters the sequence. -/
theorem Drove.addrEvents {p : Option PinName} (h : Drove p s t) (hp : p ≠ some .a) :
    addrEvents t.trace = addrEvents s.trace := by
  cases p with
  | none => rw [h.2]
  | some n =>
    obtain ⟨e, rfl, htrace, -⟩ := h
    cases e with
    | a v => exact absurd rfl hp
    | data v | clk v | lat v | oe v => simp [htrace, Machine.addrEvents]

/-- START begins the loop where agent R was idle, and in both states nothing is ahead of the pins (R171). -/
theorem ShowsAddr.command (hI : Inv s) (h : commandStep s = .next t) : ShowsAddr s t := by
  have hleaves := LeavesLoops.command h
  have hlead : addrLead t.rstate = addrLead s.rstate := by
    rcases hleaves.rstate with hr | ⟨hc, hr⟩
    · rw [hr]
    · rw [hr, hI.phaseIdle.1 hc]
      rfl
  refine ⟨(StepKeeps.command h).cfg, .inl ⟨(commandStep_drove h).addrEvents fun hp => ?_, ?_⟩⟩
  · have hdim := pstate_of_nextPin hp
    simp only [nextPin, hdim] at hp
    cases hd : s.dsub <;> simp [hd] at hp
  · rw [shownAddr, hleaves.addr, hlead]
    rfl

theorem ShowsAddr.serializer (s : State) : ShowsAddr s (serializerStep s) := by
  obtain ⟨hr, ha⟩ := serializerStep_loop s
  refine ⟨(StepKeeps.serializer s).cfg, .inl ⟨(serializerStep_drove s).addrEvents fun hp => ?_, ?_⟩⟩
  · rcases nextPin_S hp with hn | hn <;> cases hn
  · rw [shownAddr, hr, ha]
    rfl

/-- After the push the words of the row-group still stream, or the blank step follows: ADDR stays ahead (R192). -/
theorem addrLead_pushStep (s : State) : addrLead (pushStep s).rstate = 1#2 := by
  unfold pushStep
  split <;> rfl

/-- The address step shows ADDR; every other step moves ADDR and its lead over the pins together. -/
theorem ShowsAddr.refresh (h : refreshStep s = .next t) : ShowsAddr s t := by
  refine ⟨(StepKeeps.refresh h).cfg, ?_⟩
  by_cases hset : s.rstate = .setaddr
  · obtain rfl : setaddrStep s = t := by simpa [refreshStep_setaddr hset] using h
    right
    simp [setaddrStep, addrEvents, shownAddr, addrLead, hset]
  · have hpin : nextPin s .R ≠ some .a := by
      cases hr : s.rstate <;> simp [nextPin, hr] at hset ⊢
    refine .inl ⟨(refreshStep_drove h).addrEvents hpin, ?_⟩
    rcases refreshStep_cases h with ⟨hr, rfl⟩ | ⟨hr, rfl⟩ | ⟨hr, v, -, rfl⟩ | ⟨hr, rfl⟩ | ⟨hr, rfl⟩ | ⟨hr, rfl⟩ |
      ⟨hr, rfl⟩ | ⟨hr, rfl⟩ | ⟨hr, rfl⟩
    · rfl
    · simp [shownAddr, advStep, addrLead, hr]
    · simp [shownAddr, addrLead, hr]
    · rw [shownAddr, addrLead_pushStep, shownAddr, hr]
      rfl
    · simp [shownAddr, blankStep, addrLead, hr]
    · exact absurd hr hset
    · simp [shownAddr, lathiStep, addrLead, hr]
    · simp [shownAddr, latloStep, addrLead, hr]
    · simp [shownAddr, unblankStep, addrLead, hr]

theorem ShowsAddr.agent {a : Agent} (hI : Inv s) (h : agentStep a s = .next t) : ShowsAddr s t := by
  cases a with
  | P => exact .command hI h
  | R => exact .refresh h
  | S => cases h; exact .serializer s

/-- Settles O44: no A event after reset, and each agent's step leaves the shown address or moves it on by one. -/
theorem addressSequenceKept : Obligations.AddressSequenceKept := by
  refine ⟨⟨0, rfl, ?_⟩, fun _ _ hs hI h => ?_⟩
  · simp [State.reset, State.resetFor]
  · exact step_rel (Rel := fun s t => Inv s → AddrSequence s → AddrSequence t) (fun _ _ hs => hs)
      (fun _ _ _ _ ha hI hs => hs.shows (.agent hI ha)) (fun _ _ hc hI hs => hc hI.choiceMade hs) h hI hs

end Sys2Proof.Machine

/-! PROOFS. Waiting: the quiet block, where no agent has a step (O57), and a push that waits for room, which agent S makes
in the end (O49). -/

namespace Sys2Proof.Machine

variable {s t : State}

/-! ### The quiet block (R178) -/

/-- In CONFIG the refresh loop has not begun (R171). -/
theorem Inv.rEnabled_config (h : Inv s) (hc : s.phase = .config) : rEnabled s = false :=
  rEnabled_idle (h.phaseIdle.1 hc)

/-- In CONFIG agent S has no step (R220). -/
theorem Inv.sEnabled_config (h : Inv s) (hc : s.phase = .config) : sEnabled s = false := by
  simp [sEnabled, h.configQuiet hc, hc]

/-- At the end of the command list agent P waits (R24). -/
theorem PrimaryDone.pEnabled (h : PrimaryDone s) : pEnabled s = false := by
  obtain ⟨hrest, hcp, hp⟩ := h
  rw [Bool.eq_false_iff]
  intro he
  rcases (pEnabled_iff_of_idle hp).1 he with hlt | hne
  · exact absurd hcp hlt.ne
  · exact hne hrest

theorem step_of_none (hp : paramsOk s.cfg = true) (h : ∀ a, enabled s a = false) : step s = .next s := by
  simp [step, hp, selectAgent_none.2 h]

/-- Settles O57: each agent waits for its own reason. -/
theorem quietBlockStays : Obligations.QuietBlockStays := by
  intro s hI ⟨hdone, hc⟩
  have hnone : ∀ a, enabled s a = false := fun a => by
    cases a with
    | P => exact hdone.pEnabled
    | R => exact hI.rEnabled_config hc
    | S => exact hI.sEnabled_config hc
  exact ⟨hnone, step_of_none hI.params hnone⟩

/-! ### What a step does while a push waits -/

/-- A push that finds no room leaves agent S the queue's items to take (R192, R278). -/
theorem Inv.sEnabled_of_full (h : Inv s) (hr : s.rstate = .push) (hfull : rEnabled s = false) : sEnabled s = true := by
  have ha : s.phase = .active := h.active_of_loop (by simp [hr])
  have hdepth : 1 ≤ s.cfg.fifoDepth := ((paramsOk_iff _).1 h.params).1
  have hlen : ¬ s.fifo.length < s.cfg.fifoDepth := fun hlt => by
    rw [(rEnabled_push hr).2 hlt] at hfull
    cases hfull
  have hne : s.fifo ≠ [] := fun hnil => by
    rw [hnil, List.length_nil] at hlen
    omega
  cases hs : s.sstate <;> simp [sEnabled, hs, ha, hne]

/-- Each step of agent S takes one off the steps it has left with the items there are (R212, R217). -/
theorem serialLeft_serializerStep (h : Inv s) (he : sEnabled s = true) :
    serialLeft (serializerStep s) + 1 = serialLeft s := by
  rcases serializerStep_cases s with ⟨hs, hst⟩ | ⟨hs, hst⟩ | ⟨hs, hst⟩ | ⟨hs, hst⟩ <;> rw [hst]
  · obtain ⟨item, rest, hf⟩ : ∃ item rest, s.fifo = item :: rest :=
      List.exists_cons_of_ne_nil (by simpa [sEnabled, hs, h.active_of_sEnabled he] using he)
    simp only [popStep_cons s hf, serialLeft, hf, hs, List.length_cons, BitVec.toNat_ofNat]
    omega
  all_goals have hpos := h.scnt_pos (by simp [hs])
  · simp only [driveStep, serialLeft, hs, drive_fifo, drive_scnt]
    omega
  · simp only [clkhiStep, serialLeft, hs, drive_fifo, drive_scnt]
    omega
  · have hsub : (s.scnt - 1#4).toNat = s.scnt.toNat - 1 := BitVec.toNat_sub_of_le hpos
    by_cases hend : s.scnt - 1#4 = 0#4
    · have hlast : s.scnt.toNat - 1 = 0 := by rw [← hsub, hend]; rfl
      simp only [clkloStep, serialLeft, hs, hend, if_true, drive_fifo]
      omega
    · simp only [clkloStep, serialLeft, hs, hend, if_false, hsub, drive_fifo]
      omega

/-- The steps agent S has left depend on the queue and its own registers only. -/
theorem LeavesLoops.serialLeft (h : LeavesLoops s t) : serialLeft t = serialLeft s := by
  unfold Machine.serialLeft
  rw [h.fifo, h.sstate, h.scnt]

/-- Agent S never adds to the queue (R211). -/
theorem serializerStep_fifo_le (s : State) : (serializerStep s).fifo.length ≤ s.fifo.length := by
  rcases serializerStep_cases s with ⟨-, h⟩ | ⟨-, h⟩ | ⟨-, h⟩ | ⟨-, h⟩ <;> rw [h]
  case inl =>
    cases hf : s.fifo with
    | nil => simp [popStep, hf]
    | cons item rest => simp [popStep_cons s hf]
  all_goals exact Nat.le_refl _

/-- By a step of agent `a` from `s` to `t` the push still waits: room stays room, and agent S's steps left fall by its own
steps only. -/
structure PushWaits (a : Agent) (s t : State) : Prop where
  push : t.rstate = .push
  fifo : t.fifo.length ≤ s.fifo.length
  cfg : t.cfg = s.cfg
  left : serialLeft t + (if a = .S then 1 else 0) = serialLeft s

/-- Room once there stays until agent R takes it (R192). -/
theorem PushWaits.room {a : Agent} (h : PushWaits a s t) (hr : s.rstate = .push) (he : rEnabled s = true) :
    rEnabled t = true := by
  rw [rEnabled_push h.push, h.cfg]
  exact Nat.lt_of_le_of_lt h.fifo ((rEnabled_push hr).1 he)

/-- The agents other than R leave a waiting push waiting. -/
theorem Inv.pushWaits (h : Inv s) (hr : s.rstate = .push) {a : Agent} (ha : a ≠ .R) (he : enabled s a = true)
    (hst : agentStep a s = .next t) : PushWaits a s t := by
  cases a with
  | R => exact absurd rfl ha
  | P =>
    have hleaves : LeavesLoops s t := .command hst
    have hconf : s.phase ≠ .config := phase_active_iff.1 (h.active_of_loop (by simp [hr]))
    have hstays : t.rstate = s.rstate := hleaves.rstate.resolve_right fun hc => hconf hc.1
    exact ⟨hstays.trans hr, hleaves.fifo ▸ Nat.le_refl _, (StepKeeps.agent hst).cfg, hleaves.serialLeft⟩
  | S =>
    have hcfg := (StepKeeps.agent hst).cfg
    cases hst
    exact ⟨(serializerStep_loop s).1.trans hr, serializerStep_fifo_le s, hcfg, serialLeft_serializerStep h he⟩

/-- The push ends R_PUSH (R192). -/
theorem pushStep_leaves (s : State) : (pushStep s).rstate ≠ .push := by
  unfold pushStep
  split <;> simp

theorem Steps.unique {a b : Agent} (ha : Steps a s) (hb : Steps b s) : a = b := by
  obtain ⟨t, ht⟩ := ha
  obtain ⟨u, hu⟩ := hb
  rw [ht] at hu
  cases hu
  rfl

/-- A step from R_PUSH is agent R's push, or another agent's, after which the push still waits. -/
theorem Inv.step_push (h : Inv s) (hr : s.rstate = .push) (hst : step s = .next t) :
    (Steps .R s ∧ t.rstate ≠ .push) ∨ ∃ a, a ≠ .R ∧ Steps a s ∧ PushWaits a s t := by
  obtain ⟨-, ⟨hnone, -⟩ | ⟨a, u, hsel, he, hu, ha⟩⟩ := step_cases hst
  · have hidle := selectAgent_none.1 hnone
    have hS : sEnabled s = false := hidle .S
    rw [h.sEnabled_of_full hr (hidle .R)] at hS
    cases hS
  · by_cases haR : a = .R
    · subst haR
      have hru : u.rstate = .push := by rcases hu with rfl | rfl <;> exact hr
      have hpush : refreshStep u = .next t := ha
      rw [refreshStep_push hru] at hpush
      cases hpush
      exact .inl ⟨⟨u, hsel⟩, pushStep_leaves u⟩
    · refine .inr ⟨a, haR, ⟨u, hsel⟩, ?_⟩
      rcases hu with rfl | rfl
      · exact h.pushWaits hr haR he ha
      · exact { h.choiceMade.pushWaits hr haR (by simpa using he) ha with }

/-! ### A run in which the push waits for ever -/

variable {r : Nat → State} {n : Nat}

theorem IsRun.inv (hrun : IsRun r) (h0 : Inv (r 0)) (m : Nat) : Inv (r m) := by
  induction m with
  | zero => exact h0
  | succ m ih => exact invariantKept _ _ ih (hrun m)

/-- From index `n` on the push waits, by the steps of other agents. -/
def WaitsFrom (r : Nat → State) (n : Nat) : Prop :=
  ∀ m, n ≤ m → (r m).rstate = .push ∧ ∃ a, a ≠ .R ∧ Steps a (r m) ∧ PushWaits a (r m) (r (m + 1))

/-- A push that agent R never takes waits for ever. -/
theorem IsRun.waitsFrom (hrun : IsRun r) (h0 : Inv (r 0)) (hpush : (r n).rstate = .push)
    (hno : ∀ m, n ≤ m → (r m).rstate = .push → Steps .R (r m) → (r (m + 1)).rstate = .push) : WaitsFrom r n := by
  have waits : ∀ m, n ≤ m → (r m).rstate = .push → ∃ a, a ≠ .R ∧ Steps a (r m) ∧ PushWaits a (r m) (r (m + 1)) :=
    fun m hm hr => ((hrun.inv h0 m).step_push hr (hrun m)).resolve_left fun ⟨hR, hne⟩ => hne (hno m hm hr hR)
  have stays : ∀ m, n ≤ m → (r m).rstate = .push := fun m hm => by
    induction m, hm using Nat.le_induction with
    | base => exact hpush
    | succ m hm ih =>
      obtain ⟨a, -, -, hw⟩ := waits m hm ih
      exact hw.push
  exact fun m hm => ⟨stays m hm, waits m hm (stays m hm)⟩

/-- Room would let agent R push, by its fairness; so there is none (R179). -/
theorem WaitsFrom.noRoom (h : WaitsFrom r n) (hR : WeaklyFair .R r) {m : Nat} (hm : n ≤ m) : rEnabled (r m) = false := by
  rw [Bool.eq_false_iff]
  intro hroom
  have stays : ∀ k, m ≤ k → rEnabled (r k) = true := fun k hk => by
    induction k, hk using Nat.le_induction with
    | base => exact hroom
    | succ k hk ih =>
      obtain ⟨hr, a, -, -, hw⟩ := h k (hm.trans hk)
      exact hw.room hr ih
  obtain ⟨k, hk, hstep⟩ := hR m stays
  obtain ⟨-, a, ha, hsteps, -⟩ := h k (hm.trans hk)
  exact ha (hsteps.unique hstep)

/-- No quantity that never grows falls again and again. -/
theorem not_falls_again_and_again (f : Nat → Nat) (hle : ∀ m, n ≤ m → f (m + 1) ≤ f m) :
    ¬ ∀ k, n ≤ k → ∃ m, k ≤ m ∧ f (m + 1) < f m := by
  intro hlt
  have falls : ∀ k m, n ≤ k → k ≤ m → f m ≤ f k := fun k m hk hm => by
    induction m, hm using Nat.le_induction with
    | base => exact Nat.le_refl _
    | succ m hm ih => exact (hle m (hk.trans hm)).trans ih
  have above : ∀ v k, n ≤ k → v ≤ f k := fun v => by
    induction v with
    | zero => exact fun _ _ => Nat.zero_le _
    | succ v ih =>
      intro k hk
      obtain ⟨m, hm, hfall⟩ := hlt k hk
      have hv : v ≤ f (m + 1) := ih (m + 1) (by omega)
      have hk' : f m ≤ f k := falls k m hk hm
      omega
  exact absurd (above (f n + 1) n (Nat.le_refl n)) (Nat.not_succ_le_self _)

/-- Settles O49: a push that waited for ever would find no room, so by its fairness agent S would step again and again, and
each of its steps takes one off the steps it has left. -/
theorem pushWaitEnds : Obligations.PushWaitEnds := by
  intro r hrun h0 hR hS n hpush
  by_contra hnever
  have hwaits : WaitsFrom r n := hrun.waitsFrom h0 hpush fun m hm hr hstep => by
    by_contra hleaves
    exact hnever ⟨m, hm, hr, hstep, hleaves⟩
  refine not_falls_again_and_again (n := n) (fun m => serialLeft (r m)) (fun m hm => ?_) fun k hk => ?_
  · obtain ⟨-, a, -, -, hw⟩ := hwaits m hm
    exact Nat.le.intro hw.left
  · obtain ⟨m, hm, hstep⟩ := hS k fun m hm =>
      (hrun.inv h0 m).sEnabled_of_full (hwaits m (hk.trans hm)).1 (hwaits.noRoom hR (hk.trans hm))
    obtain ⟨-, a, -, hsteps, hw⟩ := hwaits m (hk.trans hm)
    cases hsteps.unique hstep
    exact ⟨m, hm, Nat.lt_of_succ_le hw.left.le⟩

end Sys2Proof.Machine

/-! PROOFS. The row address latcher. A and LAT move only by an event on their own pin, and the invariant has the panel
blanked wherever such an event is the next of an agent (O45). With DRAIN_WAIT the guard of the blank step is TIMING_MARGIN
(O50). -/

namespace Sys2Proof.Machine

variable {s t : State}

/-! ### LAT and A while the panel is visible (R206) -/

/-- The panel is blanked in CONFIG, so also in the brightness sequence, and in R_LATLO: nowhere else is LAT up. -/
theorem Inv.lat_of_visible (h : Inv s) (hoe : s.pins.oe = 0#1) : s.pins.lat = 0#1 := by
  have hd : s.pstate ≠ .dim := fun hp => by
    have hblank := (h.configQuiet (h.dimPhase hp)).2.2
    simp [hoe] at hblank
  have hr : s.rstate ≠ .latlo := fun hr => by
    have hblank := h.oeBlank (.inr (.inr (.inl hr)))
    simp [hoe] at hblank
  rw [h.lat_of_not_dim hd, if_neg hr]

/-- An agent whose next event is on A or LAT finds the panel blanked: agent P in the brightness sequence, agent R between
the blank step and the unblank step. -/
theorem Inv.blanked_of_nextPin (h : Inv s) {a : Agent} {p : PinName} (hp : nextPin s a = some p)
    (hpin : p = .a ∨ p = .lat) : s.pins.oe = 1#1 := by
  cases a with
  | P => exact (h.configQuiet (h.dimPhase (pstate_of_nextPin hp))).2.2
  | R =>
    apply h.oeBlank
    cases hr : s.rstate with
    | setaddr | lathi | latlo | unblank => simp
    | idle | adv | fetch | push => simp [nextPin, hr] at hp
    | blank =>
      obtain rfl : .oe = p := by simpa [nextPin, hr] using hp
      simp at hpin
  | S => rcases hpin with rfl | rfl <;> simpa using nextPin_S hp

/-- A pin that is not driven keeps its level (R35). -/
theorem Drove.undriven {p : Option PinName} (h : Drove p s t) :
    (p ≠ some .oe → t.pins.oe = s.pins.oe) ∧ (p ≠ some .a → t.pins.a = s.pins.a) ∧
      (p ≠ some .lat → t.pins.lat = s.pins.lat) := by
  cases p with
  | none => simp [h.1]
  | some n =>
    obtain ⟨e, rfl, -, hpins⟩ := h
    cases e <;> simp [hpins, Pins.after, PinEvent.name]

/-- From `s` to `t` neither A nor LAT changed, or the panel was blanked before and after. -/
def LatchedBlanked (s t : State) : Prop :=
  t.pins.a ≠ s.pins.a ∨ t.pins.lat ≠ s.pins.lat → s.pins.oe = 1#1 ∧ t.pins.oe = 1#1

/-- The agent that changes A or LAT drives that pin, so it finds the panel blanked and leaves OE. -/
theorem LatchedBlanked.agent {a : Agent} (hI : Inv s) (h : agentStep a s = .next t) : LatchedBlanked s t := by
  intro hchange
  obtain ⟨hoe, ha, hlat⟩ := (agentStep_drove h).undriven
  obtain ⟨p, hp, hpin⟩ : ∃ p, nextPin s a = some p ∧ (p = .a ∨ p = .lat) := by
    rcases hchange with hne | hne
    · exact ⟨.a, not_not.1 (mt ha hne), .inl rfl⟩
    · exact ⟨.lat, not_not.1 (mt hlat hne), .inr rfl⟩
  have hblank := hI.blanked_of_nextPin hp hpin
  have hkeeps : t.pins.oe = s.pins.oe := hoe (by rcases hpin with rfl | rfl <;> simp [hp])
  exact ⟨hblank, hkeeps.trans hblank⟩

theorem LatchedBlanked.step (hI : Inv s) (h : step s = .next t) : LatchedBlanked s t :=
  step_rel (Rel := fun s t => Inv s → LatchedBlanked s t) (fun _ _ => by simp [LatchedBlanked])
    (fun _ _ _ _ ha hI => .agent hI ha) (fun _ _ hc hI => hc hI.choiceMade) h hI

/-- Settles O45: the invariant of the next state says where LAT is up, and each step that moves A or LAT is blanked. -/
theorem latchOnlyWhileBlanked : Obligations.LatchOnlyWhileBlanked := fun _ _ hI h =>
  have hstep := LatchedBlanked.step hI h
  ⟨(invariantKept _ _ hI h).lat_of_visible, fun ha => hstep (.inl ha), fun hlat => hstep (.inr hlat)⟩

/-! ### The blank step and the drained queue (R201, R310) -/

theorem drained_iff : drained s = true ↔ s.fifo = [] ∧ s.sstate = .idle := by simp [drained]

/-- Settles O50: agent R takes a step only with its guard, which in R_BLANK with DRAIN_WAIT is the drained queue. -/
theorem drainWaitEnforcesMargin : Obligations.DrainWaitEnforcesMargin := fun _ hwait hr ⟨_, hsel⟩ =>
  have hguard := (selectAgent_some hsel).1
  drained_iff.2 ((rEnabled_blank hr).1 hguard hwait)

end Sys2Proof.Machine

/-! PROOFS. Agent S by SSTATE (O51), the item it pops (O53), and one whole item (O52): the pop, then eight times a pair
on the wire in three steps. -/

namespace Sys2Proof.Machine

variable {s : State}

/-! ### The step and the guard of each SSTATE (R212, R213, R215, R216) -/

/-- The pop takes the low half of the head item (R212). -/
theorem serializerStep_pop {item : Word} {rest : List Word} (h : s.sstate = .idle) (hf : s.fifo = item :: rest) :
    serializerStep s = { s with
      fifo := rest, osr := item.extractLsb' 0 16, scnt := 8#4, sstate := .drive } := by
  simp [serializerStep, h, popStep_cons s hf]

theorem serializerStep_drive (h : s.sstate = .drive) : serializerStep s = driveStep s := by simp [serializerStep, h]

theorem serializerStep_clkhi (h : s.sstate = .clkhi) : serializerStep s = clkhiStep s := by simp [serializerStep, h]

theorem serializerStep_clklo (h : s.sstate = .clklo) : serializerStep s = clkloStep s := by simp [serializerStep, h]

/-- Between items agent S waits for phase ACTIVE and an item (R212, R220). -/
theorem sEnabled_idle (h : s.sstate = .idle) : sEnabled s = true ↔ s.phase = .active ∧ s.fifo ≠ [] := by
  simp [sEnabled, h]

/-- Inside an item agent S has no guard. -/
theorem sEnabled_busy (h : s.sstate ≠ .idle) : sEnabled s = true := by
  cases hs : s.sstate with
  | idle => exact absurd hs h
  | drive | clkhi | clklo => simp [sEnabled, hs]

/-- Settles O51: the guard and the step of each SSTATE, side by side; the drive step's shift of OSR loses the two top
bits and brings two zeros in at the bottom (R214). -/
theorem serializerStateTable : Obligations.SerializerStateTable := by
  intro s
  refine ⟨fun h => ⟨sEnabled_idle h, fun _ _ => serializerStep_pop h⟩,
    fun h => ⟨sEnabled_busy (by simp [h]), ?drive⟩,
    fun h => ⟨sEnabled_busy (by simp [h]), serializerStep_clkhi h⟩,
    fun h => ⟨sEnabled_busy (by simp [h]), serializerStep_clklo h⟩⟩
  case drive =>
    have hshift : s.osr <<< 2 = s.osr.extractLsb' 0 14 ++ 0#2 := BitVec.shiftLeft_eq_concat_of_lt (by decide)
    rw [serializerStep_drive h, driveStep, hshift]
    rfl

/-- Settles O53: the pop reads the item's low half only. -/
theorem upperHalfIgnored : Obligations.UpperHalfIgnored := by
  intro s v v' rest hlow hs
  rw [serializerStep_pop (s := { s with fifo := v :: rest }) hs rfl,
    serializerStep_pop (s := { s with fifo := v' :: rest }) hs rfl, hlow]

/-! ### The pairs of an item, one by one -/

theorem agentRun_S_succ (n : Nat) (s : State) : agentRun .S (n + 1) s = agentRun .S n (serializerStep s) := rfl

/-- The events of the first `k` pairs of `v`. -/
def pairEvents (v : BitVec 16) (k : Nat) : List PinEvent :=
  (List.range k).flatMap fun j => pulseEvents (pairOf v j)

theorem pairEvents_succ (v : BitVec 16) (k : Nat) :
    pairEvents v (k + 1) = pairEvents v k ++ pulseEvents (pairOf v k) := by
  simp [pairEvents, List.range_succ]

/-- State `s` with the first `k` of the eight pairs of `v` on the wire: the pins follow the events (R35, R43). -/
def pairsSent (s : State) (v : BitVec 16) (k : Nat) : State :=
  { s with
    pins := (pairEvents v k).foldl Pins.after s.pins
    trace := s.trace ++ pairEvents v k
    osr := v <<< (2 * k)
    scnt := BitVec.ofNat 4 (8 - k)
    sstate := if k < 8 then .drive else .idle }

/-- Pair `k` is the topmost one after `k` shifts (R213, R214). -/
theorem pairOf_shift (v : BitVec 16) {k : Nat} (hk : k < 8) : (v <<< (2 * k)).extractLsb' 14 2 = pairOf v k := by
  ext i hi
  have hin : 14 + i < 16 := by omega
  have hpast : ¬ 14 + i < 2 * k := by omega
  have hpos : 14 + i - 2 * k = 14 - 2 * k + i := by omega
  simp [pairOf, -BitVec.getLsbD_eq_getElem, hin, hpast, hpos]

/-- Of 8 - `k` pairs one is taken; none is left exactly after the eighth (R216). -/
theorem scnt_pred {k : Nat} (hk : k < 8) :
    BitVec.ofNat 4 (8 - k) - 1#4 = BitVec.ofNat 4 (8 - (k + 1)) ∧
      (BitVec.ofNat 4 (8 - (k + 1)) = 0#4 ↔ ¬ k + 1 < 8) := by
  interval_cases k <;> decide

/-- Drive, clock high, clock low: the next pair (R213, R215, R216). -/
theorem agentRun_pair (v : BitVec 16) {k : Nat} (hk : k < 8) :
    agentRun .S 3 (pairsSent s v k) = .next (pairsSent s v (k + 1)) := by
  have hs : (pairsSent s v k).sstate = .drive := if_pos hk
  obtain ⟨hcount, hend⟩ := scnt_pred hk
  rw [agentRun_S_succ, serializerStep_drive hs, agentRun_S_succ, serializerStep_clkhi rfl, agentRun_S_succ,
    serializerStep_clklo rfl]
  simp only [agentRun, clkloStep, clkhiStep, driveStep, drive, pairsSent, pairOf_shift v hk, hcount, hend, ite_not]
  simp [pairEvents_succ, pulseEvents, BitVec.shiftLeft_add, Nat.mul_succ]

theorem agentRun_pairs (s : State) (v : BitVec 16) {k : Nat} (hk : k ≤ 8) :
    agentRun .S (3 * k) (pairsSent s v 0) = .next (pairsSent s v k) := by
  induction k with
  | zero => rfl
  | succ k ih => exact agentRun_add (ih (by omega)) (agentRun_pair v hk)

/-! ### One whole item -/

/-- The pair sent last stays on DATA, CLK is back at 0, and the other pins never moved (R213, R215, R216). -/
theorem pins_after_pairEvents (p : Pins) (v : BitVec 16) (k : Nat) :
    (pairEvents v (k + 1)).foldl Pins.after p = { p with data := pairOf v k, clk := 0#1 } := by
  induction k with
  | zero => rfl
  | succ k ih =>
    rw [pairEvents_succ, List.foldl_append, ih]
    rfl

/-- The pop leaves an item with no pair of it on the wire yet. -/
theorem serializerStep_popped {item : Word} {rest : List Word} (h : s.sstate = .idle) (hf : s.fifo = item :: rest) :
    serializerStep s = pairsSent { s with fifo := rest } (item.extractLsb' 0 16) 0 := by
  simp [serializerStep_pop h hf, pairsSent, pairEvents]

/-- Settles O52: the pop, then the eight pairs in three steps each. -/
theorem itemMakesItsTrace : Obligations.ItemMakesItsTrace := by
  intro s item rest hs hf
  refine ⟨pairsSent { s with fifo := rest } (item.extractLsb' 0 16) 8, ?run, rfl, rfl, rfl, rfl, ?osr, rfl, ?pins,
    ?frame⟩
  case run =>
    rw [agentRun_S_succ, serializerStep_popped hs hf]
    exact agentRun_pairs _ _ (Nat.le_refl 8)
  case osr => exact BitVec.shiftLeft_eq_zero (by decide)
  case pins =>
    have hlast : pairOf (item.extractLsb' 0 16) 7 = item.extractLsb' 0 2 := by
      simp [pairOf, BitVec.extractLsb'_extractLsb'_of_le]
    exact (pins_after_pairEvents _ _ 7).trans (by rw [hlast])
  case frame =>
    have hframe : { s with sstate := .idle } = s := by rw [← hs]
    exact hframe

end Sys2Proof.Machine

/-! PROOFS. The brightness bit-banger: the frame (O32), the decode step of DIM (O30, O31), and the whole sequence of agent P
alone (O33): 24 times 16 bits in four sub-steps each, and the end of LAT. -/

namespace Sys2Proof.Machine

variable {s : State}

/-! ### The frame (R232) -/

/-- The bits of the frame: the level below, the preamble above. -/
theorem getLsbD_dimFrame (level : BitVec 6) (n : Nat) :
    (dimFrame level).getLsbD n = if n < 6 then level.getLsbD n else Config.PREAMBLE.getLsbD (n - 6) := by
  rw [dimFrame, BitVec.getLsbD_append]

/-- The preamble is transmitted before the level. -/
theorem dimBit_preamble (level : BitVec 6) {b : Nat} (hb : b < 10) :
    dimBit level b = Config.PREAMBLE.extractLsb' (9 - b) 1 := by
  refine BitVec.eq_of_getLsbD_eq fun i hi => ?_
  have hhigh : ¬ 15 - b + i < 6 := by omega
  have hpos : 15 - b + i - 6 = 9 - b + i := by omega
  simp only [dimBit, BitVec.getLsbD_extractLsb', getLsbD_dimFrame, if_neg hhigh, hpos]

/-- The level follows from its most significant bit on. -/
theorem dimBit_level (level : BitVec 6) {j : Nat} (hj : j < 6) :
    dimBit level (10 + j) = level.extractLsb' (5 - j) 1 := by
  refine BitVec.eq_of_getLsbD_eq fun i hi => ?_
  have hpos : 15 - (10 + j) + i = 5 - j + i := by omega
  have hlow : 5 - j + i < 6 := by omega
  simp only [dimBit, BitVec.getLsbD_extractLsb', getLsbD_dimFrame, hpos, if_pos hlow]

/-- The frame is the preamble moved up by the level's six bits, or'ed with the level. -/
theorem dimFrame_eq_or (level : BitVec 6) : dimFrame level = 0x7140#16 ||| level.setWidth 16 := by
  have hpreamble : 0x7140#16 = Config.PREAMBLE.setWidth 16 <<< 6 := by decide
  refine BitVec.eq_of_getLsbD_eq fun n hn => ?_
  rw [getLsbD_dimFrame, hpreamble]
  by_cases hlow : n < 6
  · simp [hlow, hn, -BitVec.getLsbD_eq_getElem]
  · have hlevel : level.getLsbD n = false := BitVec.getLsbD_of_ge _ _ (Nat.not_lt.1 hlow)
    have hin : n - 6 < 16 := by omega
    simp [hlow, hn, hin, hlevel, -BitVec.getLsbD_eq_getElem]

/-- Settles O32: the frame as one word, the preamble's indices and the level's. -/
theorem frameBitsInOrder : Obligations.FrameBitsInOrder := by
  refine fun level => ⟨dimFrame_eq_or level, ?_, fun _ => dimBit_level level, fun _ _ => rfl⟩
  calc (List.range 10).map (dimBit level)
    _ = (List.range 10).map fun b => Config.PREAMBLE.extractLsb' (9 - b) 1 :=
      List.map_congr_left fun b hb => dimBit_preamble level (List.mem_range.1 hb)
    _ = _ := by decide

/-! ### The decode step (R231, R238, R239) -/

theorem exec_dim_active (l : BitVec 8) (h : s.phase = .active) : exec (.dim l) s = .next (dropCommand .phase s) :=
  if_pos h

theorem exec_dim_tooBright {l : BitVec 8} (h : s.phase = .config) (hl : 63 < l.toNat) :
    exec (.dim l) s = .next (dropCommand .level s) := by
  have hna : s.phase ≠ .active := by simp [h]
  exact (if_neg hna).trans (if_pos hl)

/-- The state in which the sequence of level `l` begins. -/
def dimStart (l : BitVec 8) (s : State) : State :=
  { s with dlevel := l.extractLsb' 0 6, drep := 0#5, dbit := 0#5, dsub := .lat, pstate := .dim }

theorem exec_dim_accepted {l : BitVec 8} (h : s.phase = .config) (hl : l.toNat ≤ 63) :
    exec (.dim l) s = .next (dimStart l s) := by
  have hna : s.phase ≠ .active := by simp [h]
  exact (if_neg hna).trans (if_neg (Nat.not_lt.2 hl))

/-- Settles O30: both drops set their one flag and advance CP. -/
theorem dimRejections : Obligations.DimRejections := fun l _ =>
  ⟨exec_dim_active l, exec_dim_tooBright⟩

/-- Settles O31: a level of at most 63 loses nothing in DLEVEL's six bits. -/
theorem dimAccepted : Obligations.DimAccepted := by
  intro l s hc hl
  have hlevel : (l.extractLsb' 0 6).toNat = l.toNat := by
    simp only [BitVec.extractLsb'_toNat, Nat.shiftRight_zero]
    exact Nat.mod_eq_of_lt (by omega)
  exact ⟨dimStart l s, exec_dim_accepted hc hl, hlevel, rfl, rfl, rfl, rfl, rfl⟩

/-! ### The events of a repetition, bit by bit (R237) -/

/-- The rise of LAT, before bit `l` only. -/
def latRise (l k : Nat) : List PinEvent := if k = l then [.lat 1#1] else []

/-- Bit `k` of a frame on both lanes. -/
def bitPulse (f : BitVec 16) (k : Nat) : List PinEvent :=
  pulseEvents (f.extractLsb' (15 - k) 1 ++ f.extractLsb' (15 - k) 1)

/-- The events of the first `n` bits of a repetition. -/
def bitsSent (l : Nat) (f : BitVec 16) (n : Nat) : List PinEvent :=
  (List.range n).flatMap fun k => latRise l k ++ bitPulse f k

theorem bitsSent_succ (l : Nat) (f : BitVec 16) (n : Nat) :
    bitsSent l f (n + 1) = bitsSent l f n ++ (latRise l n ++ bitPulse f n) := by
  simp [bitsSent, List.range_succ]

theorem dimBitEvents_self (f : BitVec 16) (k : Nat) : dimBitEvents f k k = [] := by simp [dimBitEvents]

theorem dimBitEvents_succ (f : BitVec 16) {lo hi : Nat} (h : lo ≤ hi) :
    dimBitEvents f lo (hi + 1) = dimBitEvents f lo hi ++ bitPulse f hi := by
  have hlen : hi + 1 - lo = hi - lo + 1 := by omega
  have hlast : lo + (hi - lo) = hi := by omega
  simp [dimBitEvents, bitPulse, hlen, List.range'_concat, hlast]

/-- Up to bit `l` the bits follow one another. -/
theorem bitsSent_before {l : Nat} (f : BitVec 16) {n : Nat} (h : n ≤ l) : bitsSent l f n = dimBitEvents f 0 n := by
  induction n with
  | zero => rfl
  | succ n ih =>
    have hne : n ≠ l := by omega
    rw [bitsSent_succ, ih (by omega), dimBitEvents_succ f (Nat.zero_le n), latRise, if_neg hne, List.nil_append]

/-- From bit `l` on, LAT has risen before it. -/
theorem bitsSent_after {l : Nat} (f : BitVec 16) {n : Nat} (h : l ≤ n) :
    bitsSent l f (n + 1) = dimBitEvents f 0 l ++ [.lat 1#1] ++ dimBitEvents f l (n + 1) := by
  induction n, h using Nat.le_induction with
  | base =>
    rw [bitsSent_succ, bitsSent_before f (Nat.le_refl l), dimBitEvents_succ f (Nat.le_refl l), dimBitEvents_self,
      latRise, if_pos rfl, List.nil_append, List.append_assoc]
  | succ n h ih =>
    have hne : n + 1 ≠ l := by omega
    rw [bitsSent_succ, ih, dimBitEvents_succ f (by omega : l ≤ n + 1), latRise, if_neg hne, List.nil_append,
      List.append_assoc]

/-- A repetition is its 16 bits and the fall of LAT. -/
theorem dimRepEvents_eq {l : Nat} (f : BitVec 16) (hl : l ≤ 15) :
    dimRepEvents l f = bitsSent l f 16 ++ [.lat 0#1] := by
  rw [dimRepEvents, bitsSent_after f hl]

/-- The events of the first `n` repetitions. -/
def repsSent (l : Nat) (f : BitVec 16) (n : Nat) : List PinEvent := (List.replicate n (dimRepEvents l f)).flatten

theorem repsSent_succ (l : Nat) (f : BitVec 16) (n : Nat) :
    repsSent l f (n + 1) = repsSent l f n ++ dimRepEvents l f := by
  simp [repsSent, List.replicate_succ']

theorem length_dimBitEvents (f : BitVec 16) (lo hi : Nat) : (dimBitEvents f lo hi).length = 3 * (hi - lo) := by
  simp [dimBitEvents, pulseEvents, Nat.mul_comm]

theorem length_dimRepEvents {l : Nat} (f : BitVec 16) (hl : l ≤ 15) : (dimRepEvents l f).length = 50 := by
  simp only [dimRepEvents, List.length_append, length_dimBitEvents, List.length_singleton]
  omega

theorem length_dimEvents {l : Nat} (f : BitVec 16) (hl : l ≤ 15) : (dimEvents l f).length = 1200 := by
  simp [dimEvents, length_dimRepEvents f hl]

/-! ### The pins after these events (R35) -/

/-- After a bit: the bit on both lanes, CLK low, LAT as it was or just risen. -/
theorem pins_after_bitsSent (l : Nat) (f : BitVec 16) (p : Pins) (k : Nat) :
    (bitsSent l f (k + 1)).foldl Pins.after p = { p with
      data := f.extractLsb' (15 - k) 1 ++ f.extractLsb' (15 - k) 1
      clk := 0#1
      lat := if l ≤ k then 1#1 else p.lat } := by
  induction k with
  | zero =>
    by_cases h : l = 0
    · subst h; rfl
    · simp [bitsSent, latRise, bitPulse, pulseEvents, Pins.after, h, Ne.symm h]
  | succ k ih =>
    rw [bitsSent_succ, List.foldl_append, ih]
    rcases Nat.lt_trichotomy (k + 1) l with h | h | h
    · have h1 : ¬ l ≤ k := by omega
      have h2 : ¬ l ≤ k + 1 := by omega
      simp [latRise, bitPulse, pulseEvents, Pins.after, h.ne, h1, h2]
    · simp [latRise, bitPulse, pulseEvents, Pins.after, h]
    · have h1 : l ≤ k := by omega
      have h2 : l ≤ k + 1 := by omega
      simp [latRise, bitPulse, pulseEvents, Pins.after, h.ne', h1, h2]

/-- After a repetition: the last bit of the frame on both lanes, CLK and LAT low, the other pins never moved. -/
theorem pins_after_repsSent {l : Nat} (f : BitVec 16) (hl : l ≤ 15) (p : Pins) (n : Nat) :
    (repsSent l f (n + 1)).foldl Pins.after p = { p with
      data := f.extractLsb' 0 1 ++ f.extractLsb' 0 1, clk := 0#1, lat := 0#1 } := by
  have hrep : ∀ p, (dimRepEvents l f).foldl Pins.after p = { p with
      data := f.extractLsb' 0 1 ++ f.extractLsb' 0 1, clk := 0#1, lat := 0#1 } := fun p => by
    rw [dimRepEvents_eq f hl, List.foldl_append, pins_after_bitsSent]
    rfl
  induction n with
  | zero => simpa [repsSent] using hrep p
  | succ n ih => rw [repsSent_succ, List.foldl_append, ih, hrep]

/-! ### Agent P inside the sequence (R233) -/

/-- State `s` after the pin events of a list, which move the pins and extend TRACE (R35, R43). -/
def driveAll (es : List PinEvent) (s : State) : State :=
  { s with pins := es.foldl Pins.after s.pins, trace := s.trace ++ es }

theorem driveAll_nil (s : State) : driveAll [] s = s := by simp [driveAll]

theorem commandStep_of_dim (hp : s.pstate = .dim) : commandStep s = .next (dimStep s) := by
  simp [commandStep, hp]

theorem agentRun_dim_succ (n : Nat) (hp : s.pstate = .dim) : agentRun .P (n + 1) s = agentRun .P n (dimStep s) :=
  agentRun_P_succ n (commandStep_of_dim hp)

/-- The LAT sub-step drives LAT only where it rises. -/
theorem dimStep_latRise (hd : s.dsub = .lat) :
    dimStep s = { driveAll (latRise s.cfg.latAssertBit s.dbit.toNat) s with dsub := .data } := by
  rw [dimStep_lat s hd, latRise]
  split
  · rfl
  · rw [driveAll_nil]

/-- The four sub-steps of a bit: LAT if it rises there, then the bit's pulse. -/
theorem agentRun_bit (hp : s.pstate = .dim) (hd : s.dsub = .lat) :
    agentRun .P 4 s = .next
      { driveAll (latRise s.cfg.latAssertBit s.dbit.toNat ++ bitPulse (dimFrame s.dlevel) s.dbit.toNat) s with
        dbit := s.dbit + 1#5
        dsub := if s.dbit = 15#5 then .latclr else .lat } := by
  rw [agentRun_dim_succ 3 hp, dimStep_latRise hd, agentRun_dim_succ 2, dimStep_data _ rfl, agentRun_dim_succ 1,
    dimStep_clkhi _ rfl, agentRun_dim_succ 0, dimStep_clklo _ rfl]
  · simp [agentRun, drive, driveAll, bitPulse, pulseEvents, dimBit]
  all_goals exact hp

/-- The counters DBIT and DREP tell numbers below 32 apart. -/
theorem counter_eq_iff {m n : Nat} (hm : m < 32) (hn : n < 32) : BitVec.ofNat 5 m = BitVec.ofNat 5 n ↔ m = n := by
  rw [← BitVec.toNat_inj, BitVec.toNat_ofNat, BitVec.toNat_ofNat, Nat.mod_eq_of_lt hm, Nat.mod_eq_of_lt hn]

theorem counter_succ (n : Nat) : BitVec.ofNat 5 n + 1#5 = BitVec.ofNat 5 (n + 1) := (BitVec.ofNat_add n 1).symm

/-- State `s`, at the beginning of a repetition, with the first `k` bits sent. -/
def bitsDriven (s : State) (k : Nat) : State :=
  { driveAll (bitsSent s.cfg.latAssertBit (dimFrame s.dlevel) k) s with
    dbit := BitVec.ofNat 5 k
    dsub := if k < 16 then .lat else .latclr }

theorem agentRun_bitsDriven_succ (hp : s.pstate = .dim) {k : Nat} (hk : k < 16) :
    agentRun .P 4 (bitsDriven s k) = .next (bitsDriven s (k + 1)) := by
  have hbit : (BitVec.ofNat 5 k).toNat = k := Nat.mod_eq_of_lt (by omega)
  have hlast : BitVec.ofNat 5 k = 15#5 ↔ ¬ k + 1 < 16 := (counter_eq_iff (by omega) (by omega)).trans (by omega)
  rw [agentRun_bit (s := bitsDriven s k) hp (if_pos hk)]
  simp only [bitsDriven, driveAll, hbit, counter_succ, hlast, ite_not, bitsSent_succ, List.foldl_append,
    List.append_assoc]

theorem agentRun_bitsDriven (hp : s.pstate = .dim) {k : Nat} (hk : k ≤ 16) :
    agentRun .P (4 * k) (bitsDriven s 0) = .next (bitsDriven s k) := by
  induction k with
  | zero => rfl
  | succ k ih => exact agentRun_add (ih (by omega)) (agentRun_bitsDriven_succ hp hk)

/-- State `s`, at the beginning of the sequence, with the first `r` of the 24 repetitions sent. -/
def repsDriven (s : State) (r : Nat) : State :=
  { driveAll (repsSent s.cfg.latAssertBit (dimFrame s.dlevel) r) s with
    dbit := 0#5
    drep := BitVec.ofNat 5 r
    dsub := .lat
    pstate := if r < 24 then .dim else .idle
    cp := if r < 24 then s.cp else s.cp + 1 }

/-- The 64 sub-steps of a repetition's bits, and LAT's release, with which the last repetition ends the command. -/
theorem agentRun_repsDriven_succ (hl : s.cfg.latAssertBit ≤ 15) {r : Nat} (hr : r < 24) :
    agentRun .P 65 (repsDriven s r) = .next (repsDriven s (r + 1)) := by
  have hp : (repsDriven s r).pstate = .dim := if_pos hr
  have hstart : bitsDriven (repsDriven s r) 0 = repsDriven s r := by
    simp [bitsDriven, bitsSent, driveAll, repsDriven]
  have hbits : agentRun .P 64 (repsDriven s r) = .next (bitsDriven (repsDriven s r) 16) := by
    conv_lhs => rw [← hstart]
    exact agentRun_bitsDriven hp (Nat.le_refl 16)
  have hend : BitVec.ofNat 5 (r + 1) = 24#5 ↔ ¬ r + 1 < 24 := (counter_eq_iff (by omega) (by omega)).trans (by omega)
  refine agentRun_add (n := 1) hbits ?_
  rw [agentRun_dim_succ (s := bitsDriven (repsDriven s r) 16) 0 hp, dimStep_latclr _ rfl]
  simp only [agentRun, bitsDriven, repsDriven, drive, driveAll, counter_succ, hend, ite_not, if_pos hr, repsSent_succ,
    dimRepEvents_eq _ hl, List.foldl_append, List.foldl_cons, List.foldl_nil, List.append_assoc]

theorem agentRun_repsDriven (hl : s.cfg.latAssertBit ≤ 15) {r : Nat} (hr : r ≤ 24) :
    agentRun .P (65 * r) (repsDriven s 0) = .next (repsDriven s r) := by
  induction r with
  | zero => rfl
  | succ r ih => exact agentRun_add (ih (by omega)) (agentRun_repsDriven_succ hl hr)

/-- Settles O33: the decode step, then the 24 repetitions, the last of which leaves DIM. -/
theorem dimRunMakesWholeTrace : Obligations.DimRunMakesWholeTrace := by
  intro s w l hl hc hp hw hd hlevel
  have hfirst : commandStep s = .next (repsDriven (dimStart l s) 0) :=
    calc commandStep s = runWord w s := commandStep_of_fetch hp hw
      _ = exec (.dim l) s := runWord_ok hd s
      _ = .next (dimStart l s) := exec_dim_accepted hc hlevel
      _ = .next (repsDriven (dimStart l s) 0) := by simp [repsDriven, repsSent, driveAll, dimStart]
  refine ⟨repsDriven (dimStart l s) 24, ?run, rfl, length_dimEvents _ hl, ?pins, rfl, rfl, rfl, ?frame⟩
  case run => exact (agentRun_P_succ 1560 hfirst).trans (agentRun_repsDriven (s := dimStart l s) hl (Nat.le_refl 24))
  case pins =>
    have hlast : (dimFrame (l.extractLsb' 0 6)).extractLsb' 0 1 = l.extractLsb' 0 1 :=
      (dimBit_level _ (j := 5) (by decide)).trans (by simp [BitVec.extractLsb'_extractLsb'_of_le])
    rw [← hlast]
    exact pins_after_repsSent _ hl _ 23
  case frame =>
    have hframe : { s with pstate := .idle } = s := by rw [← hp]
    exact hframe

end Sys2Proof.Machine

/-! PROOFS. What the panel observer makes of the brightness sequence (O58): each pulse on the lanes shifts one bit in, so after
the 16 bits of a repetition the newest bits of both lanes are the frame, and the fall of LAT records them. -/

namespace Sys2Proof.Machine

variable {o q : Panel}

/-! ### Showing OUT touches the images only (R263) -/

theorem panelShow_frame (o : Panel) :
    { panelShow o with image0 := o.image0, image1 := o.image1, image2 := o.image2, image3 := o.image3 } = o := by
  unfold panelShow
  split_ifs <;> rfl

@[simp] theorem panelShow_pins (o : Panel) : (panelShow o).pins = o.pins := (congrArg Panel.pins (panelShow_frame o) :)
@[simp] theorem panelShow_sr (o : Panel) : (panelShow o).sr = o.sr := (congrArg Panel.sr (panelShow_frame o) :)
@[simp] theorem panelShow_out (o : Panel) : (panelShow o).out = o.out := (congrArg Panel.out (panelShow_frame o) :)
@[simp] theorem panelShow_edges (o : Panel) : (panelShow o).edges = o.edges :=
  (congrArg Panel.edges (panelShow_frame o) :)
@[simp] theorem panelShow_pulses (o : Panel) : (panelShow o).pulses = o.pulses :=
  (congrArg Panel.pulses (panelShow_frame o) :)

/-! ### The observer at a pulse of CLK and at the edges of LAT (R261, R262, R265) -/

theorem observe_append (o : Panel) (es es' : List PinEvent) : observe o (es ++ es') = observe (observe o es) es' :=
  List.foldl_append

/-- A pulse of CLK shifts the lanes once. -/
theorem observe_pulseEvents (h : o.pins.clk = 0#1) (d : BitVec 2) :
    (observe o (pulseEvents d)).pins = { o.pins with data := d, clk := 0#1 } ∧
    (observe o (pulseEvents d)).sr = shiftFrame o.sr d ∧
    (observe o (pulseEvents d)).edges = o.edges + 1 ∧
    (observe o (pulseEvents d)).pulses = o.pulses ∧ (observe o (pulseEvents d)).out = o.out := by
  simp [observe, pulseEvents, panelEvent, panelEdge, Pins.after, h]

/-- The rising edge of LAT begins a pulse, with no clock edge under it yet. -/
theorem observe_lat_rise (h : o.pins.lat = 0#1) :
    (observe o [.lat 1#1]).pins = { o.pins with lat := 1#1 } ∧ (observe o [.lat 1#1]).sr = o.sr ∧
    (observe o [.lat 1#1]).edges = 0 ∧ (observe o [.lat 1#1]).pulses = o.pulses ∧
    (observe o [.lat 1#1]).out = o.out := by
  simp [observe, panelEvent, panelEdge, Pins.after, h]

/-- The falling edge of LAT after clock edges is a configuration pulse, which leaves OUT. -/
theorem observe_lat_fall (h : o.pins.lat = 1#1) (he : o.edges ≠ 0) :
    (observe o [.lat 0#1]).pins = { o.pins with lat := 0#1 } ∧
    (observe o [.lat 0#1]).pulses = o.pulses ++
      [⟨o.edges, o.sr.lane1.extractLsb' 0 16, o.sr.lane0.extractLsb' 0 16⟩] ∧
    (observe o [.lat 0#1]).out = o.out := by
  simp [observe, panelEvent, panelEdge, Pins.after, h, he]

/-! ### The newest bits of a lane -/

/-- The `k` newest bits of a lane are the first `k` transmitted bits of `f`, the last of them at position 0. -/
def Newest (f : BitVec 16) (k : Nat) (lane : BitVec Config.CHAIN) : Prop :=
  ∀ j, j < k → lane.getLsbD j = f.getLsbD (16 - k + j)

theorem getLsbD_shiftLane (lane : BitVec Config.CHAIN) (b : Bit) {j : Nat} (hj : j < 16) :
    (shiftLane lane b).getLsbD j = if j = 0 then b.getLsbD 0 else lane.getLsbD (j - 1) := by
  have hin : j < Config.CHAIN := hj.trans (by decide)
  rw [shiftLane, BitVec.getLsbD_or, BitVec.getLsbD_shiftLeft, BitVec.getLsbD_setWidth]
  cases j with
  | zero => simp
  | succ j => simp [hin, -Config.CHAIN_eq]

theorem Newest.shiftLane {f : BitVec 16} {k : Nat} {lane : BitVec Config.CHAIN} (h : Newest f k lane) (hk : k < 16) :
    Newest f (k + 1) (shiftLane lane (f.extractLsb' (15 - k) 1)) := by
  intro j hj
  rw [getLsbD_shiftLane lane _ (by omega)]
  cases j with
  | zero =>
    have hpos : 16 - (k + 1) + 0 = 15 - k := by omega
    rw [if_pos rfl, hpos]
    simp
  | succ j =>
    have hpos : 16 - (k + 1) + (j + 1) = 16 - k + j := by omega
    rw [if_neg (Nat.succ_ne_zero j), Nat.add_sub_cancel, h j (by omega), hpos]

/-- All 16 bits in, they are the word sent. -/
theorem Newest.word {f : BitVec 16} {lane : BitVec Config.CHAIN} (h : Newest f 16 lane) : lane.extractLsb' 0 16 = f := by
  refine BitVec.eq_of_getLsbD_eq fun j hj => ?_
  rw [BitVec.getLsbD_extractLsb', h _ (by omega)]
  simp [hj]

/-- One bit on both lanes is shifted into both. -/
theorem shiftFrame_both (r : Frame) (b : Bit) :
    shiftFrame r (b ++ b) = { lane1 := shiftLane r.lane1 b, lane0 := shiftLane r.lane0 b } := by
  have hhigh : (b ++ b).extractLsb' 1 1 = b := by revert b; decide
  have hlow : (b ++ b).extractLsb' 0 1 = b := by revert b; decide
  rw [shiftFrame, hhigh, hlow]

/-! ### Inside a repetition -/

/-- From `o`, panel `q` has seen `k` bits of frame `f`, and the LAT sub-steps of the first `u` bits. -/
structure BitsSeen (l : Nat) (f : BitVec 16) (o : Panel) (u k : Nat) (q : Panel) : Prop where
  clk : q.pins.clk = 0#1
  lat : q.pins.lat = if l < u then 1#1 else 0#1
  edges : l < u → q.edges = k - l
  lane1 : Newest f k q.sr.lane1
  lane0 : Newest f k q.sr.lane0
  pulses : q.pulses = o.pulses
  out : q.out = o.out

variable {l u k : Nat} {f : BitVec 16}

theorem BitsSeen.start (hclk : o.pins.clk = 0#1) (hlat : o.pins.lat = 0#1) : BitsSeen l f o 0 0 o :=
  ⟨hclk, hlat, nofun, nofun, nofun, rfl, rfl⟩

/-- LAT rises before bit `l` and stays up after it. -/
theorem BitsSeen.latRise (h : BitsSeen l f o k k q) : BitsSeen l f o (k + 1) k (observe q (latRise l k)) := by
  by_cases hk : k = l
  · subst hk
    have hlow : q.pins.lat = 0#1 := by simp [h.lat]
    obtain ⟨hpins, hsr, hedges, hpulses, hout⟩ := observe_lat_rise hlow
    rw [Machine.latRise, if_pos rfl]
    exact
      { clk := by rw [hpins]; exact h.clk
        lat := by simp [hpins]
        edges := fun _ => by rw [hedges, Nat.sub_self]
        lane1 := by rw [hsr]; exact h.lane1
        lane0 := by rw [hsr]; exact h.lane0
        pulses := hpulses.trans h.pulses
        out := hout.trans h.out }
  · have hsame : l < k + 1 ↔ l < k := by omega
    rw [Machine.latRise, if_neg hk]
    change BitsSeen l f o (k + 1) k q
    exact { h with lat := by simpa [hsame] using h.lat, edges := fun hl => h.edges (hsame.1 hl) }

/-- The pulse of bit `k` shifts it into both lanes. -/
theorem BitsSeen.bitPulse (h : BitsSeen l f o (k + 1) k q) (hk : k < 16) :
    BitsSeen l f o (k + 1) (k + 1) (observe q (bitPulse f k)) := by
  obtain ⟨hpins, hsr, hedges, hpulses, hout⟩ :=
    observe_pulseEvents h.clk (f.extractLsb' (15 - k) 1 ++ f.extractLsb' (15 - k) 1)
  rw [shiftFrame_both] at hsr
  exact
    { clk := by rw [Machine.bitPulse, hpins]
      lat := by rw [Machine.bitPulse, hpins]; exact h.lat
      edges := fun hl => by rw [Machine.bitPulse, hedges, h.edges hl]; omega
      lane1 := by rw [Machine.bitPulse, hsr]; exact h.lane1.shiftLane hk
      lane0 := by rw [Machine.bitPulse, hsr]; exact h.lane0.shiftLane hk
      pulses := hpulses.trans h.pulses
      out := hout.trans h.out }

theorem BitsSeen.bits (hclk : o.pins.clk = 0#1) (hlat : o.pins.lat = 0#1) (hk : k ≤ 16) :
    BitsSeen l f o k k (observe o (bitsSent l f k)) := by
  induction k with
  | zero => exact .start hclk hlat
  | succ k ih =>
    rw [bitsSent_succ, observe_append, observe_append]
    exact (ih (by omega)).latRise.bitPulse hk

/-! ### Repetition after repetition -/

/-- From `o`, panel `q` has seen `n` repetitions as configuration pulses, and CLK and LAT are low again. -/
structure RepsSeen (l : Nat) (f : BitVec 16) (o : Panel) (n : Nat) (q : Panel) : Prop where
  clk : q.pins.clk = 0#1
  lat : q.pins.lat = 0#1
  pulses : q.pulses = o.pulses ++ List.replicate n { edges := 16 - l, lane1 := f, lane0 := f }
  out : q.out = o.out

/-- A repetition ends with the fall of LAT, 16 - `l` clock edges after its rise (R234). -/
theorem RepsSeen.succ (h : RepsSeen l f o k q) (hl : l ≤ 15) : RepsSeen l f o (k + 1) (observe q (dimRepEvents l f)) := by
  have hbits : BitsSeen l f q 16 16 (observe q (bitsSent l f 16)) := .bits h.clk h.lat (Nat.le_refl 16)
  have hup : l < 16 := by omega
  have hedges := hbits.edges hup
  obtain ⟨hpins, hpulses, hout⟩ := observe_lat_fall (hbits.lat.trans (if_pos hup)) (by omega)
  rw [dimRepEvents_eq f hl, observe_append]
  exact
    { clk := by rw [hpins]; exact hbits.clk
      lat := by rw [hpins]
      pulses := by
        rw [hpulses, hedges, hbits.lane1.word, hbits.lane0.word, hbits.pulses, h.pulses, List.replicate_succ',
          List.append_assoc]
      out := hout.trans (hbits.out.trans h.out) }

theorem RepsSeen.reps (hl : l ≤ 15) (hclk : o.pins.clk = 0#1) (hlat : o.pins.lat = 0#1) (n : Nat) :
    RepsSeen l f o n (observe o (repsSent l f n)) := by
  induction n with
  | zero => exact ⟨hclk, hlat, (List.append_nil _).symm, rfl⟩
  | succ n ih =>
    rw [repsSent_succ, observe_append]
    exact ih.succ hl

/-- Settles O58: the whole sequence is 24 repetitions. -/
theorem observerSeesBrightnessFrames : Obligations.ObserverSeesBrightnessFrames := by
  intro o l f hl hclk hlat
  have hseen : RepsSeen l f o 24 (observe o (dimEvents l f)) := .reps hl hclk hlat 24
  exact ⟨hseen.pulses, hseen.out⟩

end Sys2Proof.Machine

/-! PROOFS. STAT's response (O35): where each field of STATUS stands in the word. -/

namespace Sys2Proof.Machine

/-- Above its lowest bit, a word built by appending one bit reads as the part before it. -/
theorem extractLsb'_succ_append_bit {n : Nat} (x : BitVec n) (b : Bit) (start len : Nat) :
    (x ++ b).extractLsb' (start + 1) len = x.extractLsb' start len :=
  BitVec.extractLsb'_append_eq_of_le (Nat.le_add_left 1 start)

/-! ### The fields of STATUS (R33) -/

variable (s : State)

theorem phaseBit_eq_ite (p : Phase) : phaseBit p = if p = .active then 1#1 else 0#1 := by cases p <;> rfl

theorem status_phase : (status s).extractLsb' 0 1 = phaseBit s.phase := BitVec.extractLsb'_append_eq_right

theorem status_errCmd : (status s).extractLsb' 1 1 = s.flags.errCmd := by
  rw [status, extractLsb'_succ_append_bit, BitVec.extractLsb'_append_eq_right]

theorem status_errLevel : (status s).extractLsb' 2 1 = s.flags.errLevel := by
  rw [status, extractLsb'_succ_append_bit, extractLsb'_succ_append_bit, BitVec.extractLsb'_append_eq_right]

theorem status_errPhase : (status s).extractLsb' 3 1 = s.flags.errPhase := by
  rw [status, extractLsb'_succ_append_bit, extractLsb'_succ_append_bit, extractLsb'_succ_append_bit,
    BitVec.extractLsb'_append_eq_right]

theorem status_upper : (status s).extractLsb' 4 28 = 0#28 := by
  rw [status, extractLsb'_succ_append_bit, extractLsb'_succ_append_bit, extractLsb'_succ_append_bit,
    extractLsb'_succ_append_bit, BitVec.extractLsb'_eq_self]

/-! ### The response (R250) -/

theorem exec_stat : exec .stat s = .next (nextCommand (respond (status s) s)) := rfl

/-- Settles O35: the word is STATUS itself, and only RSP and CP are written. -/
theorem statRespondsStatus : Obligations.StatRespondsStatus := fun s =>
  ⟨status s, exec_stat s, (status_phase s).trans (phaseBit_eq_ite s.phase), status_errCmd s, status_errLevel s,
    status_errPhase s, status_upper s⟩

end Sys2Proof.Machine

/-! PROOFS. The end-to-end statement of the panel observer (O59). The 48 words of a group are one train of 384 pulses;
clocked in, pulse m stands at position 383 − m of both lanes, which is where R264 reads the LED of its pixel, and the
latch puts both lanes on show. -/

namespace Sys2Proof.Machine

variable {o q : Panel}

/-! ### A train of pulses (R261) -/

/-- The events of the first `n` pulses, pulse m with the pair `d m` on the lanes. -/
def pulseTrain (d : Nat → BitVec 2) (n : Nat) : List PinEvent := (List.range n).flatMap fun m => pulseEvents (d m)

theorem pulseTrain_succ (d : Nat → BitVec 2) (n : Nat) :
    pulseTrain d (n + 1) = pulseTrain d n ++ pulseEvents (d n) := by
  simp [pulseTrain, List.range_succ]

/-- The pair of pulse m while the words `w` are clocked out: pair m mod 8 of word m div 8. -/
def wordsPair (w : Nat → BitVec 16) (m : Nat) : BitVec 2 := pairOf (w (m / 8)) (m % 8)

theorem wordsPair_eq (w : Nat → BitVec 16) (i : Nat) {k : Nat} (hk : k < 8) :
    wordsPair w (8 * i + k) = pairOf (w i) k := by
  have hword : (8 * i + k) / 8 = i := by omega
  have hpair : (8 * i + k) % 8 = k := by omega
  rw [wordsPair, hword, hpair]

/-- The items of `n` words, one after the other, are one train of 8 pulses each. -/
theorem flatMap_itemEvents (w : Nat → BitVec 16) (n : Nat) :
    (List.range n).flatMap (fun i => itemEvents (w i)) = pulseTrain (wordsPair w) (8 * n) := by
  induction n with
  | zero => rfl
  | succ n ih =>
    have hlast : (List.range 8).flatMap (fun k => pulseEvents (wordsPair w (8 * n + k))) = itemEvents (w n) :=
      List.flatMap_congr fun k hk => by rw [wordsPair_eq w n (List.mem_range.1 hk)]
    rw [List.range_succ, List.flatMap_append, ih, List.flatMap_singleton, ← hlast, Nat.mul_succ, pulseTrain,
      pulseTrain, List.range_add, List.flatMap_append, List.flatMap_map]

/-! ### What a train leaves in the lanes -/

/-- Bit `l` of each of the first `n` pairs stands in the lane as many positions up as pairs came after it (R261). -/
def HoldsTrain (d : Nat → BitVec 2) (l n : Nat) (lane : BitVec Config.CHAIN) : Prop :=
  ∀ m, m < n → lane.getLsbD (n - 1 - m) = (d m).getLsbD l

/-- Every bit of a lane but the last moves up one position. -/
theorem getLsbD_shiftLane_succ (lane : BitVec Config.CHAIN) (b : Bit) {j : Nat} (hj : j + 1 < Config.CHAIN) :
    (shiftLane lane b).getLsbD (j + 1) = lane.getLsbD j := by
  rw [shiftLane, BitVec.getLsbD_or, BitVec.getLsbD_shiftLeft, BitVec.getLsbD_setWidth]
  simp [hj, -Config.CHAIN_eq]

/-- While the chain is long enough, one more pair loses none of those before it. -/
theorem HoldsTrain.shiftLane {d : Nat → BitVec 2} {l n : Nat} {lane : BitVec Config.CHAIN} (h : HoldsTrain d l n lane)
    (hn : n < Config.CHAIN) : HoldsTrain d l (n + 1) (shiftLane lane ((d n).extractLsb' l 1)) := by
  intro m hm
  rcases Nat.lt_succ_iff_lt_or_eq.1 hm with hold | rfl
  · have hpos : n + 1 - 1 - m = n - 1 - m + 1 := by omega
    rw [hpos, getLsbD_shiftLane_succ lane _ (by omega), h m hold]
  · have hpos : m + 1 - 1 - m = 0 := by omega
    rw [hpos, getLsbD_shiftLane lane _ (by decide), if_pos rfl]
    simp

/-- Panel `q` has clocked in the first `n` pairs of `d`, and CLK and LAT are low. -/
structure TrainSeen (d : Nat → BitVec 2) (n : Nat) (q : Panel) : Prop where
  clk : q.pins.clk = 0#1
  lat : q.pins.lat = 0#1
  lane1 : HoldsTrain d 1 n q.sr.lane1
  lane0 : HoldsTrain d 0 n q.sr.lane0

variable {d : Nat → BitVec 2} {n : Nat}

theorem TrainSeen.pulse (h : TrainSeen d n q) (hn : n < Config.CHAIN) :
    TrainSeen d (n + 1) (observe q (pulseEvents (d n))) := by
  obtain ⟨hpins, hsr, -⟩ := observe_pulseEvents h.clk (d n)
  exact
    { clk := by rw [hpins]
      lat := by rw [hpins]; exact h.lat
      lane1 := by rw [hsr]; exact h.lane1.shiftLane hn
      lane0 := by rw [hsr]; exact h.lane0.shiftLane hn }

theorem TrainSeen.train (hclk : o.pins.clk = 0#1) (hlat : o.pins.lat = 0#1) (hn : n ≤ Config.CHAIN) :
    TrainSeen d n (observe o (pulseTrain d n)) := by
  induction n with
  | zero => exact ⟨hclk, hlat, nofun, nofun⟩
  | succ n ih =>
    rw [pulseTrain_succ, observe_append]
    exact (ih (by omega)).pulse hn

/-! ### The latch and the layout (R262, R264) -/

@[simp] theorem panelShow_atRise (o : Panel) : (panelShow o).atRise = o.atRise :=
  (congrArg Panel.atRise (panelShow_frame o) :)

/-- Latching a group puts the lanes on its rows: no clock edge falls under LAT, so it is a data latch. -/
theorem observe_latchEvents (h : o.pins.lat = 0#1) (a : BitVec 2) :
    (observe o (latchEvents a)).pins = { o.pins with oe := 0#1, a := a, lat := 0#1 } ∧
    (observe o (latchEvents a)).out = o.sr := by
  simp [observe, latchEvents, panelEvent, panelEdge, Pins.after, h]

theorem getLsbD_pairOf (v : BitVec 16) (k : Nat) {l : Nat} (hl : l < 2) :
    (pairOf v k).getLsbD l = v.getLsbD (14 - 2 * k + l) := by
  simp [pairOf, hl]

/-- Once 48 words are clocked in, the LED of a pixel reads the bit of its word that R146 gives the pixel. -/
theorem TrainSeen.frameLed {w : Nat → BitVec 16} (h : TrainSeen (wordsPair w) 384 q) {ch x y : Nat} (hch : ch < 3)
    (hx : x < 64) (hy : y < 16) :
    frameLed q.sr ch x y = (w (6 * (x / 8) + 2 * ch + y / 4 % 2)).getLsbD (15 - 2 * (x % 8) - y / 4 / 2) := by
  generalize hi : 6 * (x / 8) + 2 * ch + y / 4 % 2 = i
  have hpos : chainPos ch x y = 384 - 1 - (8 * i + x % 8) := by rw [chainPos, hi]
  have hlt : 8 * i + x % 8 < 384 := by omega
  have hpair : wordsPair w (8 * i + x % 8) = pairOf (w i) (x % 8) := wordsPair_eq w i (by omega)
  rw [Machine.frameLed, hpos]
  split_ifs with htop
  · have hbit : 14 - 2 * (x % 8) + 1 = 15 - 2 * (x % 8) - y / 4 / 2 := by omega
    rw [h.lane1 _ hlt, hpair, getLsbD_pairOf _ _ (by decide), hbit]
  · have hbit : 14 - 2 * (x % 8) + 0 = 15 - 2 * (x % 8) - y / 4 / 2 := by omega
    rw [h.lane0 _ hlt, hpair, getLsbD_pairOf _ _ (by decide), hbit]

/-- Settles O59: after 384 pulses nothing of the panel's earlier contents is left in the lanes, and the latch shows them
on the rows of the group. -/
theorem panelShowsLatchedGroup : Obligations.PanelShowsLatchedGroup := by
  intro o d pb a hclk hlat
  refine ⟨_, rfl, fun ch x y hch hx hy => ?_⟩
  rw [flatMap_itemEvents (fun i => encWord (Params.default d) pb a.toNat i) 48, observe_append]
  have hseen := TrainSeen.train (d := wordsPair fun i => encWord (Params.default d) pb a.toNat i) hclk hlat
    (Nat.le_refl 384)
  obtain ⟨hpins, hout⟩ := observe_latchEvents hseen.lat a
  rw [Panel.lit, hpins, hout, hseen.frameLed hch hx hy]
  by_cases hgroup : y % 4 = a.toNat
  · simp only [← hgroup, getLsbD_encWord_pixel d hch hx hy, decide_true, Bool.true_and]
  · simp only [hgroup, decide_false, Bool.and_false, Bool.false_and]

end Sys2Proof.Machine

/-! PROOFS. Known words (O6), the flag a command sets (O36), and what each agent's step leaves of the others' state (O41), so
that agent P stops no step of agent R (O46). -/

namespace Sys2Proof

theorem decode_of_encode_eq {w : Word} {i : Instr} (hw : encode i = w) (hwf : i.wf = true) : decode w = .ok i :=
  hw ▸ decodeOfEncode i hwf

/-- Settles O6: each word is the one the encoder gives the command, and the round trip decodes it. -/
theorem knownWordsDecode : Obligations.KnownWordsDecode := by
  refine ⟨?_, ?_, ?_, ?_, ?_, ?_, ?_, ?_, ?_⟩ <;> exact decode_of_encode_eq (by decide) (by decide)

end Sys2Proof

namespace Sys2Proof.Machine

variable {s t u : State}

/-! ### The flags after a command (R277) -/

theorem phase_config_of_not_active (h : s.phase ≠ .active) : s.phase = .config :=
  not_not.1 (mt phase_active_iff.2 h)

/-- The flags after a command are those of the one state it answers. -/
theorem flags_of_exec {i : Instr} {f : Flags} (h : exec i s = .next t) (hu : exec i s = .next u) (hf : u.flags = f) :
    t.flags = f := by
  rw [h] at hu
  cases hu
  exact hf

/-- DIM checks the phase before the level (R238, R239). -/
theorem exec_dim_flags {l : BitVec 8} (h : exec (.dim l) s = .next t) :
    t.flags = if s.phase = .active then setFlag .phase s.flags
      else if 63 < l.toNat then setFlag .level s.flags else s.flags := by
  split
  · next ha => exact flags_of_exec h (exec_dim_active l ha) rfl
  · next hna =>
    have hc := phase_config_of_not_active hna
    split
    · next hl => exact flags_of_exec h (exec_dim_tooBright hc hl) rfl
    · next hl => exact flags_of_exec h (exec_dim_accepted hc (Nat.not_lt.1 hl)) rfl

/-- START checks the phase (R171). -/
theorem exec_start_flags (h : exec .start s = .next t) :
    t.flags = if s.phase = .active then setFlag .phase s.flags else s.flags := by
  obtain ⟨hconfig, hactive⟩ := startEntersActive s
  split
  · next ha => exact flags_of_exec h (hactive ha) rfl
  · next hna => exact flags_of_exec h (hconfig (phase_config_of_not_active hna)) rfl

/-- STRD sets a flag only for an index outside the table (R66). -/
theorem exec_strd_flags {g : BitVec 2} {i : BitVec 6} (h : exec (.strd g i) s = .next t) :
    t.flags = if 48 ≤ i.toNat then setFlag .cmd s.flags else s.flags := by
  obtain ⟨hinside, houtside⟩ := strdRespondsScanWord g i s
  split
  · next hi => exact flags_of_exec h (houtside hi) rfl
  · next hi => exact flags_of_exec h (hinside (Nat.not_le.1 hi)) rfl

/-- PSET sets no flag, also out of range (R122). -/
theorem exec_pset_flags {ch : Channel} {x y : BitVec 12} {b : Bit} (h : exec (.pset ch x y b) s = .next t) :
    t.flags = s.flags := by
  cases h
  rw [nextCommand_flags]
  split <;> rfl

theorem exec_blit_flags (h : exec .blit s = .next t) : t.flags = s.flags := by
  rw [exec_blit, blitWord_eq] at h
  cases h
  rfl

/-- Settles O36: an illegal word is dropped before anything else is looked at; a command then sets at most the one flag its
own checks find first. -/
theorem oneFlagInOrder : Obligations.OneFlagInOrder := by
  intro w s t h
  cases hd : decode w with
  | error e =>
    rw [runWord_error hd] at h
    cases h
    rfl
  | ok i =>
    rw [runWord_ok hd] at h
    cases i with
    | pset ch x y b => exact exec_pset_flags h
    | pget ch x y => cases h; rfl
    | pclr ch => cases h; rfl
    | blit => exact exec_blit_flags h
    | strd g i => exact exec_strd_flags h
    | dim l => exact exec_dim_flags h
    | start => exact exec_start_flags h
    | stat => cases h; rfl

/-! ### What agent P leaves of the refresh loop (R285) -/

/-- From `s` to `t` agent R's position stayed, or START began the loop (R171). -/
def LoopStaysOrStarts (s t : State) : Prop :=
  t.rstate = s.rstate ∨ s.phase = .config ∧ t.phase = .active ∧ t.rstate = .adv

theorem blitWord_rstate (s : State) : (blitWord s).rstate = s.rstate := by rw [blitWord_eq]

theorem dimStep_rstate (s : State) : (dimStep s).rstate = s.rstate := by
  cases hd : s.dsub with
  | lat => rw [dimStep_lat s hd]; split <;> rfl
  | data => rw [dimStep_data s hd]; rfl
  | clkhi => rw [dimStep_clkhi s hd]; rfl
  | clklo => rw [dimStep_clklo s hd]; rfl
  | latclr => rw [dimStep_latclr s hd]; rfl

theorem LoopStaysOrStarts.exec {i : Instr} (h : exec i s = .next t) : LoopStaysOrStarts s t := by
  rcases exec_cases h with ⟨ch, x, y, b, -, rfl⟩ | ⟨ch, x, y, -, v, rfl⟩ | ⟨ch, -, rfl⟩ | ⟨-, rfl⟩ | hstrd | hdim | hstart |
    ⟨-, rfl⟩
  · split <;> exact .inl rfl
  · exact .inl rfl
  · exact .inl rfl
  · exact .inl (blitWord_rstate _)
  · obtain ⟨g, n, -, ⟨v, rfl⟩ | rfl⟩ := hstrd <;> exact .inl rfl
  · obtain ⟨l, -, ⟨-, rfl⟩ | ⟨-, -, rfl⟩ | ⟨-, -, rfl⟩⟩ := hdim <;> exact .inl rfl
  · obtain ⟨-, ⟨-, rfl⟩ | ⟨hc, rfl⟩⟩ := hstart
    · exact .inl rfl
    · exact .inr ⟨hc, rfl, rfl⟩
  · exact .inl rfl

theorem LoopStaysOrStarts.command (h : commandStep s = .next t) : LoopStaysOrStarts s t := by
  rcases commandStep_cases h with ⟨-, -, rfl⟩ | ⟨-, w, -, ⟨i, -, hi⟩ | ⟨e, -, rfl⟩⟩ | ⟨-, rfl⟩ | ⟨-, rfl⟩
  · exact .inl rfl
  · exact .exec hi
  · exact .inl rfl
  · exact .inl (blitWord_rstate s)
  · exact .inl (dimStep_rstate s)

/-- The guard of agent R reads RSTATE, the queue, SSTATE and the parameters only. -/
theorem rEnabled_congr (hr : t.rstate = s.rstate) (hf : t.fifo = s.fifo) (hs : t.sstate = s.sstate)
    (hc : t.cfg = s.cfg) : rEnabled t = rEnabled s := by
  simp only [rEnabled, drained, hr, hf, hs, hc]

/-- Settles O46: agent P leaves what agent R's guard reads, or begins the loop, whose first step has no guard. -/
theorem commandsNeverStopRefresh : Obligations.CommandsNeverStopRefresh := by
  intro s t he h
  rcases LoopStaysOrStarts.command h with hr | ⟨-, -, hadv⟩
  · have hleaves := LeavesLoops.command h
    rw [rEnabled_congr hr hleaves.fifo hleaves.sstate (StepKeeps.command h).cfg]
    exact he
  · exact rEnabled_unguarded hadv (by decide)

/-! ### What each agent leaves of the others' state (R285, R287) -/

/-- Of agent P's pins none is OE or A (R36). -/
theorem nextPin_P {p : PinName} (h : nextPin s .P = some p) : p ≠ .oe ∧ p ≠ .a := by
  have hp := pstate_of_nextPin h
  cases hd : s.dsub with
  | lat =>
    by_cases hb : s.dbit.toNat = s.cfg.latAssertBit
    · obtain rfl : .lat = p := by simpa [nextPin, hp, hd, hb] using h
      decide
    · simp [nextPin, hp, hd, hb] at h
  | data | clkhi | clklo | latclr =>
    simp only [nextPin, hp, hd, Option.some.injEq] at h
    subst h
    decide

/-- Outside the brightness sequence agent P drives no pin. -/
theorem nextPin_P_none (hp : s.pstate ≠ .dim) : nextPin s .P = none := by
  cases hs : s.pstate with
  | idle | blit => simp [nextPin, hs]
  | dim => exact absurd hs hp

/-- Agent R writes its registers, the queue and the pins OE, A and LAT. -/
theorem refreshStep_frame (h : refreshStep s = .next t) :
    { t with addr := s.addr, rstate := s.rstate, widx := s.widx, muxhold := s.muxhold, fifo := s.fifo,
             pins := s.pins, trace := s.trace } = s ∧
    t.pins.data = s.pins.data ∧ t.pins.clk = s.pins.clk := by
  rcases refreshStep_cases h with ⟨-, rfl⟩ | ⟨-, rfl⟩ | ⟨-, v, -, rfl⟩ | ⟨-, rfl⟩ | ⟨-, rfl⟩ | ⟨-, rfl⟩ | ⟨-, rfl⟩ |
    ⟨-, rfl⟩ | ⟨-, rfl⟩ <;> exact ⟨rfl, rfl, rfl⟩

/-- With an empty queue there is no pop (R212). -/
theorem popStep_nil (h : s.fifo = []) : popStep s = s := by simp [popStep, h]

/-- Agent S writes its registers, the queue and the pins DATA and CLK. -/
theorem serializerStep_frame (s : State) :
    { serializerStep s with sstate := s.sstate, osr := s.osr, scnt := s.scnt, fifo := s.fifo, pins := s.pins,
                            trace := s.trace } = s ∧
    (serializerStep s).pins.lat = s.pins.lat ∧ (serializerStep s).pins.oe = s.pins.oe ∧
    (serializerStep s).pins.a = s.pins.a := by
  rcases serializerStep_cases s with ⟨-, h⟩ | ⟨-, h⟩ | ⟨-, h⟩ | ⟨-, h⟩ <;> rw [h]
  case inl =>
    cases hf : s.fifo with
    | nil => rw [popStep_nil hf, ← hf]; exact ⟨rfl, rfl, rfl, rfl⟩
    | cons item rest =>
      rw [popStep_cons s hf, ← hf]
      exact ⟨rfl, rfl, rfl, rfl⟩
  all_goals exact ⟨rfl, rfl, rfl, rfl⟩

/-- Settles O41: agents R and S by their steps; agent P by what it leaves of the loops and by the pin it drives. -/
theorem agentsChangeOnlyTheirOwn : Obligations.AgentsChangeOnlyTheirOwn := by
  refine ⟨fun _ _ => refreshStep_frame, serializerStep_frame, fun s t h => ?_⟩
  have hleaves := LeavesLoops.command h
  have hdrove := commandStep_drove h
  obtain ⟨hoe, ha, -⟩ := hdrove.undriven
  refine ⟨hleaves.addr, hleaves.widx, hleaves.muxhold, hleaves.sstate, hleaves.osr, hleaves.scnt, hleaves.fifo,
    hoe fun hp => (nextPin_P hp).1 rfl, ha fun hp => (nextPin_P hp).2 rfl,
    fun hne => (LoopStaysOrStarts.command h).resolve_left hne, fun hp => ?_⟩
  rw [nextPin_P_none hp] at hdrove
  exact hdrove

end Sys2Proof.Machine

/-! PROOFS. What a step answers: any enabled agent can be the one that steps (O8), the invariant rules out the one fault
(O11), and only parameters outside R10 are refused (O12). -/

namespace Sys2Proof.Machine

variable {s t : State}

/-! ### The choice of the agent (R286) -/

/-- The guards of the steps do not read the written-out schedule. -/
theorem enabled_sched (q : List Agent) (a : Agent) : enabled { s with sched := q } a = enabled s a := by
  cases a <;> rfl

/-- Settles O8: a step is the selected agent's; the schedule that begins with an enabled agent selects it. -/
theorem anyEnabledAgentMayStep : Obligations.AnyEnabledAgentMayStep := by
  refine ⟨fun s t h => ?_, fun s a hc he => ?_⟩
  · obtain ⟨-, ⟨hnone, rfl⟩ | ⟨a, u, -, he, hu, ha⟩⟩ := step_cases h
    · exact .inl ⟨selectAgent_none.1 hnone, rfl⟩
    · exact .inr ⟨a, u, he, hu, ha⟩
  · have hwanted : enabled { s with sched := [a] } a = true := (enabled_sched [a] a).trans he
    rcases selectAgent_wanted (s := { s with sched := [a] }) hwanted with hsel | hsel
    · exact ⟨[a], _, .inl rfl, step_of_selectAgent hc hsel⟩
    · exact ⟨[a], _, .inr rfl, step_of_selectAgent hc hsel⟩

/-! ### No fault (R279) -/

/-- Agent R's step answers a next state where a fetch finds its word (R191). -/
theorem refreshStep_next (hw : s.rstate = .fetch → s.widx.toNat < 48) : ∃ t, refreshStep s = .next t := by
  cases hr : s.rstate with
  | idle => exact ⟨s, by simp [refreshStep, hr]⟩
  | adv => exact ⟨_, refreshStep_adv hr⟩
  | fetch => exact ⟨_, refreshStep_fetch hr (hw hr)⟩
  | push => exact ⟨_, refreshStep_push hr⟩
  | blank => exact ⟨_, refreshStep_blank hr⟩
  | setaddr => exact ⟨_, refreshStep_setaddr hr⟩
  | lathi => exact ⟨_, refreshStep_lathi hr⟩
  | latlo => exact ⟨_, refreshStep_latlo hr⟩
  | unblank => exact ⟨_, refreshStep_unblank hr⟩

theorem Inv.agentStep_next (h : Inv s) (a : Agent) : ∃ t, agentStep a s = .next t := by
  cases a with
  | P => exact commandStep_next s
  | R => exact refreshStep_next fun hr => h.widxStream (.inl hr)
  | S => exact ⟨_, rfl⟩

/-- Settles O11: the selected agent steps in a state of the invariant, and with none selected the block waits. -/
theorem neverFaultsNorRefuses : Obligations.NeverFaultsNorRefuses := by
  intro s hI
  cases hsel : selectAgent s with
  | none => exact ⟨s, step_of_none hI.params (selectAgent_none.1 hsel)⟩
  | some p =>
    obtain ⟨a, u⟩ := p
    rw [step_of_selectAgent hI.params hsel]
    obtain ⟨-, rfl | rfl⟩ := selectAgent_some hsel
    · exact hI.agentStep_next a
    · exact hI.choiceMade.agentStep_next a

/-! ### Refusals (R279) -/

/-- Agent R's one outcome other than a next state is the fault of a fetch outside the table. -/
theorem refreshStep_ne_refused (s : State) (r : Refusal) : refreshStep s ≠ .refused r := by
  by_cases hw : s.rstate = .fetch → s.widx.toNat < 48
  · obtain ⟨t, ht⟩ := refreshStep_next hw
    simp [ht]
  · obtain ⟨hr, hidx⟩ := Classical.not_imp.1 hw
    have hnone : stRead s.st s.addr.toNat s.widx.toNat = none := by
      rw [stRead, scanKey_none (Nat.not_lt.1 hidx)]
      rfl
    simp [refreshStep, hr, fetchStep, hnone]

/-- No agent's step is refused. -/
theorem agentStep_ne_refused (a : Agent) (s : State) (r : Refusal) : agentStep a s ≠ .refused r := by
  cases a with
  | P =>
    obtain ⟨t, ht⟩ := commandStep_next s
    simp [agentStep, ht]
  | R => exact refreshStep_ne_refused s r
  | S => simp [agentStep]

theorem step_refused_iff : (∃ r, step s = .refused r) ↔ paramsOk s.cfg = false := by
  constructor
  · rintro ⟨r, hr⟩
    by_contra hc
    have hok : paramsOk s.cfg = true := by simpa using hc
    cases hsel : selectAgent s with
    | none =>
      rw [step_of_none hok (selectAgent_none.1 hsel)] at hr
      cases hr
    | some p =>
      rw [step_of_selectAgent hok hsel] at hr
      exact agentStep_ne_refused _ _ _ hr
  · intro hc
    exact ⟨.badParameters, by simp [step, hc]⟩

/-- Four offsets among which each of 0, 4, 8, 12 stands once are those four in some order (R144). -/
theorem rowSelOk_iff (r : RowSel) :
    rowSelOk r = true ↔ List.Perm [r.first0, r.second0, r.first1, r.second1] [0, 4, 8, 12] := by
  simp only [rowSelOk, List.all_eq_true, beq_iff_eq]
  constructor
  · intro hcount
    have hsub : [0, 4, 8, 12] ⊆ [r.first0, r.second0, r.first1, r.second1] := fun o ho =>
      List.count_pos_iff.1 (by rw [hcount o ho]; decide)
    exact ((List.subperm_of_subset (by decide) hsub).perm_of_length_le (Nat.le_refl 4)).symm
  · intro hperm o ho
    rw [hperm.count_eq]
    revert o
    decide

/-- Settles O12: no agent's step is refused, so only the check of the parameters is left. -/
theorem onlyBadParametersRefused : Obligations.OnlyBadParametersRefused := by
  intro s
  rw [step_refused_iff, ← Bool.not_eq_true, paramsOk_iff, ← rowSelOk_iff, not_and_or, not_and_or]
  exact or_congr (by omega) (or_congr_right (by omega))

end Sys2Proof.Machine

/-! PROOFS. Reset (O13, O14). -/

namespace Sys2Proof.Machine

/-- STATUS is made of PHASE and the flags, all 0 after reset (R33, R46). -/
theorem status_resetFor (c : Params) : status (State.resetFor c) = 0#32 := by
  change 0#28 ++ 0#1 ++ 0#1 ++ 0#1 ++ 0#1 = 0#32
  decide

/-- Settles O13: the memories of the reset state are empty, and with CP at 0 agent P waits for a first word only. -/
theorem resetValues : Obligations.ResetValues := by
  intro c
  refine ⟨_, rfl, fun _ _ _ => rfl, fun g i hg hi => stRead_eq _ hg hi, rfl, rfl, rfl, rfl, rfl, rfl, rfl, rfl, rfl, rfl,
    rfl, rfl, rfl, rfl, rfl, rfl, rfl, rfl, rfl, rfl, rfl, status_resetFor c, rEnabled_idle rfl, rfl, fun ws r => ?_⟩
  have hwords := pEnabled_iff_of_idle (s := { State.resetFor c with cmds := ws, cmdsRest := r }) rfl
  rwa [← List.length_pos_iff]

/-- CP is back at 0, so it is inside any command list. -/
theorem inv_applyReset {s : State} (hc : paramsOk s.cfg = true) : Inv (applyReset s) :=
  { inv_resetFor hc with
    cpBound := fun _ => Nat.zero_le _
    busyCp := fun h => absurd rfl h }

/-- Settles O14. -/
theorem resetFromAnyState : Obligations.ResetFromAnyState := fun _ =>
  ⟨_, rfl, rfl, rfl, rfl, rfl, rfl, rfl, rfl, rfl, rfl, inv_applyReset⟩

end Sys2Proof.Machine

/-! PROOFS. Progress in ACTIVE: no deadlock (O47), an item is finished in 24 steps (O54), and a waiting push has room after
25 steps of agent S (O48). The measure of all three is `serialLeft`, the steps agent S has left. -/

namespace Sys2Proof.Machine

variable {s t u : State}

/-! ### No deadlock (R278) -/

/-- A blank step that waits for the drain leaves agent S an item to finish or to take (R201). -/
theorem sEnabled_of_undrained (ha : s.phase = .active) (hr : s.rstate = .blank) (hwait : rEnabled s = false) :
    sEnabled s = true := by
  by_cases hs : s.sstate = .idle
  · refine (sEnabled_idle hs).2 ⟨ha, fun hf => ?_⟩
    rw [(rEnabled_blank hr).2 fun _ => ⟨hf, hs⟩] at hwait
    cases hwait
  · exact sEnabled_busy hs

/-- Settles O47: agent R waits in R_PUSH and R_BLANK only, and there it waits for agent S. -/
theorem activeNeverDeadlocks : Obligations.ActiveNeverDeadlocks := by
  intro s hI ha
  cases he : rEnabled s with
  | true => exact .inl rfl
  | false =>
    refine .inr ?_
    by_cases hpush : s.rstate = .push
    · exact hI.sEnabled_of_full hpush he
    · by_cases hblank : s.rstate = .blank
      · exact sEnabled_of_undrained ha hblank he
      · rw [rEnabled_unguarded rfl ⟨hI.loop_of_active ha, hpush, hblank⟩] at he
        cases he

/-! ### The steps agent S has left -/

/-- An item in progress has at most 24 steps left, each in the queue has 25 (R217). -/
theorem Inv.serialLeft_le (h : Inv s) : serialLeft s ≤ 25 * s.fifo.length + 24 := by
  have hmax := h.scntRange.1
  unfold serialLeft
  cases s.sstate <;> simp only <;> omega

theorem fifo_le_serialLeft (s : State) : 25 * s.fifo.length ≤ serialLeft s := Nat.le_add_right _ _

/-- The steps left are those of the queue's items exactly where no item is in progress. -/
theorem Inv.idle_iff_serialLeft (h : Inv s) : s.sstate = .idle ↔ serialLeft s = 25 * s.fifo.length := by
  constructor
  · intro hs
    simp [serialLeft, hs]
  · intro hleft
    by_contra hs
    have hpos := h.scnt_pos hs
    unfold serialLeft at hleft
    cases hst : s.sstate with
    | idle => exact hs hst
    | drive | clkhi | clklo =>
      simp only [hst] at hleft
      omega

/-! ### An item is finished (R217) -/

/-- Inside an item agent S leaves the queue. -/
theorem serializerStep_fifo_busy (h : s.sstate ≠ .idle) : (serializerStep s).fifo = s.fifo := by
  rcases serializerStep_cases s with ⟨hs, -⟩ | ⟨-, hst⟩ | ⟨-, hst⟩ | ⟨-, hst⟩
  · exact absurd hs h
  all_goals rw [hst]; rfl

/-- The `k` steps left of the item in progress finish it. -/
theorem Inv.agentRun_item {k : Nat} (h : Inv s) (hleft : serialLeft s = 25 * s.fifo.length + k) :
    ∃ t, agentRun .S k s = .next t ∧ t.sstate = .idle ∧ t.fifo = s.fifo := by
  induction k generalizing s with
  | zero => exact ⟨s, rfl, h.idle_iff_serialLeft.2 hleft, rfl⟩
  | succ k ih =>
    have hbusy : s.sstate ≠ .idle := fun hs => by
      have := h.idle_iff_serialLeft.1 hs
      omega
    have hfifo := serializerStep_fifo_busy hbusy
    have hstep := serialLeft_serializerStep h (sEnabled_busy hbusy)
    obtain ⟨t, hrun, hidle, hkept⟩ := ih (h.serializer (sEnabled_busy hbusy)) (by rw [hfifo]; omega)
    exact ⟨t, hrun, hidle, hkept.trans hfifo⟩

/-- Settles O54: the steps left beyond those of the queue are at most 24, and they finish the item. -/
theorem serializerIdleWithin24 : Obligations.SerializerIdleWithin24 := by
  intro s hI
  have hge := fifo_le_serialLeft s
  have hle := hI.serialLeft_le
  obtain ⟨t, hrun⟩ := hI.agentRun_item (k := serialLeft s - 25 * s.fifo.length) (by omega)
  exact ⟨_, t, by omega, hrun⟩

/-! ### A waiting push (R192, R278) -/

theorem runAgents_cons {a : Agent} {as : List Agent} (h : runAgents (a :: as) s = some t) :
    enabled s a = true ∧ ∃ u, agentStep a s = .next u ∧ runAgents as u = some t := by
  unfold runAgents at h
  split at h
  · next he =>
    split at h
    · next u hu => exact ⟨he, u, hu, h⟩
    · cases h
    · cases h
  · cases h

/-- By the steps of the agents `as` from `s` to `t` the push still waits in a state of the invariant: room stays room, and
the steps agent S has left fall by one with each step of agent S. -/
structure PushWaitsThrough (as : List Agent) (s t : State) : Prop where
  inv : Inv t
  push : t.rstate = .push
  room : rEnabled s = true → rEnabled t = true
  cfg : t.cfg = s.cfg
  left : serialLeft t + as.count .S = serialLeft s

theorem PushWaitsThrough.nil (h : Inv s) (hr : s.rstate = .push) : PushWaitsThrough [] s s :=
  ⟨h, hr, id, rfl, rfl⟩

theorem PushWaitsThrough.cons {a : Agent} {as : List Agent} (hr : s.rstate = .push) (h : PushWaits a s u)
    (h' : PushWaitsThrough as u t) : PushWaitsThrough (a :: as) s t where
  inv := h'.inv
  push := h'.push
  room he := h'.room (h.room hr he)
  cfg := h'.cfg.trans h.cfg
  left := by
    rw [List.count_cons, ← h.left, ← h'.left]
    simp only [beq_iff_eq]
    omega

/-- Any steps of agents P and S leave a waiting push waiting. -/
theorem Inv.pushWaitsThrough {as : List Agent} (h : Inv s) (hr : s.rstate = .push) (hR : Agent.R ∉ as)
    (hrun : runAgents as s = some t) : PushWaitsThrough as s t := by
  induction as generalizing s with
  | nil =>
    cases hrun
    exact .nil h hr
  | cons a as ih =>
    obtain ⟨ha, has⟩ := not_or.1 (mt List.mem_cons.2 hR)
    obtain ⟨he, u, hu, hrest⟩ := runAgents_cons hrun
    have hwaits := h.pushWaits hr (Ne.symm ha) he hu
    exact .cons hr hwaits (ih (h.agent he hu) hwaits.push has hrest)

/-- Settles O48: after 25 steps of agent S the steps it has left are too few for a full queue. -/
theorem pushRoomWithin25 : Obligations.PushRoomWithin25 := by
  intro s t as hI hr hR hrun
  have hw := hI.pushWaitsThrough hr hR hrun
  have ha : t.phase = .active := hw.inv.active_of_loop (by simp [hw.push])
  refine ⟨hw.push, activeNeverDeadlocks t hw.inv ha, hw.room, fun hcount => ?_⟩
  rw [rEnabled_push hw.push, hw.cfg]
  have hleft := hw.left
  have hqueue := fifo_le_serialLeft t
  have hbound := hI.serialLeft_le
  have hroom := hI.fifoRoom
  omega

end Sys2Proof.Machine
